-- ==== Sys2Proof/Word.lean ====
section
/-! DEFINITION. The word types of the block: the 64-bit word of messages, accumulators and value registers
(00_scope.md R10), the payload byte, and text. -/

namespace Sys2Proof

/-- The width of a message, an accumulator and an analog value register (00_scope.md R10: `MSG_W`, `VALUE_W`). -/
abbrev Word := BitVec 64

/-- A byte of a payload or of the field memory. -/
abbrev Byte := BitVec 8

/-- Text: names ("interned identifiers", 00_scope.md R19: a type with decidable equality and nothing else) and the
character strings of the sources (30_encoding.md R76, R80). DESIGN CHOICE, log 8. -/
abbrev Text := List Char

end Sys2Proof
end

