-- ==== Sys2Proof/Config.lean ====
section
/-! DEFINITION. The implementation parameters of the block (00_scope.md R10) and its options (R2). -/

namespace Sys2Proof

/-- The type of the addresses of `FIELD_MEM`, which R10 leaves to the platform: machine words of a width, or the natural
numbers without a bound. An address stands as a number; one of a type that does not begin at 0 (signed words) stands as its
place in the order of its type. Log 13. -/
inductive AddrType where
  | bits (w : Nat)
  | natural
deriving DecidableEq, Repr

/-- The parameters a model takes as arguments (00_scope.md R10, R18 "Parameter"). They are carried in the state, where
no step writes them, so that a statement about every state is a statement about every choice of them (log 3). -/
structure Config where
  /-- `ID_W`: the width of an identifier, 1 to 64. -/
  idW : Nat
  /-- `EFF_BIT`: the bit of an identifier that is the extended-frame marker, below `idW`. -/
  effBit : Nat
  /-- The `BUS_INDEX` of every codec, one per bus, rising. Their number is `N_BUS`. -/
  buses : List Int
  /-- Option SER is present (00_scope.md R2), in every codec alike. DESIGN CHOICE (log 29): R2 makes it an option of the block,
  R3 lets one codec have it and another not. -/
  ser : Bool
  /-- Option BIND is present (00_scope.md R2). -/
  bind : Bool
  /-- The type of the addresses of `FIELD_MEM`. -/
  addrType : AddrType
  /-- The least address of `FIELD_MEM`. -/
  fieldMemBase : Nat
  /-- The number of bytes of `FIELD_MEM`; its addresses rise from `fieldMemBase`. -/
  fieldMemSize : Nat
deriving DecidableEq, Repr

/-- The ranges 00_scope.md R10 gives the parameters; one codec per bus (R3). -/
abbrev Config.wf (c : Config) : Prop :=
  1 ≤ c.idW ∧ c.idW ≤ 64 ∧ c.effBit < c.idW ∧ c.buses.Pairwise (· < ·)

/-- The parameters of `State.reset`. PRESUMED (R10 marks them general knowledge): `ID_W` 32 and `EFF_BIT` 31. DESIGN
CHOICE: two buses 0 and 1, both options present, addresses of 32 bits, a field
memory of 2^32 bytes from 0. Log 3: no statement rests on them. -/
def Config.default : Config :=
  { idW := 32, effBit := 31, buses := [0, 1], ser := true, bind := true, addrType := .bits 32, fieldMemBase := 0,
    fieldMemSize := 4294967296 }

end Sys2Proof
end

