-- ==== Sys2Proof/Syntax.lean ====
section
/-! DEFINITION. Everything that crosses the boundary of the block: the source objects and literals as they arrive
(30_encoding.md R73 to R80), the descriptors they resolve to, raw frames (R70), decoded-frame handles (R81), leaf tuples
(43_binder.md R165), commands (R86), and the twelve operations (R88). -/

namespace Sys2Proof

/-- A frame's direction (30_encoding.md R77). -/
inductive Dir where
  | input
  | output
deriving DecidableEq, Repr

/-- The scalar kinds of a bound field (10_state.md R35). -/
inductive Kind where
  | i16 | u16 | i32 | u32 | i64 | u64 | f32 | f64 | bool
deriving DecidableEq, Repr

/-! ## The sources as they arrive -/

/-- A member of a source object: left out, given with a value of the type the spec states, or given with a value of
another type (a non-integer where an integer is stated, for example). -/
inductive Member (α : Type) where
  | absent
  | given (v : α)
  | mistyped
deriving DecidableEq, Repr

/-- An entry of `Analog` (30_encoding.md R74). -/
structure AnalogObj where
  name : Member Text
  startBit : Member Int
  bitSize : Member Int
  byteInverted : Member Bool
deriving DecidableEq, Repr

/-- An entry of `Digital` (30_encoding.md R75). -/
structure DigitalObj where
  name : Member Text
  startBit : Member Int
deriving DecidableEq, Repr

/-- A frame object of the schema source (30_encoding.md R73). -/
structure FrameObj where
  name : Member Text
  id : Member Text
  extendedId : Member Bool
  inOut : Member Text
  syncFrame : Member Text
  analog : Member (List AnalogObj)
  digital : Member (List DigitalObj)
deriving DecidableEq, Repr

/-- A byte literal as it arrives: "a string or number" (30_encoding.md R80), or a value of another type. -/
inductive Literal where
  | text (t : Text)
  | number (n : Int)
  | other
deriving DecidableEq, Repr

/-- An object of the init-frame source (30_encoding.md R79). -/
structure InitObj where
  canBus : Member Int
  id : Member Text
  data : Member (List Literal)
deriving DecidableEq, Repr

/-! ## What they resolve to -/

/-- A resolved analog entry (40_load.md R103). -/
structure AnalogDesc where
  name : Text
  startBit : Nat
  size : Nat
  inverted : Bool
deriving DecidableEq, Repr

/-- A resolved digital entry (40_load.md R103). -/
structure DigitalDesc where
  name : Text
  startBit : Nat
deriving DecidableEq, Repr

/-- A resolved frame object (40_load.md R103). An identifier of more than 64 bits fits no `ID_W` (00_scope.md R10), so a
64-bit field holds every identifier. -/
structure FrameDesc where
  name : Text
  busId : Word
  extended : Bool
  direction : Dir
  syncPartner : Option Text
  analog : List AnalogDesc
  digital : List DigitalDesc
deriving DecidableEq, Repr

/-- A resolved init object (40_load.md R110). -/
structure InitDesc where
  canBus : Int
  busId : Word
  data : List Byte
deriving DecidableEq, Repr

/-- The part of a frame object's direction that BLOAD reads (43_binder.md R160): it reads the frame's name only of an
outbound frame. -/
inductive Route where
  | inbound
  | outbound (name : Text)
deriving DecidableEq, Repr

/-- What BLOAD reads of a frame object (43_binder.md R160): the direction, the name when outbound, the signal names. -/
structure RouteDesc where
  route : Route
  analog : List Text
  digital : List Text
deriving DecidableEq, Repr

/-! ## Frames, handles, leaves -/

/-- A raw frame (30_encoding.md R70): `length` is 0 to 8 by its type; the container has eight bytes whatever `length`
says (20_memory.md R51). -/
structure RawFrame where
  busId : Word
  extended : Bool
  length : Fin 9
  payload : Vector Byte 8
deriving DecidableEq, Repr

/-- The key of a live frame entry in its codec (30_encoding.md R81). -/
inductive FrameKey where
  | inbound (busId : Word)
  | outbound (name : Text)
deriving DecidableEq, Repr

/-- A decoded frame, passed as a handle on the live entry (30_encoding.md R81): the codec's bus, the table and the key. -/
structure Handle where
  bus : Int
  key : FrameKey
deriving DecidableEq, Repr

/-- A scalar leaf of a registered structure (43_binder.md R165); `addr` is an address of the type `Config.addrType` (log 13). -/
structure Leaf where
  name : Text
  addr : Nat
  bytes : Nat
  kind : Kind
deriving DecidableEq, Repr

/-! ## Operations -/

/-- The operations (30_encoding.md R88), one constructor per row of the operation table, with resolved operands. A codec
operation names its codec by its `BUS_INDEX` (00_scope.md R3, 60_exceptions.md R208). -/
inductive Instr where
  | load (bus : Int) (src : List FrameDesc)
  | loadInit (bus : Int) (src : List InitDesc)
  | initFrames (bus : Int)
  | decode (bus : Int) (raw : RawFrame)
  | getTx (bus : Int) (name : Text)
  | encode (bus : Int) (name : Text)
  | bload (srcs : List (Int × List RouteDesc))
  | register (leaves : List Leaf)
  | xcheck
  | mapIn (frame : Handle)
  | mapOut (frame : Handle)
  | route
deriving DecidableEq, Repr

/-! ## Commands -/

/-- The typed operand records that stand beside the operation code (30_encoding.md R86, R88). -/
inductive Operand where
  | nothing
  | schema (bus : Int) (src : List FrameObj)
  | init (bus : Int) (src : List InitObj)
  | codec (bus : Int)
  | raw (bus : Int) (frame : RawFrame)
  | name (bus : Int) (name : Text)
  | sources (srcs : List (Int × List FrameObj))
  | leaves (leaves : List Leaf)
  | frame (frame : Handle)
deriving DecidableEq, Repr

/-- A command: the 4-bit operation code and the operand records beside it (30_encoding.md R86). -/
structure Command where
  op : BitVec 4
  operand : Operand
deriving DecidableEq, Repr

/-- Why a command is not an operation: each is a refusal of the spec (00_scope.md R18), by name. -/
inductive Reject where
  /-- A reserved operation code (30_encoding.md R89). -/
  | reservedCode (op : BitVec 4)
  /-- The records beside the code are not those the operation takes (30_encoding.md R88). -/
  | operandMismatch (op : BitVec 4)
  /-- `Name` of a frame object absent or not a string (R73, 40_load.md R102). -/
  | frameName
  /-- `ID` absent, not a string, or not a hexadecimal number of at most 64 bits (R76). -/
  | identifier
  /-- `Extended ID` not a Boolean (R73). -/
  | extendedId
  /-- `IN/OUT Frame` absent or not one of the two strings (R77). -/
  | direction
  /-- `Sync Frame` not a string (R78). -/
  | syncFrame
  /-- `Analog` or `Digital` not an array (R73). -/
  | signalArray
  /-- `Name` of a signal entry absent or not a string (R74, R75). -/
  | signalName
  /-- `Start Bit` absent, not an integer, or negative (40_load.md R102). -/
  | startBit
  /-- `Bit Size` absent, not an integer, or negative (40_load.md R102). -/
  | bitSize
  /-- `Byte Inverted` not a Boolean (R74). -/
  | byteInverted
  /-- `Can Bus` absent or not an integer (R79). -/
  | canBus
  /-- `Data` absent or not an array (R79). -/
  | data
  /-- A byte literal that does not parse or is above 255 (R80). -/
  | byteLiteral
deriving DecidableEq, Repr

/-- What the outside presents to the machine, in the order it happens (INVENTORY.md, Host interface; log 2, log 15). -/
inductive Input where
  /-- The host issues one operation (00_scope.md R8). -/
  | command (c : Command)
  /-- The platform writes bytes of field memory, first byte at `addr` (10_state.md R38: they belong to the platform). -/
  | platformWrite (addr : Nat) (bytes : List Byte)
  /-- A second operation is issued while the first is in progress (00_scope.md R9, 70_reset_and_hazards.md R225). -/
  | overlapping (first second : Command)
deriving DecidableEq, Repr

end Sys2Proof
end

