-- ==== Sys2Proof/Machine/Operands.lean ====
section
/-! DEFINITION. Every operand form of the block: the pure functions of 00_scope.md R12, how each operand is put together
(30_encoding.md R83), and the checks on operands that need no state. -/

namespace Sys2Proof

/-! ## The pure functions (00_scope.md R12) -/

/-- `mask(s) = 2^s - 1` by exact arithmetic, so `mask(64)` is all ones (90_conflicts.md C6). -/
def mask (s : Nat) : Word := BitVec.ofNat 64 (2 ^ s - 1)

/-- `shr(v, k)`: logical right shift. -/
def shr (v : Word) (k : Nat) : Word := v >>> k

/-- `shl64(v, k)`: left shift, bits shifted past bit 63 are lost. -/
def shl64 (v : Word) (k : Nat) : Word := v <<< k

/-- Byte `i` of a word: `v[8i+7 : 8i]`. -/
def byteAt (v : Word) (i : Nat) : Byte := v.extractLsb' (8 * i) 8

/-- `bswap64(v)`: byte 0 becomes the most significant byte. -/
def bswap64 (v : Word) : Word :=
  byteAt v 0 ++ byteAt v 1 ++ byteAt v 2 ++ byteAt v 3 ++ byteAt v 4 ++ byteAt v 5 ++ byteAt v 6 ++ byteAt v 7

/-- `inv(v, s) = shr(bswap64(v), 64 - s)`: the inversion transform (41_decode.md R127). -/
def inv (v : Word) (s : Nat) : Word := shr (bswap64 v) (64 - s)

/-- `ceil8(s)`: the number of bytes that hold `s` bits (00_scope.md R11). -/
def ceil8 (s : Nat) : Nat := (s + 7) / 8

/-! ## The message and its fields -/

/-- The 64-bit message of a payload, byte 0 least significant (20_memory.md R53). -/
def message (p : Vector Byte 8) : Word :=
  p[7] ++ p[6] ++ p[5] ++ p[4] ++ p[3] ++ p[2] ++ p[1] ++ p[0]

/-- The eight payload bytes of an accumulator: its bytes below `n`, zero from there on (20_memory.md R54,
42_encode.md R148). -/
def payloadOf (acc : Word) (n : Nat) : Vector Byte 8 :=
  Vector.ofFn fun i => if i.val < n then byteAt acc i.val else 0

/-- The extracted analog field (41_decode.md R126). -/
def extractField (m : Word) (startBit size : Nat) : Word := shr m startBit &&& mask size

/-- The value DECODE gives an analog signal (41_decode.md R120, R126, R127). -/
def analogValue (m : Word) (startBit size : Nat) (inverted : Bool) : Word :=
  if inverted then inv (extractField m startBit size) size else extractField m startBit size

/-- The value DECODE gives a digital signal (41_decode.md R125). -/
def digitalValue (m : Word) (startBit : Nat) : Bool := m.getLsbD startBit

/-- What an analog signal contributes to the accumulator (42_encode.md R145, R146: no mask). -/
def analogInsert (value : Word) (startBit size : Nat) (inverted : Bool) : Word :=
  shl64 (if inverted then inv value size else value) startBit

/-- What a digital signal contributes to the accumulator (42_encode.md R149). -/
def digitalInsert (value : Bool) (startBit : Nat) : Word := shl64 (if value then 1 else 0) startBit

/-- The identifier of an encoded frame (30_encoding.md R71, 42_encode.md R143). -/
def markedId (effBit : Nat) (busId : Word) (extended : Bool) : Word :=
  busId ||| (if extended then BitVec.twoPow 64 effBit else 0)

/-- The register after MAP_OUT (43_binder.md R180, R181): the low `k` bytes are replaced, the bits above kept. -/
def replaceLow (old : Word) (k : Nat) (low : Word) : Word := ((old >>> (8 * k)) <<< (8 * k)) ||| low

/-! ## Claimed bits (40_load.md R104) -/

/-- A range of claimed bits: `lo, lo+1, ..., lo+len-1`. It stands for that set of integers, which has no upper bound
(90_conflicts.md C7). -/
structure BitRange where
  lo : Nat
  len : Nat
deriving DecidableEq, Repr

/-- Two ranges have a common element. -/
def BitRange.meets (a b : BitRange) : Bool :=
  decide (a.lo < b.lo + b.len ∧ b.lo < a.lo + a.len ∧ 0 < a.len ∧ 0 < b.len)

/-- The highest claimed bit; 0 where nothing is claimed (10_state.md R27, decision D12). -/
def highestBit (rs : List BitRange) : Nat := rs.foldl (fun h r => max h (r.lo + r.len - 1)) 0

/-- Some entry claims a bit that an entry before it claims; `occ` is what was claimed so far (40_load.md R104). -/
def claimsOverlap (occ : List BitRange) : List BitRange → Bool
  | [] => false
  | r :: rs => occ.any (fun o => o.meets r) || claimsOverlap (r :: occ) rs

/-- The claims of a frame object, analog list then digital list (40_load.md R104). -/
def FrameDesc.claims (d : FrameDesc) : List BitRange :=
  d.analog.map (fun a => ⟨a.startBit, a.size⟩) ++ d.digital.map (fun g => ⟨g.startBit, 1⟩)

/-! ## Checks on operands -/

/-- `Bit Size` is at least 1 (40_load.md R102). A size above 64 is not malformed: LOAD reports it. -/
def AnalogDesc.wf (d : AnalogDesc) : Bool := decide (1 ≤ d.size)

/-- The names of a frame's entries, analog list first (00_scope.md R17). -/
def FrameDesc.signalNames (d : FrameDesc) : List Text :=
  d.analog.map AnalogDesc.name ++ d.digital.map DigitalDesc.name

/-- The string `none` means no partner, so no frame has a partner of that name (30_encoding.md R78). -/
def FrameDesc.partnerOk (d : FrameDesc) : Bool := decide (d.syncPartner ≠ some ['n', 'o', 'n', 'e'])

/-- A well-formed frame object (40_load.md R102): sizes at least 1, no two entries of one name. -/
def FrameDesc.wf (d : FrameDesc) : Bool :=
  d.analog.all AnalogDesc.wf && decide d.signalNames.Nodup && d.partnerOk

/-- An identifier fits `ID_W` bits (30_encoding.md R76, R70). -/
def idFits (c : Config) (busId : Word) : Bool := decide (busId.toNat < 2 ^ c.idW)

/-- At most eight literals in one `Data` (40_load.md R110). -/
def InitDesc.wf (d : InitDesc) : Bool := decide (d.data.length ≤ 8)

/-- The raw frame of an init object (40_load.md R110): not extended, as long as its literals, zero above them. -/
def InitDesc.rawFrame (d : InitDesc) : RawFrame :=
  { busId := d.busId, extended := false, length := Fin.ofNat 9 d.data.length,
    payload := Vector.ofFn fun i => d.data.getD i.val 0 }

/-- A number is an address of a type (00_scope.md R10). -/
def AddrType.has : AddrType → Nat → Bool
  | .bits w, a => decide (a < 2 ^ w)
  | .natural, _ => true

/-- `FIELD_MEM` has a byte at an address (00_scope.md R10; log 13). -/
def Config.hasByte (c : Config) (a : Nat) : Bool :=
  c.addrType.has a && decide (c.fieldMemBase ≤ a) && decide (a < c.fieldMemBase + c.fieldMemSize)

/-- `FIELD_MEM` has the `n` bytes from an address on. -/
def Config.hasBytes (c : Config) (addr n : Nat) : Bool := (List.range n).all fun k => c.hasByte (addr + k)

/-- The storage width of a kind in bytes (10_state.md R35). No operation reads it: a field is as wide as its leaf says
(43_binder.md R165, R179; log 12). -/
def Kind.bytes : Kind → Nat
  | .i16 | .u16 => 2
  | .i32 | .u32 | .f32 => 4
  | .i64 | .u64 | .f64 => 8
  | .bool => 1

end Sys2Proof
end

