-- ==== Sys2Proof/WellFormed.lean ====
section
/-! DEFINITION. Well-formed operations: the conditions on an operation's operands that depend on neither the parameters
nor the state (40_load.md R102, R110). The conditions that do depend on them are checked by the
meanings, which check these too. -/

namespace Sys2Proof

/-- The well-formed operations. -/
def Instr.wf : Instr → Bool
  | .load _ src => src.all FrameDesc.wf
  | .loadInit _ src => src.all InitDesc.wf
  | .initFrames _ => true
  | .decode _ _ => true
  | .getTx _ _ => true
  | .encode _ _ => true
  | .bload _ => true
  | .register _ => true
  | .xcheck => true
  | .mapIn _ => true
  | .mapOut _ => true
  | .route => true

end Sys2Proof
end

