-- ==== Sys2Proof/Decode.lean ====
section
/-! DEFINITION. Decoding a command: the 4-bit operation code (30_encoding.md R86, R88, R89) and the records beside it,
whose source objects are resolved to descriptors (40_load.md R103, 30_encoding.md R73 to R80). Total on every command;
whatever is no operation is rejected by name. After it the encoder, written from the same tables. -/

namespace Sys2Proof

/-! ## Literals (30_encoding.md R76, R80) -/

/-- The value of a digit, of either case; `none` for any other character. -/
def digitValue (c : Char) : Option Nat :=
  if '0' ≤ c ∧ c ≤ '9' then some (c.toNat - 48)
  else if 'a' ≤ c ∧ c ≤ 'f' then some (c.toNat - 87)
  else if 'A' ≤ c ∧ c ≤ 'F' then some (c.toNat - 55)
  else none

/-- Digits of a base, most significant first, after the value read so far; `none` at a character that is no digit of
the base. -/
def readDigits (base : Nat) : Nat → Text → Option Nat
  | acc, [] => some acc
  | acc, c :: cs =>
    match digitValue c with
    | some d => if d < base then readDigits base (acc * base + d) cs else none
    | none => none

/-- A number of at least one digit (decision D15). -/
def readNumber (base : Nat) : Text → Option Nat
  | [] => none
  | c :: cs => readDigits base 0 (c :: cs)

/-- A hexadecimal string without its optional `0x` or `0X` (30_encoding.md R76). -/
def dropHexMark : Text → Text
  | '0' :: 'x' :: t => t
  | '0' :: 'X' :: t => t
  | t => t

/-- An `ID` string is read as hexadecimal whatever it looks like (30_encoding.md R76). A number above 64 bits fits no
`ID_W`. -/
def readId (t : Text) : Option Word :=
  match readNumber 16 (dropHexMark t) with
  | some n => if n < 2 ^ 64 then some (BitVec.ofNat 64 n) else none
  | none => none

/-- The number a byte literal's text spells: `0b` and binary digits, `0x` and hexadecimal digits, or decimal digits
(30_encoding.md R80; either case of the marks, decision D15). -/
def readLiteralText : Text → Option Nat
  | '0' :: 'b' :: t => readNumber 2 t
  | '0' :: 'B' :: t => readNumber 2 t
  | '0' :: 'x' :: t => readNumber 16 t
  | '0' :: 'X' :: t => readNumber 16 t
  | t => readNumber 10 t

/-- A byte literal: its value must be 0 to 255 (30_encoding.md R80). -/
def readByte : Literal → Option Byte
  | .text t =>
    match readLiteralText t with
    | some n => if n ≤ 255 then some (BitVec.ofNat 8 n) else none
    | none => none
  | .number n => if 0 ≤ n ∧ n ≤ 255 then some (BitVec.ofNat 8 n.toNat) else none
  | .other => none

/-! ## Members -/

/-- A required member. -/
def requiredMember {α : Type} (bad : Reject) : Member α → Except Reject α
  | .given v => .ok v
  | .absent => .error bad
  | .mistyped => .error bad

/-- An optional member with its default. -/
def optionalMember {α : Type} (bad : Reject) (dflt : α) : Member α → Except Reject α
  | .given v => .ok v
  | .absent => .ok dflt
  | .mistyped => .error bad

/-- A required integer that must not be negative (40_load.md R102). -/
def requiredNat (bad : Reject) (m : Member Int) : Except Reject Nat :=
  match m with
  | .given n => if 0 ≤ n then .ok n.toNat else .error bad
  | .absent => .error bad
  | .mistyped => .error bad

/-- An `ID` member (30_encoding.md R76). -/
def requiredId (m : Member Text) : Except Reject Word :=
  match m with
  | .given t => match readId t with
    | some w => .ok w
    | none => .error .identifier
  | .absent => .error .identifier
  | .mistyped => .error .identifier

/-- `IN/OUT Frame` (30_encoding.md R77). -/
def requiredDir (m : Member Text) : Except Reject Dir :=
  match m with
  | .given t =>
    if t = ['I', 'N'] then .ok .input else if t = ['O', 'U', 'T'] then .ok .output else .error .direction
  | .absent => .error .direction
  | .mistyped => .error .direction

/-- `Sync Frame`: absent or the string `none` means no partner (30_encoding.md R78). -/
def optionalPartner (m : Member Text) : Except Reject (Option Text) :=
  match m with
  | .given t => .ok (if t = ['n', 'o', 'n', 'e'] then none else some t)
  | .absent => .ok none
  | .mistyped => .error .syncFrame

/-- Resolves every element of a list, in order; the first that is rejected rejects the list. -/
def resolveEach {α β : Type} (f : α → Except Reject β) : List α → Except Reject (List β)
  | [] => .ok []
  | x :: xs =>
    match f x with
    | .error e => .error e
    | .ok y =>
      match resolveEach f xs with
      | .error e => .error e
      | .ok ys => .ok (y :: ys)

/-! ## Source objects to descriptors (40_load.md R103) -/

/-- An analog entry (30_encoding.md R74). -/
def resolveAnalog (o : AnalogObj) : Except Reject AnalogDesc := do
  let name ← requiredMember .signalName o.name
  let startBit ← requiredNat .startBit o.startBit
  let size ← requiredNat .bitSize o.bitSize
  let inverted ← optionalMember .byteInverted false o.byteInverted
  return { name, startBit, size, inverted }

/-- A digital entry (30_encoding.md R75). -/
def resolveDigital (o : DigitalObj) : Except Reject DigitalDesc := do
  let name ← requiredMember .signalName o.name
  let startBit ← requiredNat .startBit o.startBit
  return { name, startBit }

/-- A frame object (40_load.md R103). An absent array is read as empty (30_encoding.md R73). -/
def resolveFrame (o : FrameObj) : Except Reject FrameDesc := do
  let name ← requiredMember .frameName o.name
  let busId ← requiredId o.id
  let extended ← optionalMember .extendedId false o.extendedId
  let direction ← requiredDir o.inOut
  let syncPartner ← optionalPartner o.syncFrame
  let analogObjs ← optionalMember .signalArray [] o.analog
  let digitalObjs ← optionalMember .signalArray [] o.digital
  let analog ← resolveEach resolveAnalog analogObjs
  let digital ← resolveEach resolveDigital digitalObjs
  return { name, busId, extended, direction, syncPartner, analog, digital }

/-- An init object (30_encoding.md R79). -/
def resolveInit (o : InitObj) : Except Reject InitDesc := do
  let canBus ← requiredMember .canBus o.canBus
  let busId ← requiredId o.id
  let literals ← requiredMember .data o.data
  let data ← resolveEach (fun l => match readByte l with | some b => .ok b | none => .error .byteLiteral) literals
  return { canBus, busId, data }

/-- What BLOAD reads of a frame object (43_binder.md R160, R161; log 14): it reads no identifier, start bit or size. -/
def resolveRoute (o : FrameObj) : Except Reject RouteDesc := do
  let direction ← requiredDir o.inOut
  let route ← match direction with
    | .input => .ok .inbound
    | .output => (requiredMember .frameName o.name).map .outbound
  let analogObjs ← optionalMember .signalArray [] o.analog
  let digitalObjs ← optionalMember .signalArray [] o.digital
  let analog ← resolveEach (fun e => requiredMember .signalName e.name) analogObjs
  let digital ← resolveEach (fun e => requiredMember .signalName e.name) digitalObjs
  return { route, analog, digital }

/-- The sources of all buses for BLOAD (43_binder.md R160). -/
def resolveBus (p : Int × List FrameObj) : Except Reject (Int × List RouteDesc) :=
  (resolveEach resolveRoute p.2).map fun rs => (p.1, rs)

/-! ## Commands (30_encoding.md R86, R88, R89) -/

/-- Operation code 0x1. -/
def decodeLoad : Operand → Except Reject Instr
  | .schema bus src => (resolveEach resolveFrame src).map (.load bus)
  | _ => .error (.operandMismatch 0x1)

/-- Operation code 0x2. -/
def decodeLoadInit : Operand → Except Reject Instr
  | .init bus src => (resolveEach resolveInit src).map (.loadInit bus)
  | _ => .error (.operandMismatch 0x2)

/-- Operation code 0x3. -/
def decodeInitFrames : Operand → Except Reject Instr
  | .codec bus => .ok (.initFrames bus)
  | _ => .error (.operandMismatch 0x3)

/-- Operation code 0x4. -/
def decodeDecode : Operand → Except Reject Instr
  | .raw bus frame => .ok (.decode bus frame)
  | _ => .error (.operandMismatch 0x4)

/-- Operation code 0x5. -/
def decodeGetTx : Operand → Except Reject Instr
  | .name bus n => .ok (.getTx bus n)
  | _ => .error (.operandMismatch 0x5)

/-- Operation code 0x6. -/
def decodeEncode : Operand → Except Reject Instr
  | .name bus n => .ok (.encode bus n)
  | _ => .error (.operandMismatch 0x6)

/-- Operation code 0x8. -/
def decodeBload : Operand → Except Reject Instr
  | .sources srcs => (resolveEach resolveBus srcs).map .bload
  | _ => .error (.operandMismatch 0x8)

/-- Operation code 0x9. -/
def decodeRegister : Operand → Except Reject Instr
  | .leaves ls => .ok (.register ls)
  | _ => .error (.operandMismatch 0x9)

/-- Operation code 0xA. -/
def decodeXcheck : Operand → Except Reject Instr
  | .nothing => .ok .xcheck
  | _ => .error (.operandMismatch 0xA)

/-- Operation code 0xB. -/
def decodeMapIn : Operand → Except Reject Instr
  | .frame h => .ok (.mapIn h)
  | _ => .error (.operandMismatch 0xB)

/-- Operation code 0xC. -/
def decodeMapOut : Operand → Except Reject Instr
  | .frame h => .ok (.mapOut h)
  | _ => .error (.operandMismatch 0xC)

/-- Operation code 0xD. -/
def decodeRoute : Operand → Except Reject Instr
  | .nothing => .ok .route
  | _ => .error (.operandMismatch 0xD)

/-- The decoder: the operation code selects the operation (30_encoding.md R88); reserved codes are rejected (R89). -/
def decode (c : Command) : Except Reject Instr :=
  match c.op.toNat with
  | 0x1 => decodeLoad c.operand
  | 0x2 => decodeLoadInit c.operand
  | 0x3 => decodeInitFrames c.operand
  | 0x4 => decodeDecode c.operand
  | 0x5 => decodeGetTx c.operand
  | 0x6 => decodeEncode c.operand
  | 0x8 => decodeBload c.operand
  | 0x9 => decodeRegister c.operand
  | 0xA => decodeXcheck c.operand
  | 0xB => decodeMapIn c.operand
  | 0xC => decodeMapOut c.operand
  | 0xD => decodeRoute c.operand
  | _ => .error (.reservedCode c.op)

/-- The operand records of zeros that stand beside a code: bus 0, empty lists and names, a raw frame of zeros, the
handle of the inbound identifier 0 or of the outbound empty name (log 2). -/
def zeroOperand (op : BitVec 4) : Operand :=
  match op.toNat with
  | 0x1 => .schema 0 []
  | 0x2 => .init 0 []
  | 0x3 => .codec 0
  | 0x4 => .raw 0 { busId := 0, extended := false, length := 0, payload := Vector.replicate 8 0 }
  | 0x5 => .name 0 []
  | 0x6 => .name 0 []
  | 0x8 => .sources []
  | 0x9 => .leaves []
  | 0xB => .frame { bus := 0, key := .inbound 0 }
  | 0xC => .frame { bus := 0, key := .outbound [] }
  | _ => .nothing

/-- The command whose code is the word `w`, with operand records of zeros. -/
def wordCommand (w : Nat) : Command := { op := BitVec.ofNat 4 w, operand := zeroOperand (BitVec.ofNat 4 w) }

/-- The command of a table word: four bits, so a word with a higher bit set is no operation (30_encoding.md R86) and a
reserved code stands for it. -/
def tableCommand (w : Nat) : Command := if w < 16 then wordCommand w else wordCommand 0

/-- The operation the decoder reads from a table word. -/
def decodeTableWord (_nbits w : Nat) : Option Instr :=
  match decode (tableCommand w) with
  | .ok i => some i
  | .error _ => none

/-! ## The encoder -/

/-- A hexadecimal digit. -/
def hexDigit (n : Nat) : Char := if n < 10 then Char.ofNat (48 + n) else Char.ofNat (87 + n)

/-- An identifier as sixteen hexadecimal digits. -/
def idText (w : Word) : Text :=
  [15, 14, 13, 12, 11, 10, 9, 8, 7, 6, 5, 4, 3, 2, 1, 0].map fun i => hexDigit (w.toNat / 16 ^ i % 16)

/-- The string of a direction (30_encoding.md R77). -/
def dirText : Dir → Text
  | .input => ['I', 'N']
  | .output => ['O', 'U', 'T']

/-- An analog entry with all its members. -/
def analogObj (d : AnalogDesc) : AnalogObj :=
  { name := .given d.name, startBit := .given d.startBit, bitSize := .given d.size, byteInverted := .given d.inverted }

/-- A digital entry with all its members. -/
def digitalObj (d : DigitalDesc) : DigitalObj := { name := .given d.name, startBit := .given d.startBit }

/-- `Sync Frame`, left out where there is no partner (30_encoding.md R78). -/
def partnerMember : Option Text → Member Text
  | some p => .given p
  | none => .absent

/-- `Name` of a frame as BLOAD reads it: of an outbound frame only (43_binder.md R160). -/
def routeName : Route → Member Text
  | .inbound => .absent
  | .outbound n => .given n

/-- The direction of a frame as BLOAD reads it. -/
def routeInOut : Route → Dir
  | .inbound => .input
  | .outbound _ => .output

/-- A frame object with all its members; `Sync Frame` left out where there is no partner. -/
def frameObj (d : FrameDesc) : FrameObj :=
  { name := .given d.name, id := .given (idText d.busId), extendedId := .given d.extended,
    inOut := .given (dirText d.direction),
    syncFrame := partnerMember d.syncPartner,
    analog := .given (d.analog.map analogObj), digital := .given (d.digital.map digitalObj) }

/-- An init object, its literals spelled as numbers. -/
def initObj (d : InitDesc) : InitObj :=
  { canBus := .given d.canBus, id := .given (idText d.busId),
    data := .given (d.data.map fun b => .number (b.toNat : Int)) }

/-- A frame object that says what BLOAD reads and nothing else. -/
def routeObj (d : RouteDesc) : FrameObj :=
  { name := routeName d.route,
    id := .absent, extendedId := .absent,
    inOut := .given (dirText (routeInOut d.route)),
    syncFrame := .absent,
    analog := .given (d.analog.map fun n =>
      { name := .given n, startBit := .absent, bitSize := .absent, byteInverted := .absent }),
    digital := .given (d.digital.map fun n => { name := .given n, startBit := .absent }) }

/-- The command of an operation (30_encoding.md R88). -/
def encode : Instr → Command
  | .load bus src => ⟨0x1, .schema bus (src.map frameObj)⟩
  | .loadInit bus src => ⟨0x2, .init bus (src.map initObj)⟩
  | .initFrames bus => ⟨0x3, .codec bus⟩
  | .decode bus raw => ⟨0x4, .raw bus raw⟩
  | .getTx bus n => ⟨0x5, .name bus n⟩
  | .encode bus n => ⟨0x6, .name bus n⟩
  | .bload srcs => ⟨0x8, .sources (srcs.map fun p => (p.1, p.2.map routeObj))⟩
  | .register ls => ⟨0x9, .leaves ls⟩
  | .xcheck => ⟨0xA, .nothing⟩
  | .mapIn h => ⟨0xB, .frame h⟩
  | .mapOut h => ⟨0xC, .frame h⟩
  | .route => ⟨0xD, .nothing⟩

end Sys2Proof
end

