-- ==== Sys2Proof/Machine/State.lean ====
section
/-! DEFINITION. The state of the block (10_state.md), its results and events (60_exceptions.md R190), the reasons a step can
stop, and the state after reset (10_state.md R41). -/

namespace Sys2Proof.Machine

open Sys2Proof

/-! ## Maps and memory -/

/-- A finite partial map (00_scope.md R13): pairs of key and entry, keys strictly rising, so that equal maps are equal
data (log 9). -/
abbrev FMap (K V : Type) := List (K × V)

/-- Keys strictly rise: the one form of a map. -/
abbrev FMap.wf {K V : Type} [LT K] (m : FMap K V) : Prop := (m.map Prod.fst).Pairwise (· < ·)

/-- The field memory: the listed bytes, addresses strictly rising, no listed byte equal to what an unlisted address reads
as. Which addresses there are is the parameters' (`Config.hasByte`). -/
abbrev Memory := List Host.Cell

/-- What an unlisted address reads as. DESIGN CHOICE 0 (log 4): the contents are the platform's (10_state.md R38). -/
def unlistedByte : Byte := 0

/-- The one form of a memory: addresses strictly rise, no entry repeats the unlisted byte. -/
abbrev Memory.wf (m : Memory) : Prop := (m.map Prod.fst).Pairwise (· < ·) ∧ ∀ c ∈ m, c.2 ≠ unlistedByte

/-! ## The codec's state (10_state.md R20 to R31) -/

/-- An analog signal record with its value register (10_state.md R23). -/
structure AnalogSig where
  name : Text
  startBit : Nat
  size : Nat
  inverted : Bool
  value : Word
deriving DecidableEq, Repr

/-- A digital signal record with its value register (10_state.md R24). -/
structure DigitalSig where
  name : Text
  startBit : Nat
  value : Bool
deriving DecidableEq, Repr

/-- A frame entry (10_state.md R26). Its signals stand in source order, the order of iteration (00_scope.md R17). -/
structure FrameEntry where
  name : Text
  busId : Word
  extended : Bool
  syncPartner : Option Text
  byteLength : Nat
  direction : Dir
  an : List AnalogSig
  dg : List DigitalSig
deriving DecidableEq, Repr

/-- A codec, one per bus (10_state.md R20): the inbound table by identifier (R28), the outbound table by name (R29), the
initialisation frames (R31). -/
structure Codec where
  inTable : FMap Word FrameEntry
  outTable : FMap Text FrameEntry
  initList : List RawFrame
deriving DecidableEq, Repr

/-- A codec after reset (10_state.md R41). -/
def Codec.empty : Codec := { inTable := [], outTable := [], initList := [] }

/-! ## The binder's state (10_state.md R34 to R37) -/

/-- A binding (10_state.md R35): the field's address, of the type `Config.addrType` (log 13), its storage width and kind. -/
structure Binding where
  addr : Nat
  bytes : Nat
  kind : Kind
deriving DecidableEq, Repr

/-- An analog signal as the binder sees it (43_binder.md R171). -/
structure AnalogView where
  name : Text
  size : Nat
  value : Word
deriving DecidableEq, Repr

/-- A digital signal as the binder sees it (43_binder.md R171); its size is 1. -/
structure DigitalView where
  name : Text
  value : Bool
deriving DecidableEq, Repr

/-- The signals of a frame with their current values, `view(d)` (43_binder.md R171). -/
structure View where
  analog : List AnalogView
  digital : List DigitalView
deriving DecidableEq, Repr

/-- A copy of a decoded frame (10_state.md R37, 43_binder.md R171). -/
structure Snapshot where
  name : Text
  syncPartner : Option Text
  view : View
deriving DecidableEq, Repr

/-- The synchronisation buffer: one slot (10_state.md R37). -/
inductive SyncBuf where
  | empty
  | full (frame : Snapshot)
deriving DecidableEq, Repr

/-- The binder (10_state.md R20): direction registry (R34), binding tables (R35), routing table (R36), synchronisation
buffer (R37). -/
structure Binder where
  dirReg : FMap Text Dir
  inBind : FMap Text Binding
  outBind : FMap Text Binding
  routing : FMap Text Int
  syncBuf : SyncBuf
deriving DecidableEq, Repr

/-- The binder after reset (10_state.md R41). -/
def Binder.empty : Binder := { dirReg := [], inBind := [], outBind := [], routing := [], syncBuf := .empty }

/-! ## Results and events (00_scope.md R15, 60_exceptions.md R190, R191, R193) -/

/-- An error event: its kind and the information recorded with it (60_exceptions.md R190). -/
inductive Report where
  /-- Kind 1, raised by LOAD. -/
  | schemaOverlap (busId : Word)
  /-- Kind 2, raised by LOAD. -/
  | schemaTooLarge (busId : Word)
  /-- Kind 3, raised by DECODE. -/
  | unknownFrameId (busId : Word)
  /-- Kind 3, raised by GET_TX and ENCODE. -/
  | unknownFrameName (name : Text)
  /-- Kind 4, raised by REGISTER. -/
  | duplicateFieldBinding (name : Text)
  /-- Kind 5, reported by XCHECK. -/
  | unmappedSignal (name : Text)
  /-- Kind 6, logged by MAP_IN and MAP_OUT. -/
  | mappingMiss (name : Text)
deriving DecidableEq, Repr

/-- The result of LOAD for one frame object (40_load.md R100). -/
inductive LoadResult where
  | ok
  | error (r : Report)
deriving DecidableEq, Repr

/-- The five outcomes of MAP_IN (43_binder.md R172). -/
inductive MapOutcome where
  | applied
  | buffered
  | appliedPair
  | duplicateDiscarded
  | replaced
deriving DecidableEq, Repr

/-- The result of an operation (00_scope.md R15, 30_encoding.md R88). -/
inductive OpResult where
  /-- `Ok` without data: LOAD_INIT, BLOAD, MAP_OUT. -/
  | ok
  /-- LOAD: one result per frame object. -/
  | loaded (results : List LoadResult)
  /-- INIT_FRAMES: the list. -/
  | initFrames (frames : List RawFrame)
  /-- DECODE, GET_TX: the decoded frame. -/
  | frame (handle : Handle)
  /-- ENCODE: the raw frame. -/
  | raw (frame : RawFrame)
  /-- REGISTER: the diagnostic mapping (43_binder.md R169). -/
  | diag (mapping : FMap Text Bool)
  /-- XCHECK: the names with an `UnmappedSignal` report, in the map's order. -/
  | unmapped (names : List Text)
  /-- MAP_IN: its outcome. -/
  | mapped (outcome : MapOutcome)
  /-- ROUTE: the routing table. -/
  | routing (table : FMap Text Int)
  /-- The operation ended with an error kind. -/
  | error (r : Report)
deriving DecidableEq, Repr

/-- The two phases (60_exceptions.md R204). -/
inductive Phase where
  | load
  | run
deriving DecidableEq, Repr

/-! ## The state -/

/-- The state. The block's own: `codecs`, `binder` (10_state.md R20). The platform's: `fieldMem` (R38), `log` (R42). The
model's: `cfg` (log 3), `result` (log 6), `phase` (log 7), `pending` (log 2). -/
structure State where
  cfg : Config
  codecs : FMap Int Codec
  binder : Binder
  fieldMem : Memory
  log : List Report
  result : Option OpResult
  phase : Phase
  pending : List Input
deriving DecidableEq, Repr

/-- The state after the creation of a block with parameters `c` over a platform memory `image`: every table and list
empty, the buffer empty, field memory untouched, the load phase (10_state.md R41, 70_reset_and_hazards.md R220). -/
def State.resetWith (c : Config) (image : Memory) : State :=
  { cfg := c, codecs := c.buses.map fun b => (b, Codec.empty), binder := Binder.empty, fieldMem := image, log := [],
    result := none, phase := .load, pending := [] }

/-- The machine right after reset, with the parameters of log 3 and a field memory that lists nothing (log 4). -/
def State.reset : State := State.resetWith Config.default []

/-! ## The reasons a step can stop -/

/-- Faults. -/
inductive Fault where
  /-- An access to a byte that is not in `FIELD_MEM` (00_scope.md R10: its address type and size are parameters). Raised by MAP_IN and
  MAP_OUT on a field that reaches outside the memory, and by a platform write outside it. Safe: the model stops where the
  spec gives no such byte (log 13). -/
  | noSuchFieldAddress (addr : Nat)
deriving DecidableEq, Repr

/-- Options of the block (00_scope.md R2). -/
inductive UnitOption where
  | ser
  | bind
deriving DecidableEq, Repr

/-- Refusals (00_scope.md R18, 60_exceptions.md R201): the spec gives the situation no meaning. All are safe: the model
answers nothing where the spec says a model must not compute a result. -/
inductive Refusal where
  /-- An operation the model gives no meaning; no operation of this model raises it. Safe. -/
  | notModelled (mnemonic : String)
  /-- The command is no operation (30_encoding.md R89; 40_load.md R102, R110). Raised by `step`. Safe. -/
  | undecodable (why : Reject)
  /-- A second operation during the first (00_scope.md R9, U1). Raised by `step`. Safe. -/
  | concurrentCall
  /-- The operation's option is not present (30_encoding.md R89). Raised by GET_TX, ENCODE and the binder's operations.
  Safe. -/
  | optionAbsent (o : UnitOption)
  /-- A load operation in the run phase (60_exceptions.md R204). Raised by LOAD, LOAD_INIT, BLOAD, REGISTER. Safe. -/
  | runPhase
  /-- No codec serves that bus (00_scope.md R3; log 19). Raised by the codec's operations. Safe. -/
  | noSuchCodec (bus : Int)
  /-- A malformed source (40_load.md R102, R110). Raised by LOAD, LOAD_INIT. Safe. -/
  | malformedSource
  /-- A name with two directions, or an outbound frame name on two buses (43_binder.md R162). Raised by BLOAD. Safe. -/
  | conflictingName (name : Text)
  /-- An identifier wider than `ID_W` is no raw frame's (30_encoding.md R70; log 10). Raised by DECODE. Safe. -/
  | malformedFrame
  /-- The handle names no live entry (30_encoding.md R81; log 11). Raised by MAP_IN, MAP_OUT. Safe. -/
  | noLiveFrame (h : Handle)
  /-- The copy is wider than the bound field (43_binder.md R179). Raised by MAP_IN, MAP_OUT. Safe. -/
  | fieldTooNarrow (name : Text)
deriving DecidableEq, Repr

end Sys2Proof.Machine
end

