-- ==== Sys2Proof/Machine/Ops.lean ====
section
/-! DEFINITION. The named operations over maps, field memory, tables and value registers, the delivery of results and
events, and raising an error kind, this block's one form of an exception (60_exceptions.md R191, R198). -/

namespace Sys2Proof.Machine

open Sys2Proof

/-! ## Maps (00_scope.md R13) -/

/-- `T[k]`: the entry at a key, if there is one. -/
def FMap.get? {K V : Type} [DecidableEq K] (m : FMap K V) (k : K) : Option V :=
  match m with
  | [] => none
  | (j, v) :: rest => if j = k then some v else FMap.get? rest k

/-- `T[k] <- e`: inserts or replaces, keeping keys rising. -/
def FMap.insert {K V : Type} [DecidableEq K] [LT K] [DecidableLT K] (m : FMap K V) (k : K) (v : V) : FMap K V :=
  match m with
  | [] => [(k, v)]
  | (j, w) :: rest =>
    if j = k then (k, v) :: rest
    else if k < j then (k, v) :: (j, w) :: rest
    else (j, w) :: FMap.insert rest k v

/-! ## Field memory (00_scope.md R14, 20_memory.md R56) -/

/-- One byte of field memory. -/
def Memory.read (m : Memory) (a : Nat) : Byte :=
  match m with
  | [] => unlistedByte
  | (b, v) :: rest => if b = a then v else Memory.read rest a

/-- The memory without an entry at an address. -/
def Memory.erase (m : Memory) (a : Nat) : Memory :=
  match m with
  | [] => []
  | (b, v) :: rest => if b = a then rest else (b, v) :: Memory.erase rest a

/-- The memory with an entry at an address, addresses rising. -/
def Memory.place (m : Memory) (a : Nat) (v : Byte) : Memory :=
  match m with
  | [] => [(a, v)]
  | (b, w) :: rest =>
    if b = a then (a, v) :: rest
    else if a < b then (a, v) :: (b, w) :: rest
    else (b, w) :: Memory.place rest a v

/-- Writes one byte; the unlisted byte is written by listing nothing. -/
def Memory.write (m : Memory) (a : Nat) (v : Byte) : Memory :=
  if v = unlistedByte then m.erase a else m.place a v

/-- `MemWrite(addr, n, v)`: byte `k` of `v` goes to `addr + k` (00_scope.md R14). -/
def memWrite (m : Memory) (addr : Nat) (n : Nat) (v : Word) : Memory :=
  match n with
  | 0 => m
  | n + 1 => memWrite (m.write addr (v.setWidth 8)) (addr + 1) n (v >>> 8)

/-- `MemRead(addr, n)`: `n` bytes, the one at `addr` least significant (00_scope.md R14); `n` is at most 8. -/
def memRead (m : Memory) (addr : Nat) (n : Nat) : Word :=
  match n with
  | 0 => 0
  | n + 1 => (m.read addr).setWidth 64 ||| (memRead m (addr + 1) n <<< 8)

/-- Writes bytes one after another, as the platform does (log 15). -/
def writeBytes (m : Memory) (addr : Nat) (bs : List Byte) : Memory :=
  match bs with
  | [] => m
  | b :: rest => writeBytes (m.write addr b) (addr + 1) rest

/-- The platform writes bytes of its field memory (10_state.md R38; log 15). A byte outside it does not exist (log 13). -/
def platformWrite (addr : Nat) (bytes : List Byte) (s : State) : Host.Outcome State Fault Refusal :=
  if s.cfg.hasBytes addr bytes.length then .next { s with fieldMem := writeBytes s.fieldMem addr bytes }
  else .fault (.noSuchFieldAddress addr)

/-! ## Codecs and live entries (10_state.md R20, 30_encoding.md R81) -/

/-- The codec of a bus (00_scope.md R3). -/
def State.codec? (s : State) (bus : Int) : Option Codec := s.codecs.get? bus

/-- Puts a codec's new state in place. -/
def State.setCodec (s : State) (bus : Int) (c : Codec) : State := { s with codecs := s.codecs.insert bus c }

/-- The entry a key names in a codec. -/
def Codec.frame? (c : Codec) : FrameKey → Option FrameEntry
  | .inbound id => c.inTable.get? id
  | .outbound n => c.outTable.get? n

/-- Puts an entry in place under a key. -/
def Codec.setFrame (c : Codec) (k : FrameKey) (f : FrameEntry) : Codec :=
  match k with
  | .inbound id => { c with inTable := c.inTable.insert id f }
  | .outbound n => { c with outTable := c.outTable.insert n f }

/-- The live entry a handle names. -/
def State.frame? (s : State) (h : Handle) : Option FrameEntry :=
  match s.codec? h.bus with
  | some c => c.frame? h.key
  | none => none

/-- Puts a live entry in place under its handle. -/
def State.setFrame (s : State) (h : Handle) (f : FrameEntry) : State :=
  match s.codec? h.bus with
  | some c => s.setCodec h.bus (c.setFrame h.key f)
  | none => s

/-- An entry of zeros under a key: no signals, so one byte long (10_state.md R27). -/
def zeroEntry : FrameKey → FrameEntry
  | .inbound id => { name := [], busId := id, extended := false, syncPartner := none, byteLength := 1,
                     direction := .input, an := [], dg := [] }
  | .outbound n => { name := n, busId := 0, extended := false, syncPartner := none, byteLength := 1,
                     direction := .output, an := [], dg := [] }

/-- Sets up the live entry that a command's operand of zeros names, where there is none: an operation on a decoded frame
runs only on a live entry (log 2). -/
def State.withOperandFrame (s : State) (o : Operand) : State :=
  match o with
  | .frame h => match s.frame? h with
    | some _ => s
    | none => s.setFrame h (zeroEntry h.key)
  | _ => s

/-! ## Results, events, phase (00_scope.md R15; 60_exceptions.md R191, R193, R204) -/

/-- Ends an operation with a result. -/
def State.deliver (s : State) (r : OpResult) : State := { s with result := some r }

/-- Appends events to the log, in order (60_exceptions.md R193). -/
def State.record (s : State) (rs : List Report) : State := { s with log := s.log ++ rs }

/-- `raise K(info)`: ends the operation with an error kind, which is logged too (60_exceptions.md R191). Nothing is
saved, no mode changes, control goes nowhere (R198), and there is no return operation (R199): the next operation
proceeds. This is the block's one form of taking an exception. -/
def State.raise (s : State) (r : Report) : State := (s.record [r]).deliver (.error r)

/-- A run operation begins the run phase, which never ends (60_exceptions.md R204; log 7). -/
def State.enterRun (s : State) : State := { s with phase := .run }

/-! ## Value registers (10_state.md R25) -/

/-- Every value register of an entry takes its field of the message (41_decode.md R120, R124). -/
def FrameEntry.decoded (f : FrameEntry) (m : Word) : FrameEntry :=
  { f with
    an := f.an.map fun g => { g with value := analogValue m g.startBit g.size g.inverted }
    dg := f.dg.map fun g => { g with value := digitalValue m g.startBit } }

/-- The accumulator of an entry: the OR of what its signals contribute, from 0 (42_encode.md R144). -/
def FrameEntry.accumulator (f : FrameEntry) : Word :=
  f.dg.foldl (fun acc g => acc ||| digitalInsert g.value g.startBit)
    (f.an.foldl (fun acc g => acc ||| analogInsert g.value g.startBit g.size g.inverted) 0)

/-- The signals of a frame with their current values (43_binder.md R171). -/
def FrameEntry.view (f : FrameEntry) : View :=
  { analog := f.an.map fun g => { name := g.name, size := g.size, value := g.value }
    digital := f.dg.map fun g => { name := g.name, value := g.value } }

/-- A copy of a frame that later operations do not change (43_binder.md R171). -/
def FrameEntry.snapshot (f : FrameEntry) : Snapshot :=
  { name := f.name, syncPartner := f.syncPartner, view := f.view }

/-! ## Field accesses (43_binder.md R176, R180) -/

/-- One copy between a value register and a field: the field's address, the number of bytes, the value. -/
structure FieldAccess where
  addr : Nat
  count : Nat
  value : Word
deriving DecidableEq, Repr

/-- The access of a bound analog signal: `ceil8(size)` bytes (43_binder.md R176). -/
def analogAccess (b : FMap Text Binding) (v : AnalogView) : Option FieldAccess :=
  match b.get? v.name with
  | some bd => some { addr := bd.addr, count := ceil8 v.size, value := v.value }
  | none => none

/-- The access of a bound digital signal: one byte, 1 or 0 (43_binder.md R176; decision D30). -/
def digitalAccess (b : FMap Text Binding) (v : DigitalView) : Option FieldAccess :=
  match b.get? v.name with
  | some bd => some { addr := bd.addr, count := 1, value := if v.value then 1 else 0 }
  | none => none

/-- The accesses of a frame's bound signals, analog ones first. -/
def accessesOf (b : FMap Text Binding) (v : View) : List FieldAccess :=
  v.analog.filterMap (analogAccess b) ++ v.digital.filterMap (digitalAccess b)

/-- The `MappingMiss` events of a frame's unbound signals, analog ones first (43_binder.md R177, R182). -/
def missesOf (b : FMap Text Binding) (v : View) : List Report :=
  (v.analog.filter fun g => (b.get? g.name).isNone).map (fun g => .mappingMiss g.name) ++
    (v.digital.filter fun g => (b.get? g.name).isNone).map (fun g => .mappingMiss g.name)

/-- The first bound analog signal whose copy is wider than its field (43_binder.md R179). -/
def tooWide (b : FMap Text Binding) (v : View) : Option Text :=
  (v.analog.find? fun g =>
    match b.get? g.name with
    | some bd => decide (bd.bytes < ceil8 g.size)
    | none => false).map AnalogView.name

/-- The first access that leaves the field memory (log 13). -/
def outsideMemory (c : Config) (as : List FieldAccess) : Option FieldAccess :=
  as.find? fun a => !c.hasBytes a.addr a.count

/-- Performs the accesses as writes, in order (43_binder.md R176). -/
def applyAccesses (m : Memory) (as : List FieldAccess) : Memory :=
  as.foldl (fun m a => memWrite m a.addr a.count a.value) m

/-- `Apply` on views, one after another (43_binder.md R176, R177, R173). Refused where a copy is wider than its field
(R179), before anything is written (log 20). -/
def applyViews (s : State) (vs : List View) : Host.Outcome State Fault Refusal :=
  match vs.findSome? (tooWide s.binder.inBind) with
  | some n => .refused (.fieldTooNarrow n)
  | none =>
    match outsideMemory s.cfg (vs.flatMap (accessesOf s.binder.inBind)) with
    | some a => .fault (.noSuchFieldAddress a.addr)
    | none =>
      .next { s with
        fieldMem := applyAccesses s.fieldMem (vs.flatMap (accessesOf s.binder.inBind))
        log := s.log ++ vs.flatMap (missesOf s.binder.inBind) }

/-- The registers of a frame after MAP_OUT (43_binder.md R180, R181, R183): a bound analog signal takes the field's
bytes into its low bytes, a bound digital one whether the field's first byte is not zero. -/
def FrameEntry.loadedFrom (f : FrameEntry) (b : FMap Text Binding) (m : Memory) : FrameEntry :=
  { f with
    an := f.an.map fun g =>
      match b.get? g.name with
      | some bd => { g with value := replaceLow g.value (ceil8 g.size) (memRead m bd.addr (ceil8 g.size)) }
      | none => g
    dg := f.dg.map fun g =>
      match b.get? g.name with
      | some bd => { g with value := decide (memRead m bd.addr 1 ≠ 0) }
      | none => g }

end Sys2Proof.Machine
end

