-- ==== Sys2Proof/Machine/Binder.lean ====
section
/-! DEFINITION. The binder's operations BLOAD, REGISTER, XCHECK, MAP_IN, MAP_OUT and ROUTE (43_binder.md), option
BIND. -/

namespace Sys2Proof.Machine

open Sys2Proof

/-! ## BLOAD -/

/-- `m[k] <- v`, unless the key stands with another entry: which one would stand is not said, and the source is malformed
(43_binder.md R162). -/
def FMap.agree {K V : Type} [DecidableEq K] [LT K] [DecidableLT K] [DecidableEq V] (m : FMap K V) (k : K) (v : V) :
    Option (FMap K V) :=
  match m.get? k with
  | none => some (m.insert k v)
  | some w => if w = v then some m else none

/-- The direction a frame gives its signals (43_binder.md R160). -/
def routeDir (d : RouteDesc) : Dir :=
  match d.route with
  | .inbound => .input
  | .outbound _ => .output

/-- Records the direction of signal names, in order; the name that conflicts, if one does. -/
def recordDirs (dir : Dir) (r : FMap Text Dir) : List Text → Except Text (FMap Text Dir)
  | [] => .ok r
  | n :: ns =>
    match r.agree n dir with
    | some r' => recordDirs dir r' ns
    | none => .error n

/-- Records the bus of an outbound frame. -/
def recordRoute (bus : Int) (r : FMap Text Int) : Route → Except Text (FMap Text Int)
  | .inbound => .ok r
  | .outbound n =>
    match r.agree n bus with
    | some r' => .ok r'
    | none => .error n

/-- One frame object (43_binder.md R160). -/
def recordFrame (bus : Int) (b : Binder) (d : RouteDesc) : Except Text Binder :=
  match recordRoute bus b.routing d.route with
  | .error n => .error n
  | .ok routing =>
    match recordDirs (routeDir d) b.dirReg (d.analog ++ d.digital) with
    | .error n => .error n
    | .ok dirReg => .ok { b with routing := routing, dirReg := dirReg }

/-- Frame objects of one bus, in order. -/
def recordFrames (bus : Int) (b : Binder) : List RouteDesc → Except Text Binder
  | [] => .ok b
  | d :: ds =>
    match recordFrame bus b d with
    | .error n => .error n
    | .ok b' => recordFrames bus b' ds

/-- The sources of all buses, in order. -/
def recordSources (b : Binder) : List (Int × List RouteDesc) → Except Text Binder
  | [] => .ok b
  | p :: ps =>
    match recordFrames p.1 b p.2 with
    | .error n => .error n
    | .ok b' => recordSources b' ps

/-- BLOAD (43_binder.md R160 to R162). DESIGN CHOICE (log 28): a bus index is recorded as it comes, whether or not a codec
serves that bus, and the sources need not name every bus. -/
def execBload (srcs : List (Int × List RouteDesc)) (s : State) : Host.Outcome State Fault Refusal :=
  if s.cfg.bind then
    if s.phase = .run then .refused .runPhase
    else
      match recordSources s.binder srcs with
      | .error n => .refused (.conflictingName n)
      | .ok b => .next ({ s with binder := b }.deliver .ok)
  else .refused (.optionAbsent .bind)

/-! ## REGISTER and XCHECK -/

/-- A name is a key of a binding table. -/
def Binder.bound (b : Binder) (n : Text) : Bool := (b.inBind.get? n).isSome || (b.outBind.get? n).isSome

/-- Binds a leaf in the table of its direction (43_binder.md R165). -/
def Binder.bindLeaf (b : Binder) (dir : Dir) (l : Leaf) : Binder :=
  match dir with
  | .input => { b with inBind := b.inBind.insert l.name { addr := l.addr, bytes := l.bytes, kind := l.kind } }
  | .output => { b with outBind := b.outBind.insert l.name { addr := l.addr, bytes := l.bytes, kind := l.kind } }

/-- The walk over the leaves (43_binder.md R165 to R168): the binder after it, and the duplicate that ended it, if one
did. -/
def registerLeaves (b : Binder) : List Leaf → Binder × Option Text
  | [] => (b, none)
  | l :: ls =>
    match b.dirReg.get? l.name with
    | none => registerLeaves b ls
    | some dir => if b.bound l.name then (b, some l.name) else registerLeaves (b.bindLeaf dir l) ls

/-- `Diag()` (43_binder.md R169). -/
def Binder.diag (b : Binder) : FMap Text Bool := b.dirReg.map fun p => (p.1, b.bound p.1)

/-- The names XCHECK reports (43_binder.md R170). -/
def Binder.unmapped (b : Binder) : List Text := (b.dirReg.map Prod.fst).filter fun n => !b.bound n

/-- REGISTER (43_binder.md R165 to R169). Every leaf goes by its name alone; its address, width and kind are bound as they come
(log 12). -/
def execRegister (leaves : List Leaf) (s : State) : Host.Outcome State Fault Refusal :=
  if s.cfg.bind then
    if s.phase = .run then .refused .runPhase
    else
      match registerLeaves s.binder leaves with
      | (b, none) => .next ({ s with binder := b }.deliver (.diag b.diag))
      | (b, some n) => .next ({ s with binder := b }.raise (.duplicateFieldBinding n))
  else .refused (.optionAbsent .bind)

/-- XCHECK (43_binder.md R170): each report is logged too. -/
def execXcheck (s : State) : Host.Outcome State Fault Refusal :=
  if s.cfg.bind then
    .next ((s.record (s.binder.unmapped.map .unmappedSignal)).deliver (.unmapped s.binder.unmapped))
  else .refused (.optionAbsent .bind)

/-! ## MAP_IN and MAP_OUT -/

/-- Leaves the synchronisation buffer in a state and ends MAP_IN with an outcome. -/
def State.endMapIn (s : State) (buf : SyncBuf) (o : MapOutcome) : State :=
  { s with binder := { s.binder with syncBuf := buf } }.deliver (.mapped o)

/-- Applies views, then ends MAP_IN (43_binder.md R172). -/
def applyThenEnd (s : State) (vs : List View) (buf : SyncBuf) (o : MapOutcome) : Host.Outcome State Fault Refusal :=
  match applyViews s vs with
  | .next t => .next (t.endMapIn buf o)
  | .fault r => .fault r
  | .refused r => .refused r

/-- MAP_IN's decision tree on a live entry (43_binder.md R172, R175), the four tests in their order. -/
def mapInFrame (f : FrameEntry) (s : State) : Host.Outcome State Fault Refusal :=
  match f.syncPartner with
  | none => applyThenEnd s [f.view] s.binder.syncBuf .applied
  | some p =>
    match s.binder.syncBuf with
    | .empty => .next (s.endMapIn (.full f.snapshot) .buffered)
    | .full b =>
      if b.name = p then applyThenEnd s [b.view, f.view] .empty .appliedPair
      else if b.name = f.name then .next (s.endMapIn (.full b) .duplicateDiscarded)
      else .next (s.endMapIn (.full f.snapshot) .replaced)

/-- MAP_IN (43_binder.md R171 to R179). No direction is checked (R171). -/
def execMapIn (h : Handle) (s : State) : Host.Outcome State Fault Refusal :=
  if s.cfg.bind then
    match s.frame? h with
    | none => .refused (.noLiveFrame h)
    | some f => mapInFrame f s.enterRun
  else .refused (.optionAbsent .bind)

/-- MAP_OUT on a live entry (43_binder.md R180 to R183). -/
def mapOutFrame (h : Handle) (f : FrameEntry) (s : State) : Host.Outcome State Fault Refusal :=
  match tooWide s.binder.outBind f.view with
  | some n => .refused (.fieldTooNarrow n)
  | none =>
    match outsideMemory s.cfg (accessesOf s.binder.outBind f.view) with
    | some a => .fault (.noSuchFieldAddress a.addr)
    | none =>
      .next (((s.setFrame h (f.loadedFrom s.binder.outBind s.fieldMem)).record
        (missesOf s.binder.outBind f.view)).deliver .ok)

/-- MAP_OUT (43_binder.md R180 to R183). No direction is checked (R171). -/
def execMapOut (h : Handle) (s : State) : Host.Outcome State Fault Refusal :=
  if s.cfg.bind then
    match s.frame? h with
    | none => .refused (.noLiveFrame h)
    | some f => mapOutFrame h f s.enterRun
  else .refused (.optionAbsent .bind)

/-! ## ROUTE -/

/-- ROUTE (43_binder.md R185). -/
def execRoute (s : State) : Host.Outcome State Fault Refusal :=
  if s.cfg.bind then .next (s.deliver (.routing s.binder.routing)) else .refused (.optionAbsent .bind)

end Sys2Proof.Machine
end

