-- ==== Sys2Proof/Machine/Deserializer.lean ====
section
/-! DEFINITION. The deserializer's operation DECODE (41_decode.md). -/

namespace Sys2Proof.Machine

open Sys2Proof

/-- DECODE (41_decode.md R120 to R130). The key is the whole identifier (R121); `length` and `extended` are not read
(R121, R123). -/
def execDecode (bus : Int) (raw : RawFrame) (s : State) : Host.Outcome State Fault Refusal :=
  match s.codec? bus with
  | none => .refused (.noSuchCodec bus)
  | some c =>
    if idFits s.cfg raw.busId then
      match c.inTable.get? raw.busId with
      | none => .next (s.enterRun.raise (.unknownFrameId raw.busId))
      | some f =>
        .next (((s.enterRun).setCodec bus
          (c.setFrame (.inbound raw.busId) (f.decoded (message raw.payload)))).deliver
            (.frame { bus := bus, key := .inbound raw.busId }))
    else .refused .malformedFrame

end Sys2Proof.Machine
end

