-- ==== Sys2Proof/Machine/Flags.lean ====
section
/-! DEFINITION. The block has no flags (10_state.md R33). What stands in their place is the code of an outcome
(60_exceptions.md R190): 0 for `Ok`, 1 to 6 for the six error kinds. -/

namespace Sys2Proof.Machine

open Sys2Proof

/-- The code of an error kind (60_exceptions.md R190). -/
def Report.code : Report → Nat
  | .schemaOverlap _ => 1
  | .schemaTooLarge _ => 2
  | .unknownFrameId _ => 3
  | .unknownFrameName _ => 3
  | .duplicateFieldBinding _ => 4
  | .unmappedSignal _ => 5
  | .mappingMiss _ => 6

/-- The code of LOAD's result for one frame object. -/
def LoadResult.code : LoadResult → Nat
  | .ok => 0
  | .error r => r.code

/-- The code of an operation's result: only an error result has a code other than 0 (60_exceptions.md R191). -/
def OpResult.code : OpResult → Nat
  | .ok => 0
  | .loaded _ => 0
  | .initFrames _ => 0
  | .frame _ => 0
  | .raw _ => 0
  | .diag _ => 0
  | .unmapped _ => 0
  | .mapped _ => 0
  | .routing _ => 0
  | .error r => r.code

/-- The events that LOAD's results log (60_exceptions.md R191). -/
def LoadResult.reports : LoadResult → List Report
  | .ok => []
  | .error r => [r]

end Sys2Proof.Machine
end

