-- ==== Sys2Proof/Machine/Loader.lean ====
section
/-! DEFINITION. The configuration operations LOAD, LOAD_INIT and INIT_FRAMES (40_load.md). -/

namespace Sys2Proof.Machine

open Sys2Proof

/-- The entry of a frame object, every value register 0 (40_load.md R106, R109). -/
def loadedEntry (d : FrameDesc) : FrameEntry :=
  { name := d.name, busId := d.busId, extended := d.extended, syncPartner := d.syncPartner,
    byteLength := highestBit d.claims / 8 + 1, direction := d.direction,
    an := d.analog.map fun a =>
      { name := a.name, startBit := a.startBit, size := a.size, inverted := a.inverted, value := 0 }
    dg := d.digital.map fun g => { name := g.name, startBit := g.startBit, value := false } }

/-- The overlap test, then the size test (40_load.md R104 to R107). -/
def frameDefect (d : FrameDesc) : Option Report :=
  if claimsOverlap [] d.claims then some (.schemaOverlap d.busId)
  else if 63 < highestBit d.claims then some (.schemaTooLarge d.busId)
  else none

/-- An entry of the frame's table already has its key (40_load.md R102). -/
def Codec.holdsKey (c : Codec) (d : FrameDesc) : Bool :=
  match d.direction with
  | .input => (c.inTable.get? d.busId).isSome
  | .output => (c.outTable.get? d.name).isSome

/-- Inserts an entry into the table of its direction (40_load.md R109). -/
def Codec.insertEntry (c : Codec) (f : FrameEntry) : Codec :=
  match f.direction with
  | .input => { c with inTable := c.inTable.insert f.busId f }
  | .output => { c with outTable := c.outTable.insert f.name f }

/-- `LoadFrame` on every frame object, in order (40_load.md R100, R108). `none` where a frame repeats the key of a frame
loaded before it: the whole source is malformed (R102; log 23). -/
def loadFrames (c : Codec) : List FrameDesc → Option (Codec × List LoadResult)
  | [] => some (c, [])
  | d :: ds =>
    if c.holdsKey d then none
    else
      match frameDefect d with
      | some r =>
        match loadFrames c ds with
        | some (c', rs) => some (c', .error r :: rs)
        | none => none
      | none =>
        match loadFrames (c.insertEntry (loadedEntry d)) ds with
        | some (c', rs) => some (c', .ok :: rs)
        | none => none

/-- LOAD (40_load.md R100 to R109). -/
def execLoad (bus : Int) (src : List FrameDesc) (s : State) : Host.Outcome State Fault Refusal :=
  if s.phase = .run then .refused .runPhase
  else
    match s.codec? bus with
    | none => .refused (.noSuchCodec bus)
    | some c =>
      if src.all fun d => d.wf && idFits s.cfg d.busId then
        match loadFrames c src with
        | none => .refused .malformedSource
        | some (c', rs) =>
          .next (((s.setCodec bus c').record (rs.flatMap LoadResult.reports)).deliver (.loaded rs))
      else .refused .malformedSource

/-- LOAD_INIT (40_load.md R110): the objects of this bus, in source order. -/
def execLoadInit (bus : Int) (src : List InitDesc) (s : State) : Host.Outcome State Fault Refusal :=
  if s.phase = .run then .refused .runPhase
  else
    match s.codec? bus with
    | none => .refused (.noSuchCodec bus)
    | some c =>
      if src.all fun d => d.wf && idFits s.cfg d.busId then
        .next ((s.setCodec bus { c with
          initList := (src.filter fun d => decide (d.canBus = bus)).map InitDesc.rawFrame }).deliver .ok)
      else .refused .malformedSource

/-- INIT_FRAMES (40_load.md R112). -/
def execInitFrames (bus : Int) (s : State) : Host.Outcome State Fault Refusal :=
  match s.codec? bus with
  | none => .refused (.noSuchCodec bus)
  | some c => .next (s.deliver (.initFrames c.initList))

end Sys2Proof.Machine
end

