-- ==== Sys2Proof/Machine/Serializer.lean ====
section
/-! DEFINITION. The serializer's operations GET_TX and ENCODE (42_encode.md), option SER. -/

namespace Sys2Proof.Machine

open Sys2Proof

/-- The raw frame of an outbound entry (42_encode.md R141, R143, R148). -/
def FrameEntry.encoded (f : FrameEntry) (effBit : Nat) : RawFrame :=
  { busId := markedId effBit f.busId f.extended, extended := f.extended, length := Fin.ofNat 9 f.byteLength,
    payload := payloadOf f.accumulator f.byteLength }

/-- GET_TX (42_encode.md R140, R142). -/
def execGetTx (bus : Int) (n : Text) (s : State) : Host.Outcome State Fault Refusal :=
  if s.cfg.ser then
    match s.codec? bus with
    | none => .refused (.noSuchCodec bus)
    | some c =>
      match c.outTable.get? n with
      | none => .next (s.enterRun.raise (.unknownFrameName n))
      | some _ => .next (s.enterRun.deliver (.frame { bus := bus, key := .outbound n }))
  else .refused (.optionAbsent .ser)

/-- ENCODE (42_encode.md R141 to R149). -/
def execEncode (bus : Int) (n : Text) (s : State) : Host.Outcome State Fault Refusal :=
  if s.cfg.ser then
    match s.codec? bus with
    | none => .refused (.noSuchCodec bus)
    | some c =>
      match c.outTable.get? n with
      | none => .next (s.enterRun.raise (.unknownFrameName n))
      | some f => .next (s.enterRun.deliver (.raw (f.encoded s.cfg.effBit)))
  else .refused (.optionAbsent .ser)

end Sys2Proof.Machine
end

