-- ==== Sys2Proof/Machine/Dispatch.lean ====
section
/-! DEFINITION. One arm per operation (30_encoding.md R88). -/

namespace Sys2Proof.Machine

open Sys2Proof

def exec (i : Instr) (s : State) : Host.Outcome State Fault Refusal :=
  match i with
  | .load bus src => Sys2Proof.Machine.execLoad bus src s
  | .loadInit bus src => Sys2Proof.Machine.execLoadInit bus src s
  | .initFrames bus => Sys2Proof.Machine.execInitFrames bus s
  | .decode bus raw => Sys2Proof.Machine.execDecode bus raw s
  | .getTx bus name => Sys2Proof.Machine.execGetTx bus name s
  | .encode bus name => Sys2Proof.Machine.execEncode bus name s
  | .bload srcs => Sys2Proof.Machine.execBload srcs s
  | .register leaves => Sys2Proof.Machine.execRegister leaves s
  | .xcheck => Sys2Proof.Machine.execXcheck s
  | .mapIn frame => Sys2Proof.Machine.execMapIn frame s
  | .mapOut frame => Sys2Proof.Machine.execMapOut frame s
  | .route => Sys2Proof.Machine.execRoute s

end Sys2Proof.Machine
end

