-- ==== Sys2Proof/Machine/Step.lean ====
section
/-! DEFINITION. One step: the next input happens (00_scope.md R8; log 2). -/

namespace Sys2Proof.Machine

open Sys2Proof

/-- One step of the machine. With no input pending the block waits and nothing changes (70_reset_and_hazards.md R220,
60_exceptions.md R195). -/
def step (s : State) : Host.Outcome State Fault Refusal :=
  match s.pending with
  | [] => .next s
  | .command c :: rest =>
    match decode c with
    | .ok i => exec i { s with pending := rest }
    | .error why => .refused (.undecodable why)
  | .platformWrite addr bytes :: rest => platformWrite addr bytes { s with pending := rest }
  | .overlapping _ _ :: _ => .refused .concurrentCall

/-- The state with the operation of a table word as the next input, its operand records zero; for MAP_IN and MAP_OUT,
whose operand is a live entry, with such an entry of zeros where none stands (log 2). -/
def State.withFetchWord (s : State) (_nbits w : Nat) : State :=
  { s.withOperandFrame (tableCommand w).operand with pending := .command (tableCommand w) :: s.pending }

end Sys2Proof.Machine
end

