-- ==== Sys2Proof/Safety.lean ====
section
/-! DEFINITION. What a safe state is: the invariants 10_state.md gives the tables, the parameters in their ranges, every map
and the memory in its one form. Statements about runs assume no more of a state than `State.Inv`. -/

namespace Sys2Proof.Machine

open Sys2Proof

/-- A loaded analog record (10_state.md R23). Its register holds no more than the bytes a field copy moves, which DECODE
and MAP_OUT keep (41_decode.md R129, 43_binder.md R181). -/
abbrev AnalogSig.wf (g : AnalogSig) : Prop :=
  1 ≤ g.size ∧ g.startBit + g.size ≤ 64 ∧ g.value.toNat < 2 ^ (8 * ceil8 g.size)

/-- The ranges of bits an entry's signals occupy. -/
def FrameEntry.ranges (f : FrameEntry) : List BitRange :=
  f.an.map (fun g => ⟨g.startBit, g.size⟩) ++ f.dg.map (fun g => ⟨g.startBit, 1⟩)

/-- The names of an entry's signals. -/
def FrameEntry.signalNames (f : FrameEntry) : List Text := f.an.map AnalogSig.name ++ f.dg.map DigitalSig.name

/-- A loaded entry (10_state.md R26, R27; 40_load.md R102): disjoint ranges below bit 64, signals named once, the derived
byte length, an identifier of `ID_W` bits. -/
abbrev FrameEntry.wf (c : Config) (f : FrameEntry) : Prop :=
  (∀ g ∈ f.an, g.wf) ∧ (∀ g ∈ f.dg, g.startBit ≤ 63) ∧ f.ranges.Pairwise (fun a b => a.meets b = false) ∧
    f.signalNames.Nodup ∧ f.byteLength = highestBit f.ranges / 8 + 1 ∧ f.busId.toNat < 2 ^ c.idW ∧
    f.syncPartner ≠ some ['n', 'o', 'n', 'e']

/-- A codec (10_state.md R28, R29, R31): every inbound entry stands under its identifier, every outbound one under its
name. -/
abbrev Codec.wf (c : Config) (k : Codec) : Prop :=
  FMap.wf k.inTable ∧ FMap.wf k.outTable ∧
    (∀ p ∈ k.inTable, p.2.busId = p.1 ∧ p.2.direction = .input ∧ p.2.wf c) ∧
    (∀ p ∈ k.outTable, p.2.name = p.1 ∧ p.2.direction = .output ∧ p.2.wf c) ∧
    (∀ r ∈ k.initList, r.busId.toNat < 2 ^ c.idW)

/-- A buffered frame (10_state.md R37): it has a partner, its signals have legal sizes and values. -/
def SyncBuf.wf : SyncBuf → Prop
  | .empty => True
  | .full b => b.syncPartner.isSome = true ∧
      ∀ v ∈ b.view.analog, 1 ≤ v.size ∧ v.size ≤ 64 ∧ v.value.toNat < 2 ^ (8 * ceil8 v.size)

/-- The binder (10_state.md R34 to R37). A name is bound in the table of its direction only, hence in one at most. -/
abbrev Binder.wf (b : Binder) : Prop :=
  FMap.wf b.dirReg ∧ FMap.wf b.inBind ∧ FMap.wf b.outBind ∧ FMap.wf b.routing ∧
    (∀ p ∈ b.inBind, b.dirReg.get? p.1 = some .input) ∧ (∀ p ∈ b.outBind, b.dirReg.get? p.1 = some .output) ∧
    b.syncBuf.wf

/-- The field memory in its one form, every listed byte in it. -/
abbrev Memory.inside (c : Config) (m : Memory) : Prop := Memory.wf m ∧ ∀ e ∈ m, c.hasByte e.1 = true

/-- A safe state. -/
def State.Inv (s : State) : Prop :=
  s.cfg.wf ∧ s.codecs.map Prod.fst = s.cfg.buses ∧ (∀ p ∈ s.codecs, p.2.wf s.cfg) ∧ s.binder.wf ∧
    Memory.inside s.cfg s.fieldMem

/-- The layout of an entry: everything but its value registers (10_state.md R30). -/
def FrameEntry.layout (f : FrameEntry) : FrameEntry :=
  { f with an := f.an.map fun g => { g with value := 0 }, dg := f.dg.map fun g => { g with value := false } }

/-- The layout of a codec. -/
def Codec.layout (k : Codec) : Codec :=
  { k with inTable := k.inTable.map fun p => (p.1, p.2.layout), outTable := k.outTable.map fun p => (p.1, p.2.layout) }

/-- The configuration of a state: what the run phase does not change (10_state.md R30, 20_memory.md R67). -/
structure Layout where
  cfg : Config
  codecs : FMap Int Codec
  dirReg : FMap Text Dir
  inBind : FMap Text Binding
  outBind : FMap Text Binding
  routing : FMap Text Int
deriving DecidableEq, Repr

/-- The configuration of a state. -/
def State.layout (s : State) : Layout :=
  { cfg := s.cfg, codecs := s.codecs.map fun p => (p.1, p.2.layout), dirReg := s.binder.dirReg,
    inBind := s.binder.inBind, outBind := s.binder.outBind, routing := s.binder.routing }

end Sys2Proof.Machine
end

