-- ==== Sys2Proof/Certificates/Slice0/Obligations.lean ====
section
/-! DEFINITION. The statements for the provers. First what they are stated in: the spec's own formulas, written in exact
arithmetic and in lookups, apart from the definitions the machine runs on. -/

open Sys2Proof Sys2Proof.Machine

namespace Sys2Proof.Spec

/-! ## Bits and bytes -/

/-- The message of a payload as a sum (20_memory.md R53). -/
def messageNat (p : Vector Byte 8) : Nat :=
  p[0].toNat + p[1].toNat * 2 ^ 8 + p[2].toNat * 2 ^ 16 + p[3].toNat * 2 ^ 24 + p[4].toNat * 2 ^ 32 +
    p[5].toNat * 2 ^ 40 + p[6].toNat * 2 ^ 48 + p[7].toNat * 2 ^ 56

/-- The reversal of the low `n` bytes of a number: the byte of weight `2^(8j)` goes to weight `2^(8(n-1-j))`
(41_decode.md R128). -/
def revBytes : Nat → Nat → Nat
  | 0, _ => 0
  | n + 1, v => (v % 256) * 2 ^ (8 * n) + revBytes n (v / 256)

/-- The value DECODE gives an analog signal (41_decode.md R126, R127): `div` and `mod`, then the eight-byte reversal and
`div`. -/
def analogNat (m a s : Nat) (inverted : Bool) : Nat :=
  if inverted then revBytes 8 (m / 2 ^ a % 2 ^ s) / 2 ^ (64 - s) else m / 2 ^ a % 2 ^ s

/-- The value DECODE gives a digital signal (41_decode.md R125). -/
def digitalBit (m a : Nat) : Bool := decide (m / 2 ^ a % 2 = 1)

/-- The number in `n` bytes of field memory, the one at `addr` least significant (00_scope.md R14). -/
def bytesNat (m : Memory) (addr : Nat) : Nat → Nat
  | 0 => 0
  | n + 1 => (m.read addr).toNat + 256 * bytesNat m (addr + 1) n

/-! ## Digits -/

/-- The character of a hexadecimal digit, in upper case where the flag says so. -/
def hexChar (d : Fin 16 × Bool) : Char :=
  (if d.2 then "0123456789ABCDEF".toList else "0123456789abcdef".toList).getD d.1.val '0'

/-- The number that digits of a base spell, the first most significant. -/
def numberOf (base : Nat) (ds : List Nat) : Nat := ds.foldl (fun acc d => acc * base + d) 0

/-! ## Source objects -/

/-- An optional member gives a value: its own, or the default where it is absent. -/
abbrev MemberOr {α : Type} (dflt : α) (m : Member α) (v : α) : Prop := m = .given v ∨ (m = .absent ∧ v = dflt)

/-- `IN/OUT Frame` gives a direction (30_encoding.md R77). -/
abbrev DirResolves (m : Member Text) (d : Dir) : Prop :=
  m = .given (match d with | .input => ['I', 'N'] | .output => ['O', 'U', 'T'])

/-- `Sync Frame` gives a partner (30_encoding.md R78): none where it is absent or the string `none`. -/
abbrev PartnerResolves (m : Member Text) (p : Option Text) : Prop :=
  match p with
  | none => m = .absent ∨ m = .given ['n', 'o', 'n', 'e']
  | some n => m = .given n ∧ n ≠ ['n', 'o', 'n', 'e']

/-- An analog entry gives a descriptor (30_encoding.md R74): integers that are not negative, `Byte Inverted` false where it is
absent. -/
abbrev AnalogResolves (o : AnalogObj) (d : AnalogDesc) : Prop :=
  o.name = .given d.name ∧ o.startBit = .given (d.startBit : Int) ∧ o.bitSize = .given (d.size : Int) ∧
    MemberOr false o.byteInverted d.inverted

/-- A digital entry gives a descriptor (30_encoding.md R75). -/
abbrev DigitalResolves (o : DigitalObj) (d : DigitalDesc) : Prop :=
  o.name = .given d.name ∧ o.startBit = .given (d.startBit : Int)

/-- `ID` gives an identifier (30_encoding.md R76). -/
abbrev IdResolves (m : Member Text) (w : Word) : Prop := ∃ t, m = .given t ∧ readId t = some w

/-- A frame object gives a descriptor (40_load.md R103, 30_encoding.md R73): `Extended ID` false where it is absent, an absent
array empty, the entries in source order. -/
abbrev FrameResolves (o : FrameObj) (d : FrameDesc) : Prop :=
  o.name = .given d.name ∧ IdResolves o.id d.busId ∧ MemberOr false o.extendedId d.extended ∧
    DirResolves o.inOut d.direction ∧ PartnerResolves o.syncFrame d.syncPartner ∧
    ∃ as gs, MemberOr [] o.analog as ∧ MemberOr [] o.digital gs ∧ List.Forall₂ AnalogResolves as d.analog ∧
      List.Forall₂ DigitalResolves gs d.digital

/-- An init object gives a descriptor (30_encoding.md R79, R80). -/
abbrev InitResolves (o : InitObj) (d : InitDesc) : Prop :=
  o.canBus = .given d.canBus ∧ IdResolves o.id d.busId ∧
    ∃ ls, o.data = .given ls ∧ List.Forall₂ (fun l b => readByte l = some b) ls d.data

/-- A frame object gives what BLOAD reads of it (43_binder.md R160; log 14): the name of an outbound frame only, and of a
signal entry its name only. -/
abbrev RouteResolves (o : FrameObj) (d : RouteDesc) : Prop :=
  (match d.route with
    | .inbound => DirResolves o.inOut .input
    | .outbound n => DirResolves o.inOut .output ∧ o.name = .given n) ∧
    ∃ as gs, MemberOr [] o.analog as ∧ MemberOr [] o.digital gs ∧
      List.Forall₂ (fun (e : AnalogObj) n => e.name = .given n) as d.analog ∧
      List.Forall₂ (fun (e : DigitalObj) n => e.name = .given n) gs d.digital

/-- The source of one bus gives what BLOAD reads of it. -/
abbrev BusResolves (p : Int × List FrameObj) (q : Int × List RouteDesc) : Prop :=
  p.1 = q.1 ∧ List.Forall₂ RouteResolves p.2 q.2

/-! ## Frame objects -/

/-- The bits a frame object's entries claim, as pairs of start and number, analog list first (40_load.md R104). -/
def claims (d : FrameDesc) : List (Nat × Nat) :=
  d.analog.map (fun a => (a.startBit, a.size)) ++ d.digital.map (fun g => (g.startBit, 1))

/-- A claim holds a bit. -/
abbrev ClaimsBit (r : Nat × Nat) (k : Nat) : Prop := r.1 ≤ k ∧ k < r.1 + r.2

/-- No bit is claimed by two entries. -/
def NoBitTwice (rs : List (Nat × Nat)) : Prop := rs.Pairwise fun a b => ∀ k, ¬ (ClaimsBit a k ∧ ClaimsBit b k)

/-- No claimed bit is above 63. -/
def Below64 (rs : List (Nat × Nat)) : Prop := ∀ r ∈ rs, ∀ k, ClaimsBit r k → k ≤ 63

/-- The highest claimed bit, 0 where there is none (10_state.md R27). -/
def highest (rs : List (Nat × Nat)) : Nat := (rs.map fun r => r.1 + r.2 - 1).foldr max 0

/-- A well-formed frame object (40_load.md R102, 30_encoding.md R76, R78), the conditions that need no table. -/
abbrev GoodFrame (c : Config) (d : FrameDesc) : Prop :=
  (∀ a ∈ d.analog, 1 ≤ a.size) ∧ (d.analog.map AnalogDesc.name ++ d.digital.map DigitalDesc.name).Nodup ∧
    d.busId.toNat < 2 ^ c.idW ∧ d.syncPartner ≠ some ['n', 'o', 'n', 'e']

/-- The errors among the results of LOAD, in order (40_load.md R108, 60_exceptions.md R191). -/
def errorsOf (rs : List LoadResult) : List Report :=
  rs.filterMap fun r => match r with | .ok => none | .error e => some e

/-- The handle under which a frame object is loaded (40_load.md R109). -/
def handleOf (bus : Int) (d : FrameDesc) : Handle :=
  match d.direction with
  | .input => { bus := bus, key := .inbound d.busId }
  | .output => { bus := bus, key := .outbound d.name }

/-- The entry a frame object is loaded as (40_load.md R109). -/
def entryOf (d : FrameDesc) : FrameEntry :=
  { name := d.name, busId := d.busId, extended := d.extended, syncPartner := d.syncPartner,
    byteLength := highest (claims d) / 8 + 1, direction := d.direction,
    an := d.analog.map fun a => ⟨a.name, a.startBit, a.size, a.inverted, 0⟩,
    dg := d.digital.map fun g => ⟨g.name, g.startBit, false⟩ }

/-! ## What stays -/

/-- The codec's tables and lists and the parameters stay as they are. -/
def KeepsCodecs (s t : State) : Prop := t.codecs = s.codecs ∧ t.cfg = s.cfg ∧ t.pending = s.pending

/-- The binder and the field memory, the parameters and the inputs to come stay as they are. -/
def KeepsBinder (s t : State) : Prop :=
  t.binder = s.binder ∧ t.fieldMem = s.fieldMem ∧ t.cfg = s.cfg ∧ t.pending = s.pending

/-- Every initialisation list stays as it is. -/
def KeepsInitLists (s t : State) : Prop :=
  ∀ b, (t.codec? b).map Codec.initList = (s.codec? b).map Codec.initList

/-! ## The binder -/

/-- The pairs of signal name and direction of the sources (43_binder.md R160). -/
def dirs (srcs : List (Int × List RouteDesc)) : List (Text × Dir) :=
  srcs.flatMap fun p => p.2.flatMap fun d =>
    (d.analog ++ d.digital).map fun n => (n, match d.route with | .inbound => Dir.input | .outbound _ => Dir.output)

/-- The pairs of outbound frame name and bus of the sources (43_binder.md R160). -/
def routes (srcs : List (Int × List RouteDesc)) : List (Text × Int) :=
  srcs.flatMap fun p => p.2.flatMap fun d => match d.route with | .inbound => [] | .outbound n => [(n, p.1)]

/-- No name has two values, among the pairs or against the table (43_binder.md R162). -/
def Agrees {V : Type} (m : FMap Text V) (l : List (Text × V)) : Prop :=
  (∀ p ∈ l, ∀ q ∈ l, p.1 = q.1 → p.2 = q.2) ∧ ∀ p ∈ l, ∀ v, m.get? p.1 = some v → v = p.2

/-- A leaf's name is in the direction registry. -/
abbrev Known (s : State) (l : Leaf) : Prop := s.binder.dirReg.get? l.name ≠ none

/-- `FIELD_MEM` has a byte at an address: one of its address type, in the range of its base and size (00_scope.md R10). -/
def HasByte (c : Config) (a : Nat) : Prop :=
  (∀ w, c.addrType = .bits w → a < 2 ^ w) ∧ c.fieldMemBase ≤ a ∧ a < c.fieldMemBase + c.fieldMemSize

/-- `FIELD_MEM` has the `n` bytes from an address on. -/
def HasBytes (c : Config) (addr n : Nat) : Prop := ∀ k, k < n → HasByte c (addr + k)

/-- Leaf tuples with their kind's width (10_state.md R35), in the field memory. REGISTER does not ask for it (log 12). -/
abbrev GoodLeaves (c : Config) (ls : List Leaf) : Prop := ∀ l ∈ ls, l.bytes = l.kind.bytes ∧ HasBytes c l.addr l.bytes

/-- Every bound field has its kind's width and lies in the field memory. -/
abbrev FieldsInMemory (s : State) : Prop :=
  ∀ n bd, (s.binder.inBind.get? n = some bd ∨ s.binder.outBind.get? n = some bd) →
    bd.bytes = bd.kind.bytes ∧ HasBytes s.cfg bd.addr bd.bytes

/-- The known leaves' names are bound nowhere yet and occur once. -/
abbrev FreshLeaves (s : State) (ls : List Leaf) : Prop :=
  (∀ l ∈ ls, Known s l → s.binder.inBind.get? l.name = none ∧ s.binder.outBind.get? l.name = none) ∧
    ls.Pairwise fun a b => Known s a → a.name ≠ b.name

/-- `Apply` of a view writes `n` bytes of `x` at `addr` (43_binder.md R176). -/
def Writes (b : FMap Text Binding) (v : View) (addr n : Nat) (x : Word) : Prop :=
  (∃ g ∈ v.analog, ∃ bd, b.get? g.name = some bd ∧ addr = bd.addr ∧ n = (g.size + 7) / 8 ∧ x = g.value) ∨
    ∃ g ∈ v.digital, ∃ bd, b.get? g.name = some bd ∧ addr = bd.addr ∧ n = 1 ∧ x = if g.value then 1 else 0

/-- `Apply` of a view does not write the byte at `a`. -/
def Spares (b : FMap Text Binding) (v : View) (a : Nat) : Prop :=
  ∀ addr n x, Writes b v addr n x → a < addr ∨ addr + n ≤ a

/-- Every copy of a view stays in the field memory: its bytes exist (00_scope.md R10; log 13). The same bytes are read where the
view is read back (43_binder.md R181). -/
def InMemory (c : Config) (b : FMap Text Binding) (v : View) : Prop :=
  ∀ addr n x, Writes b v addr n x → HasBytes c addr n

/-- The fault of a view's copy that leaves the field memory. -/
def LeavesMemory (c : Config) (b : FMap Text Binding) (v : View) (r : Fault) : Prop :=
  ∃ addr n x, Writes b v addr n x ∧ ¬ HasBytes c addr n ∧ r = .noSuchFieldAddress addr

/-- No copy of a view is wider than its field (43_binder.md R179). -/
def Narrow (b : FMap Text Binding) (v : View) : Prop :=
  ∀ g ∈ v.analog, ∀ bd, b.get? g.name = some bd → (g.size + 7) / 8 ≤ bd.bytes

/-- The `MappingMiss` events of a view, in order (43_binder.md R177). -/
def misses (b : FMap Text Binding) (v : View) : List Report :=
  ((v.analog.map AnalogView.name ++ v.digital.map DigitalView.name).filter fun n => (b.get? n).isNone).map .mappingMiss

/-- Bytes written by a view, each in a range no other write of the view meets. -/
def WrittenApart (b : FMap Text Binding) (v : View) (m : Memory) : Prop :=
  ∀ addr n x, Writes b v addr n x → n ≤ 8 →
    (∀ addr' n' x', Writes b v addr' n' x' → (addr', n', x') ≠ (addr, n, x) → addr' + n' ≤ addr ∨ addr + n ≤ addr') →
    ∀ k, k < n → m.read (addr + k) = BitVec.ofNat 8 (x.toNat / 2 ^ (8 * k))

/-- A buffered or live frame's view holds this frame entry's signals (43_binder.md R171). -/
def viewOf (f : FrameEntry) : View :=
  { analog := f.an.map fun g => ⟨g.name, g.size, g.value⟩, digital := f.dg.map fun g => ⟨g.name, g.value⟩ }

/-! ## Kinds of operations -/

/-- The codec a codec operation is on. -/
def codecOf : Instr → Option Int
  | .load bus _ => some bus
  | .loadInit bus _ => some bus
  | .initFrames bus => some bus
  | .decode bus _ => some bus
  | .getTx bus _ => some bus
  | .encode bus _ => some bus
  | .bload _ => none
  | .register _ => none
  | .xcheck => none
  | .mapIn _ => none
  | .mapOut _ => none
  | .route => none

/-- The load-phase operations (60_exceptions.md R204). -/
def isLoadOp : Instr → Bool
  | .load _ _ => true
  | .loadInit _ _ => true
  | .bload _ => true
  | .register _ => true
  | _ => false

/-- The run-phase operations (60_exceptions.md R204). -/
def isRunOp : Instr → Bool
  | .decode _ _ => true
  | .getTx _ _ => true
  | .encode _ _ => true
  | .mapIn _ => true
  | .mapOut _ => true
  | _ => false

/-- An inverted signal of a width that is not a multiple of 8 loses bits (41_decode.md R128); every other representable
value travels exactly. -/
abbrev Exact (g : AnalogSig) : Prop := g.value.toNat < 2 ^ g.size ∧ (g.inverted = true → g.size % 8 = 0)

/-- The layout of signals without their values. -/
abbrev sameSignals (f g : FrameEntry) : Prop :=
  f.an.map (fun a => (a.name, a.startBit, a.size, a.inverted)) = g.an.map (fun a => (a.name, a.startBit, a.size, a.inverted)) ∧
    f.dg.map (fun a => (a.name, a.startBit)) = g.dg.map (fun a => (a.name, a.startBit))

/-- The bit an analog signal contributes at position `q` (42_encode.md R145, R146). -/
def analogBitAt (g : AnalogSig) (q : Nat) : Bool :=
  decide (g.startBit ≤ q) && (if g.inverted then BitVec.ofNat 64 (revBytes 8 g.value.toNat / 2 ^ (64 - g.size)) else
    g.value).getLsbD (q - g.startBit)

end Sys2Proof.Spec

open Sys2Proof.Spec

/-! ## Decoding and stepping -/

/-- The twelve words of the operation table, bit by bit, decode to their operations; the four reserved words decode to nothing
(30_encoding.md R88, R89). That the operand records beside a bare word are zeros is the model's choice of log 2. -/
def Obligations.TableWordsDecode : Prop :=
  decodeTableWord 8 0b0001 = some (.load 0 []) ∧ decodeTableWord 8 0b0010 = some (.loadInit 0 []) ∧
  decodeTableWord 8 0b0011 = some (.initFrames 0) ∧
  decodeTableWord 8 0b0100 = some (.decode 0 ⟨0, false, 0, Vector.replicate 8 0⟩) ∧
  decodeTableWord 8 0b0101 = some (.getTx 0 []) ∧ decodeTableWord 8 0b0110 = some (.encode 0 []) ∧
  decodeTableWord 8 0b1000 = some (.bload []) ∧ decodeTableWord 8 0b1001 = some (.register []) ∧
  decodeTableWord 8 0b1010 = some .xcheck ∧ decodeTableWord 8 0b1011 = some (.mapIn ⟨0, .inbound 0⟩) ∧
  decodeTableWord 8 0b1100 = some (.mapOut ⟨0, .outbound []⟩) ∧ decodeTableWord 8 0b1101 = some .route ∧
  decodeTableWord 8 0b0000 = none ∧ decodeTableWord 8 0b0111 = none ∧ decodeTableWord 8 0b1110 = none ∧
  decodeTableWord 8 0b1111 = none

/-- Every well-formed operation is what its command decodes to, with every operand at every value: identifiers through
their hexadecimal text, descriptors through their objects (30_encoding.md R73 to R80, R88). -/
def Obligations.EncodeThenDecodeIsIdentity : Prop :=
  ∀ i : Instr, i.wf = true → decode (encode i) = .ok i

/-- An `ID` string of hexadecimal digits of either case, with or without its mark, is read as that hexadecimal number when that
is at most 64 bits, and is no identifier otherwise (30_encoding.md R76; the width `ID_W` is LOAD's and LOAD_INIT's to check,
log 10); no other string is an identifier. -/
def Obligations.HexIdentifierIsRead : Prop :=
  (∀ (mark : Text) (ds : List (Fin 16 × Bool)), mark ∈ [[], ['0', 'x'], ['0', 'X']] →
    readId (mark ++ ds.map hexChar) =
      if ds ≠ [] ∧ numberOf 16 (ds.map fun d => d.1.val) < 2 ^ 64 then
        some (BitVec.ofNat 64 (numberOf 16 (ds.map fun d => d.1.val)))
      else none) ∧
  ∀ t : Text, (∀ mark : Text, mark ∈ [[], ['0', 'x'], ['0', 'X']] → ∀ ds : List (Fin 16 × Bool), t ≠ mark ++ ds.map hexChar) →
    readId t = none

/-- A byte literal in each of its spellings, with its mark and its digits in either case, is read as the number it spells when
it has a digit and the number is at most 255, and is no literal otherwise; no other string and no value of another type is a
literal (30_encoding.md R80). -/
def Obligations.ByteLiteralIsRead : Prop :=
  (∀ (mark : Char) (ds : List (Fin 2)), mark ∈ ['b', 'B'] →
    readByte (.text ('0' :: mark :: ds.map fun d => hexChar (d.castLE (by decide), false))) =
      if ds ≠ [] ∧ numberOf 2 (ds.map fun d => d.val) ≤ 255 then
        some (BitVec.ofNat 8 (numberOf 2 (ds.map fun d => d.val)))
      else none) ∧
  (∀ (mark : Char) (ds : List (Fin 16 × Bool)), mark ∈ ['x', 'X'] →
    readByte (.text ('0' :: mark :: ds.map hexChar)) =
      if ds ≠ [] ∧ numberOf 16 (ds.map fun d => d.1.val) ≤ 255 then
        some (BitVec.ofNat 8 (numberOf 16 (ds.map fun d => d.1.val)))
      else none) ∧
  (∀ ds : List (Fin 10),
    readByte (.text (ds.map fun d => hexChar (d.castLE (by decide), false))) =
      if ds ≠ [] ∧ numberOf 10 (ds.map fun d => d.val) ≤ 255 then
        some (BitVec.ofNat 8 (numberOf 10 (ds.map fun d => d.val)))
      else none) ∧
  (∀ n : Int, readByte (.number n) = if 0 ≤ n ∧ n ≤ 255 then some (BitVec.ofNat 8 n.toNat) else none) ∧
  (∀ t : Text,
    (∀ (mark : Char) (ds : List (Fin 2)), mark ∈ ['b', 'B'] →
      t ≠ '0' :: mark :: ds.map fun d => hexChar (d.castLE (by decide), false)) →
    (∀ (mark : Char) (ds : List (Fin 16 × Bool)), mark ∈ ['x', 'X'] → t ≠ '0' :: mark :: ds.map hexChar) →
    (∀ ds : List (Fin 10), t ≠ ds.map fun d => hexChar (d.castLE (by decide), false)) → readByte (.text t) = none) ∧
  readByte .other = none

/-- A reserved code, or an operation of an absent option, is refused whatever stands beside it (30_encoding.md R89). -/
def Obligations.ReservedCodesAreRefused : Prop :=
  ∀ (s : State) (c : Command) (rest : List Input), s.pending = .command c :: rest →
    (c.op ∈ [0x0#4, 0x7#4, 0xE#4, 0xF#4] ∨ (s.cfg.ser = false ∧ c.op ∈ [0x5#4, 0x6#4]) ∨
      (s.cfg.bind = false ∧ c.op ∈ [0x8#4, 0x9#4, 0xA#4, 0xB#4, 0xC#4, 0xD#4])) →
    ∃ why, step s = .refused why

/-- When the next input is a command that decodes to an operation, the step is that operation at the state without that
input. -/
def Obligations.StepRunsTheDecodedOperation : Prop :=
  ∀ (s : State) (c : Command) (rest : List Input) (i : Instr), s.pending = .command c :: rest → decode c = .ok i →
    step s = exec i { s with pending := rest }

/-- The other inputs: none, and the block waits unchanged; a command that is no operation and an overlapping call are
refused; the platform writes its own field memory and nothing else, and a write that reaches outside it faults. The model's
choices of log 2, log 13, log 15 and log 16. -/
def Obligations.StepOnOtherInputs : Prop :=
  (∀ s : State, s.pending = [] → step s = .next s) ∧
  (∀ (s : State) (c : Command) (rest : List Input) (why : Reject), s.pending = .command c :: rest →
    decode c = .error why → step s = .refused (.undecodable why)) ∧
  (∀ (s : State) (a b : Command) (rest : List Input), s.pending = .overlapping a b :: rest →
    step s = .refused .concurrentCall) ∧
  (∀ (s : State) (addr : Nat) (bs : List Byte) (rest : List Input), s.pending = .platformWrite addr bs :: rest →
    HasBytes s.cfg addr bs.length → Memory.wf s.fieldMem →
    ∃ m, step s = .next { s with fieldMem := m, pending := rest } ∧ Memory.wf m ∧
      (∀ (k : Nat) (h : k < bs.length), m.read (addr + k) = bs[k]) ∧
      ∀ a, (a < addr ∨ addr + bs.length ≤ a) → m.read a = s.fieldMem.read a) ∧
  (∀ (s : State) (addr : Nat) (bs : List Byte) (rest : List Input), s.pending = .platformWrite addr bs :: rest →
    ¬ HasBytes s.cfg addr bs.length → step s = .fault (.noSuchFieldAddress addr))

/-! ## Reset and invariants -/

/-- The state after the creation of a block with any parameters over any platform memory (70_reset_and_hazards.md R220);
with no input it waits. -/
def Obligations.ResetLeavesEverythingEmpty : Prop :=
  ∀ (c : Config) (image : Memory),
    let s := State.resetWith c image
    (∀ b, s.codec? b = if b ∈ c.buses then some ⟨[], [], []⟩ else none) ∧ s.binder = ⟨[], [], [], [], .empty⟩ ∧
      s.fieldMem = image ∧ s.phase = .load ∧ (∀ h, s.frame? h = none) ∧ s.cfg = c ∧ step s = .next s

/-- Reset gives a safe state. -/
def Obligations.ResetIsSafe : Prop :=
  ∀ (c : Config) (image : Memory), c.wf → Memory.inside c image → (State.resetWith c image).Inv

/-- Every step keeps a safe state safe: tables sorted and keyed by their entries' own keys, entries within the invariants of
10_state.md R23 and R26, bindings of known names in the table of their direction, the memory in its one form. -/
def Obligations.StepKeepsSafeStates : Prop :=
  ∀ s t : State, s.Inv → step s = .next t → t.Inv

/-- The one fault of an operation is a copy that leaves the field memory, which the spec gives no byte for (log 13): only MAP_IN
and MAP_OUT fault, only at such a copy, and with no copy wider than its field they do fault at one. While every bound field
has its kind's width and lies in the memory no operation faults (60_exceptions.md R200), and every operation keeps that, but a
REGISTER of other leaves. -/
def Obligations.FaultsAreAccessesOutsideFieldMemory : Prop :=
  (∀ (s : State) (i : Instr) (r : Fault), (∀ h, i ≠ .mapIn h ∧ i ≠ .mapOut h) → exec i s ≠ .fault r) ∧
  (∀ (s : State) (h : Handle) (r : Fault), exec (.mapIn h) s = .fault r →
    ∃ f, s.frame? h = some f ∧ (LeavesMemory s.cfg s.binder.inBind (viewOf f) r ∨
      ∃ b, s.binder.syncBuf = .full b ∧ f.syncPartner = some b.name ∧ LeavesMemory s.cfg s.binder.inBind b.view r)) ∧
  (∀ (s : State) (h : Handle) (r : Fault), exec (.mapOut h) s = .fault r →
    ∃ f, s.frame? h = some f ∧ LeavesMemory s.cfg s.binder.outBind (viewOf f) r) ∧
  (∀ (s : State) (h : Handle) (f : FrameEntry), s.cfg.bind = true → s.frame? h = some f →
    (f.syncPartner = none → Narrow s.binder.inBind (viewOf f) → ¬ InMemory s.cfg s.binder.inBind (viewOf f) →
      ∃ addr, exec (.mapIn h) s = .fault (.noSuchFieldAddress addr)) ∧
    (∀ b, s.binder.syncBuf = .full b → f.syncPartner = some b.name → Narrow s.binder.inBind b.view →
      Narrow s.binder.inBind (viewOf f) →
      ¬ (InMemory s.cfg s.binder.inBind b.view ∧ InMemory s.cfg s.binder.inBind (viewOf f)) →
      ∃ addr, exec (.mapIn h) s = .fault (.noSuchFieldAddress addr)) ∧
    (Narrow s.binder.outBind (viewOf f) → ¬ InMemory s.cfg s.binder.outBind (viewOf f) →
      ∃ addr, exec (.mapOut h) s = .fault (.noSuchFieldAddress addr))) ∧
  (∀ (s : State) (i : Instr) (r : Fault), FieldsInMemory s → exec i s ≠ .fault r) ∧
  ∀ (s t : State) (i : Instr), FieldsInMemory s → (∀ ls, i = .register ls → GoodLeaves s.cfg ls) → exec i s = .next t →
    FieldsInMemory t

/-- In the run phase nothing changes but value registers, the synchronisation buffer and the field memory: not the keys of
a table, not a layout field of an entry, not an initialisation list, a binding, a direction or a route (10_state.md R30,
20_memory.md R67); and the run phase stays. -/
def Obligations.RunPhaseKeepsTheLayout : Prop :=
  ∀ s t : State, s.Inv → s.phase = .run → step s = .next t → t.layout = s.layout ∧ t.phase = .run

/-- No step takes an event out of the log (60_exceptions.md R193), and no step changes a parameter. -/
def Obligations.LogOnlyGrows : Prop :=
  ∀ s t : State, step s = .next t → (∃ rs, t.log = s.log ++ rs) ∧ t.cfg = s.cfg

/-- The block writes field memory only in MAP_IN (10_state.md R38), and the synchronisation buffer too. -/
def Obligations.OnlyMapInWritesFields : Prop :=
  ∀ (i : Instr) (s t : State), (∀ h, i ≠ .mapIn h) → exec i s = .next t →
    t.fieldMem = s.fieldMem ∧ t.binder.syncBuf = s.binder.syncBuf

/-- The phases (60_exceptions.md R204): the load phase begins at reset; a load operation in the run phase is refused; a run
operation that completes begins the run phase, from either phase; any other leaves the phase. -/
def Obligations.PhaseRules : Prop :=
  (∀ (c : Config) (image : Memory), (State.resetWith c image).phase = .load) ∧
  (∀ (i : Instr) (s : State), isLoadOp i = true → s.phase = .run → ∃ why, exec i s = .refused why) ∧
  ∀ (i : Instr) (s t : State), exec i s = .next t → t.phase = if isRunOp i then .run else s.phase

/-- A codec operation leaves the binder, the field memory and every other codec alone (60_exceptions.md R208). -/
def Obligations.CodecOperationsStayInTheirCodec : Prop :=
  ∀ (i : Instr) (bus : Int) (s t : State), codecOf i = some bus → exec i s = .next t →
    KeepsBinder s t ∧ ∀ b, b ≠ bus → t.codec? b = s.codec? b

/-- What a codec operation does depends on its own codec only: two states with the same parameters, phase and codec of that
bus get the same result and the same codec (60_exceptions.md R208: instances share no state). -/
def Obligations.CodecOperationsSeeTheirCodecOnly : Prop :=
  ∀ (i : Instr) (bus : Int) (s s' t : State), codecOf i = some bus → s'.cfg = s.cfg → s'.phase = s.phase →
    s'.codec? bus = s.codec? bus → exec i s = .next t →
    ∃ t', exec i s' = .next t' ∧ t'.result = t.result ∧ t'.codec? bus = t.codec? bus ∧ t'.phase = t.phase

/-- INIT_FRAMES, GET_TX, ENCODE, XCHECK and ROUTE change no table, register, buffer, binding or field (20_memory.md R61). -/
def Obligations.QueriesChangeNoState : Prop :=
  ∀ (i : Instr) (s t : State), (isLoadOp i = false ∧ (∀ b r, i ≠ .decode b r) ∧ (∀ h, i ≠ .mapIn h) ∧ ∀ h, i ≠ .mapOut h) →
    exec i s = .next t → KeepsCodecs s t ∧ KeepsBinder s t

/-! ## LOAD, LOAD_INIT, INIT_FRAMES -/

/-- LOAD of one well-formed frame object whose entries claim no bit twice and none above 63 (40_load.md R109): it completes,
the result is `Ok`, the entry stands under its key with every value register 0, and everything else is as before. -/
def Obligations.LoadInsertsTheEntry : Prop :=
  ∀ (s : State) (bus : Int) (c : Codec) (d : FrameDesc), s.phase = .load → s.codec? bus = some c → GoodFrame s.cfg d →
    s.frame? (handleOf bus d) = none → NoBitTwice (claims d) → Below64 (claims d) →
    ∃ t, exec (.load bus [d]) s = .next t ∧ t.result = some (.loaded [.ok]) ∧ t.log = s.log ∧
      t.frame? (handleOf bus d) = some (entryOf d) ∧ (∀ h, h ≠ handleOf bus d → t.frame? h = s.frame? h) ∧
      KeepsInitLists s t ∧ KeepsBinder s t ∧ t.phase = s.phase

/-- LOAD of one well-formed frame object: `SchemaOverlap` exactly when a bit is claimed twice, `SchemaTooLarge` exactly when
none is and one is above 63 (40_load.md R105 to R107); then nothing is inserted and the event is logged (R108). -/
def Obligations.LoadReportsTheDefect : Prop :=
  ∀ (s : State) (bus : Int) (c : Codec) (d : FrameDesc), s.phase = .load → s.codec? bus = some c → GoodFrame s.cfg d →
    s.frame? (handleOf bus d) = none → ¬ (NoBitTwice (claims d) ∧ Below64 (claims d)) →
    ∃ t r, exec (.load bus [d]) s = .next t ∧ t.result = some (.loaded [.error r]) ∧ t.log = s.log ++ [r] ∧
      (r = .schemaOverlap d.busId ↔ ¬ NoBitTwice (claims d)) ∧
      (r = .schemaTooLarge d.busId ↔ NoBitTwice (claims d) ∧ ¬ Below64 (claims d)) ∧
      (∀ h, t.frame? h = s.frame? h) ∧ KeepsInitLists s t ∧ KeepsBinder s t ∧ t.phase = s.phase

/-- LOAD of any source of well-formed frame objects with keys of their own completes with one result per object, its errors
logged in order, and every entry loaded before stays (40_load.md R100). -/
def Obligations.LoadCompletes : Prop :=
  ∀ (s : State) (bus : Int) (c : Codec) (src : List FrameDesc), s.phase = .load → s.codec? bus = some c →
    (∀ d ∈ src, GoodFrame s.cfg d ∧ s.frame? (handleOf bus d) = none) →
    src.Pairwise (fun a b => handleOf bus a ≠ handleOf bus b) →
    ∃ t rs, exec (.load bus src) s = .next t ∧ t.result = some (.loaded rs) ∧ rs.length = src.length ∧
      t.log = s.log ++ errorsOf rs ∧
      (∀ h f, s.frame? h = some f → t.frame? h = some f) ∧
      (∀ (j : Nat) (d : FrameDesc), src[j]? = some d →
        (rs[j]? = some .ok ↔ NoBitTwice (claims d) ∧ Below64 (claims d)) ∧
        (t.frame? (handleOf bus d) = if rs[j]? = some .ok then some (entryOf d) else none)) ∧
      KeepsInitLists s t ∧ KeepsBinder s t

/-- A frame object that fails is skipped wherever it stands (40_load.md R108): the objects around it are loaded as if it were not
there, and its result and its event stand in its place. That a later object may have its key is the model's reading of log 23;
so is that its own key must be free, which an object with a defect before it does not take. -/
def Obligations.LoadSkipsAnInvalidFrame : Prop :=
  ∀ (s t : State) (bus : Int) (d : FrameDesc) (pre post : List FrameDesc) (rs : List LoadResult), GoodFrame s.cfg d →
    s.frame? (handleOf bus d) = none → ¬ (NoBitTwice (claims d) ∧ Below64 (claims d)) →
    (∀ e ∈ pre, handleOf bus e = handleOf bus d → ¬ (NoBitTwice (claims e) ∧ Below64 (claims e))) →
    exec (.load bus (pre ++ post)) s = .next t → t.result = some (.loaded rs) →
    ∃ t' r rs', exec (.load bus (pre ++ d :: post)) s = .next t' ∧
      rs' = rs.take pre.length ++ .error r :: rs.drop pre.length ∧ t'.result = some (.loaded rs') ∧
      (∀ b, t'.codec? b = t.codec? b) ∧ t.log = s.log ++ errorsOf rs ∧ t'.log = s.log ++ errorsOf rs'

/-- A source whose objects resolve but are malformed is refused whole (40_load.md R102): a size of 0, two entries of one name, an
identifier wider than `ID_W`, the key of a frame that is already loaded, or the key that an object before it in the source was
loaded under. (Objects that do not resolve: `SourceObjectsResolve`.) -/
def Obligations.MalformedLoadIsRefused : Prop :=
  ∀ (s : State) (bus : Int) (c : Codec) (src : List FrameDesc), s.phase = .load → s.codec? bus = some c →
    ((∃ d ∈ src, (∃ a ∈ d.analog, a.size = 0) ∨ ¬ (d.analog.map AnalogDesc.name ++ d.digital.map DigitalDesc.name).Nodup ∨
      2 ^ s.cfg.idW ≤ d.busId.toNat ∨ s.frame? (handleOf bus d) ≠ none) ∨
     ∃ pre e mid d post, src = pre ++ e :: (mid ++ d :: post) ∧ NoBitTwice (claims e) ∧ Below64 (claims e) ∧
      handleOf bus e = handleOf bus d) →
    exec (.load bus src) s = .refused .malformedSource

/-- What the members of source objects give, and that a source in which an object gives nothing is refused whole: the frame
objects of LOAD (40_load.md R102, R103; 30_encoding.md R73 to R78), the init objects of LOAD_INIT (R79, R80), and what BLOAD
reads of frame objects (43_binder.md R160; log 14). So a required member that is absent or of another type, an `IN/OUT Frame`
that is neither string, a negative `Start Bit` or `Bit Size`, and a byte literal that is none are refused; an absent array is
empty, an absent flag false, and an absent `Sync Frame` or the string `none` no partner. That an optional member of another
type is refused is the model's choice of log 17. -/
def Obligations.SourceObjectsResolve : Prop :=
  (∀ (s : State) (rest : List Input) (bus : Int) (src : List FrameObj),
    s.pending = .command ⟨0x1, .schema bus src⟩ :: rest →
    (∀ ds, List.Forall₂ FrameResolves src ds → step s = exec (.load bus ds) { s with pending := rest }) ∧
    ((¬ ∃ ds, List.Forall₂ FrameResolves src ds) → ∃ why, step s = .refused (.undecodable why))) ∧
  (∀ (s : State) (rest : List Input) (bus : Int) (src : List InitObj), s.pending = .command ⟨0x2, .init bus src⟩ :: rest →
    (∀ ds, List.Forall₂ InitResolves src ds → step s = exec (.loadInit bus ds) { s with pending := rest }) ∧
    ((¬ ∃ ds, List.Forall₂ InitResolves src ds) → ∃ why, step s = .refused (.undecodable why))) ∧
  ∀ (s : State) (rest : List Input) (srcs : List (Int × List FrameObj)),
    s.pending = .command ⟨0x8, .sources srcs⟩ :: rest →
    (∀ ds, List.Forall₂ BusResolves srcs ds → step s = exec (.bload ds) { s with pending := rest }) ∧
    ((¬ ∃ ds, List.Forall₂ BusResolves srcs ds) → ∃ why, step s = .refused (.undecodable why))

/-- The byte length of a safe entry is the least number of bytes that hold its claimed bits, 1 to 8, and it has at most 64
signals (40_load.md R113 (c), (d)). -/
def Obligations.ByteLengthIsLeast : Prop :=
  ∀ (c : Config) (f : FrameEntry), f.wf c →
    1 ≤ f.byteLength ∧ f.byteLength ≤ 8 ∧ f.an.length + f.dg.length ≤ 64 ∧
    (∀ g ∈ f.an, ∀ k, g.startBit ≤ k → k < g.startBit + g.size → k < 8 * f.byteLength) ∧
    (∀ g ∈ f.dg, g.startBit < 8 * f.byteLength) ∧
    (f.an ≠ [] ∨ f.dg ≠ [] →
      (∃ g ∈ f.an, ∃ k, g.startBit ≤ k ∧ k < g.startBit + g.size ∧ 8 * (f.byteLength - 1) ≤ k) ∨
        ∃ g ∈ f.dg, 8 * (f.byteLength - 1) ≤ g.startBit)

/-- LOAD_INIT (40_load.md R110): the objects of this bus, in order, not extended, as long as their literals, zero above
them; nothing else changes. -/
def Obligations.LoadInitBuildsTheList : Prop :=
  ∀ (s : State) (bus : Int) (c : Codec) (src : List InitDesc), s.phase = .load → s.codec? bus = some c →
    (∀ d ∈ src, d.data.length ≤ 8 ∧ d.busId.toNat < 2 ^ s.cfg.idW) →
    ∃ t c', exec (.loadInit bus src) s = .next t ∧ t.result = some .ok ∧ t.log = s.log ∧ t.codec? bus = some c' ∧
      c'.inTable = c.inTable ∧ c'.outTable = c.outTable ∧ KeepsBinder s t ∧ t.phase = s.phase ∧
      (∀ b, b ≠ bus → t.codec? b = s.codec? b) ∧
      c'.initList.length = (src.filter fun d => decide (d.canBus = bus)).length ∧
      ∀ (j : Nat) (d : InitDesc), (src.filter fun d => decide (d.canBus = bus))[j]? = some d →
        ∃ r, c'.initList[j]? = some r ∧ r.busId = d.busId ∧ r.extended = false ∧ r.length.val = d.data.length ∧
          ∀ (i : Nat) (h : i < 8), r.payload[i] = if h' : i < d.data.length then d.data[i] else 0

/-- A malformed init source is refused: more than eight literals (40_load.md R110), or an identifier wider than `ID_W`
(30_encoding.md R76, R79; the model's reading of log 10), in an object of any bus, also of one that is passed over (the model's
reading of log 21). -/
def Obligations.MalformedInitIsRefused : Prop :=
  ∀ (s : State) (bus : Int) (c : Codec) (src : List InitDesc), s.phase = .load → s.codec? bus = some c →
    (∃ d ∈ src, 8 < d.data.length ∨ 2 ^ s.cfg.idW ≤ d.busId.toNat) →
    exec (.loadInit bus src) s = .refused .malformedSource

/-- INIT_FRAMES (40_load.md R112): the result is the list, in order, and nothing else changes. -/
def Obligations.InitFramesReturnsTheList : Prop :=
  ∀ (s : State) (bus : Int) (c : Codec), s.codec? bus = some c →
    exec (.initFrames bus) s = .next { s with result := some (.initFrames c.initList) }

/-! ## DECODE -/

/-- DECODE of an identifier with no inbound entry (41_decode.md R122): the error with the identifier, logged; no register,
no buffer, nothing else changes. -/
def Obligations.DecodeOfUnknownId : Prop :=
  ∀ (s : State) (bus : Int) (raw : RawFrame) (c : Codec), s.codec? bus = some c → raw.busId.toNat < 2 ^ s.cfg.idW →
    s.frame? ⟨bus, .inbound raw.busId⟩ = none →
    exec (.decode bus raw) s =
      .next { s with phase := .run, result := some (.error (.unknownFrameId raw.busId)),
                     log := s.log ++ [.unknownFrameId raw.busId] }

/-- DECODE of a known identifier (41_decode.md R120, R124 to R127): it completes, returns the live entry, and every value
register of that entry, and of no other, takes its field of the message; its layout fields stay. -/
def Obligations.DecodeWritesEverySignal : Prop :=
  ∀ (s : State) (bus : Int) (raw : RawFrame) (f : FrameEntry), raw.busId.toNat < 2 ^ s.cfg.idW →
    s.frame? ⟨bus, .inbound raw.busId⟩ = some f →
    ∃ t, exec (.decode bus raw) s = .next t ∧ t.result = some (.frame ⟨bus, .inbound raw.busId⟩) ∧ t.log = s.log ∧
      t.frame? ⟨bus, .inbound raw.busId⟩ = some { f with
        an := f.an.map (fun g => { g with
          value := BitVec.ofNat 64 (analogNat (messageNat raw.payload) g.startBit g.size g.inverted) }),
        dg := f.dg.map (fun g => { g with value := digitalBit (messageNat raw.payload) g.startBit }) } ∧
      (∀ h, h ≠ ⟨bus, .inbound raw.busId⟩ → t.frame? h = s.frame? h) ∧ KeepsInitLists s t ∧ KeepsBinder s t ∧
      t.phase = .run

/-- After DECODE every analog value register of the entry is below `2^size` (41_decode.md R129). -/
def Obligations.DecodedValuesAreInRange : Prop :=
  ∀ (s t : State) (bus : Int) (raw : RawFrame) (f : FrameEntry), exec (.decode bus raw) s = .next t →
    t.frame? ⟨bus, .inbound raw.busId⟩ = some f → ∀ g ∈ f.an, g.value.toNat < 2 ^ g.size

/-- The closed form of `inv` (41_decode.md R128): for `n = ceil8(s)` and `r = 8n - s` it is the reversal of the low `n`
bytes, shifted right by `r`; it is always below `2^s` and depends on the low `n` bytes only; for `s` a multiple of 8 it is
its own inverse on values below `2^s`. -/
def Obligations.InvClosedForm : Prop :=
  ∀ (v : Word) (s : Nat), 1 ≤ s → s ≤ 64 →
    (inv v s).toNat = revBytes ((s + 7) / 8) (v.toNat % 2 ^ (8 * ((s + 7) / 8))) / 2 ^ (8 * ((s + 7) / 8) - s) ∧
    (inv v s).toNat < 2 ^ s ∧
    (∀ w : Word, w.toNat % 2 ^ (8 * ((s + 7) / 8)) = v.toNat % 2 ^ (8 * ((s + 7) / 8)) → inv w s = inv v s) ∧
    (s % 8 = 0 → v.toNat < 2 ^ s → inv (inv v s) s = v)

/-- The value DECODE gives a signal depends on the message bits of the signal's own range only (41_decode.md R133 (a)): two
raw frames that agree on those bits give the same value. -/
def Obligations.DecodeDependsOnOwnBits : Prop :=
  ∀ (s t t' : State) (bus : Int) (raw raw' : RawFrame) (f f' : FrameEntry), raw'.busId = raw.busId →
    exec (.decode bus raw) s = .next t → exec (.decode bus raw') s = .next t' →
    t.frame? ⟨bus, .inbound raw.busId⟩ = some f → t'.frame? ⟨bus, .inbound raw.busId⟩ = some f' →
    (∀ (j : Nat) (g g' : AnalogSig), f.an[j]? = some g → f'.an[j]? = some g' →
      (∀ k, g.startBit ≤ k → k < g.startBit + g.size →
        (messageNat raw.payload).testBit k = (messageNat raw'.payload).testBit k) → g' = g) ∧
    ∀ (j : Nat) (g g' : DigitalSig), f.dg[j]? = some g → f'.dg[j]? = some g' →
      (messageNat raw.payload).testBit g.startBit = (messageNat raw'.payload).testBit g.startBit → g' = g

/-- DECODE reads neither `length` nor `extended` (41_decode.md R121, R123). -/
def Obligations.DecodeIgnoresLengthAndFlag : Prop :=
  ∀ (s : State) (bus : Int) (raw : RawFrame) (n : Fin 9) (e : Bool),
    exec (.decode bus { raw with length := n, extended := e }) s = exec (.decode bus raw) s

/-- Two DECODEs of the same raw frame leave the same state as one (41_decode.md R135). -/
def Obligations.DecodeTwiceIsDecodeOnce : Prop :=
  ∀ (s t : State) (bus : Int) (raw : RawFrame) (f : FrameEntry), s.frame? ⟨bus, .inbound raw.busId⟩ = some f →
    exec (.decode bus raw) s = .next t → exec (.decode bus raw) t = .next t

/-- Bit isolation (41_decode.md R133 (c)). A raw frame with only one analog field's bits set gives that field its maximum, where
it is not inverted or its size is a multiple of 8, and `inv(mask(s), s)`, which is smaller, elsewhere; every other field is
zero. A raw frame with only a digital signal's bit set makes that signal true and every other field zero. -/
def Obligations.BitIsolation : Prop :=
  (∀ (s : State) (bus : Int) (raw : RawFrame) (f : FrameEntry), s.Inv → s.frame? ⟨bus, .inbound raw.busId⟩ = some f →
    (∀ (j : Nat) (g : AnalogSig), f.an[j]? = some g → messageNat raw.payload = (2 ^ g.size - 1) * 2 ^ g.startBit →
      ∃ t f', exec (.decode bus raw) s = .next t ∧ t.frame? ⟨bus, .inbound raw.busId⟩ = some f' ∧
        (∀ (i : Nat) (g' : AnalogSig), f'.an[i]? = some g' → g'.value.toNat =
          if i = j then
            if g.inverted ∧ g.size % 8 ≠ 0 then revBytes 8 (2 ^ g.size - 1) / 2 ^ (64 - g.size) else 2 ^ g.size - 1
          else 0) ∧
        ∀ g' ∈ f'.dg, g'.value = false) ∧
    ∀ (j : Nat) (g : DigitalSig), f.dg[j]? = some g → messageNat raw.payload = 2 ^ g.startBit →
      ∃ t f', exec (.decode bus raw) s = .next t ∧ t.frame? ⟨bus, .inbound raw.busId⟩ = some f' ∧
        (∀ g' ∈ f'.an, g'.value = 0) ∧
        ∀ (i : Nat) (g' : DigitalSig), f'.dg[i]? = some g' → g'.value = decide (i = j)) ∧
  ∀ n, 1 ≤ n → n ≤ 64 → n % 8 ≠ 0 → revBytes 8 (2 ^ n - 1) / 2 ^ (64 - n) < 2 ^ n - 1

/-! ## GET_TX, ENCODE -/

/-- GET_TX and ENCODE of a name with no outbound entry (42_encode.md R142): the error with the name, logged; nothing else
changes and no raw frame is produced. -/
def Obligations.UnknownOutboundName : Prop :=
  ∀ (s : State) (bus : Int) (n : Text) (c : Codec) (i : Instr), i = .getTx bus n ∨ i = .encode bus n →
    s.cfg.ser = true → s.codec? bus = some c → s.frame? ⟨bus, .outbound n⟩ = none →
    exec i s =
      .next { s with phase := .run, result := some (.error (.unknownFrameName n)), log := s.log ++ [.unknownFrameName n] }

/-- GET_TX of a loaded name (42_encode.md R140): the live entry, and no state changes. -/
def Obligations.GetTxReturnsTheLiveEntry : Prop :=
  ∀ (s : State) (bus : Int) (n : Text) (f : FrameEntry), s.cfg.ser = true → s.frame? ⟨bus, .outbound n⟩ = some f →
    exec (.getTx bus n) s = .next { s with phase := .run, result := some (.frame ⟨bus, .outbound n⟩) }

/-- ENCODE of a loaded name (42_encode.md R141, R143 to R149): identifier and flag, the length, and every bit of the payload:
the OR of what the signals contribute, below byte `byteLength`; no state changes. -/
def Obligations.EncodeBuildsTheFrame : Prop :=
  ∀ (s : State) (bus : Int) (n : Text) (f : FrameEntry), s.Inv → s.cfg.ser = true →
    s.frame? ⟨bus, .outbound n⟩ = some f →
    ∃ r, exec (.encode bus n) s = .next { s with phase := .run, result := some (.raw r) } ∧
      r.extended = f.extended ∧ r.length.val = f.byteLength ∧
      (∀ k, k < 64 → r.busId.getLsbD k = (f.busId.getLsbD k || (f.extended && decide (k = s.cfg.effBit)))) ∧
      ∀ (i : Nat) (h : i < 8) (j : Nat), j < 8 →
        r.payload[i].getLsbD j = (decide (i < f.byteLength) &&
          (f.an.any (fun g => analogBitAt g (8 * i + j)) || f.dg.any fun g => g.value && decide (g.startBit = 8 * i + j)))

/-- The order of a frame's signals does not matter to ENCODE (42_encode.md R147). -/
def Obligations.EncodeOrderDoesNotMatter : Prop :=
  ∀ (s s' t : State) (bus : Int) (n : Text) (f f' : FrameEntry), s'.cfg = s.cfg →
    s.frame? ⟨bus, .outbound n⟩ = some f → s'.frame? ⟨bus, .outbound n⟩ = some f' →
    f'.busId = f.busId → f'.extended = f.extended → f'.byteLength = f.byteLength → f'.an.Perm f.an → f'.dg.Perm f.dg →
    exec (.encode bus n) s = .next t → ∃ t', exec (.encode bus n) s' = .next t' ∧ t'.result = t.result

/-- A message bit no signal claims is 0 in the payload when every non-inverted value is below `2^size`
(42_encode.md R151). -/
def Obligations.UnusedBitsAreZero : Prop :=
  ∀ (s t : State) (bus : Int) (n : Text) (f : FrameEntry) (r : RawFrame), s.frame? ⟨bus, .outbound n⟩ = some f →
    exec (.encode bus n) s = .next t → t.result = some (.raw r) →
    (∀ g ∈ f.an, g.inverted = false → g.value.toNat < 2 ^ g.size) →
    ∀ k, k < 64 → (∀ g ∈ f.an, ¬ (g.startBit ≤ k ∧ k < g.startBit + g.size)) → (∀ g ∈ f.dg, g.startBit ≠ k) →
      (messageNat r.payload).testBit k = false

/-- The round trip (41_decode.md R134, 42_encode.md R152): ENCODE of an outbound frame, then DECODE of its payload into an
inbound frame with the same signals, gives back every value, for values below `2^size` and inverted sizes that are
multiples of 8. -/
def Obligations.DecodeOfEncodeIsIdentity : Prop :=
  ∀ (s : State) (bus bus' : Int) (n : Text) (id : Word) (f f' : FrameEntry), s.Inv → s.cfg.ser = true →
    s.frame? ⟨bus, .outbound n⟩ = some f → s.frame? ⟨bus', .inbound id⟩ = some f' → sameSignals f f' →
    (∀ g ∈ f.an, Exact g) →
    ∃ t r t' g, exec (.encode bus n) s = .next t ∧ t.result = some (.raw r) ∧
      exec (.decode bus' { r with busId := id }) t = .next t' ∧ t'.frame? ⟨bus', .inbound id⟩ = some g ∧
      g.an.map AnalogSig.value = f.an.map AnalogSig.value ∧ g.dg.map DigitalSig.value = f.dg.map DigitalSig.value

/-! ## BLOAD, REGISTER, XCHECK, ROUTE -/

/-- BLOAD of sources in which no name has two values, nor one against the tables (43_binder.md R160, R162): it completes and
records exactly the directions and routes of the sources; bindings, buffer, codecs and fields stay. That what an earlier BLOAD
recorded counts is the model's choice of log 14; that the bus indices may be any is its choice of log 28. -/
def Obligations.BloadRecordsTheSources : Prop :=
  ∀ (s : State) (srcs : List (Int × List RouteDesc)), s.cfg.bind = true → s.phase = .load →
    Agrees s.binder.dirReg (dirs srcs) → Agrees s.binder.routing (routes srcs) →
    ∃ t, exec (.bload srcs) s = .next t ∧ t.result = some .ok ∧ t.log = s.log ∧
      (∀ n d, t.binder.dirReg.get? n = some d ↔ (n, d) ∈ dirs srcs ∨ s.binder.dirReg.get? n = some d) ∧
      (∀ n b, t.binder.routing.get? n = some b ↔ (n, b) ∈ routes srcs ∨ s.binder.routing.get? n = some b) ∧
      t.binder.inBind = s.binder.inBind ∧ t.binder.outBind = s.binder.outBind ∧ t.binder.syncBuf = s.binder.syncBuf ∧
      t.fieldMem = s.fieldMem ∧ KeepsCodecs s t ∧ t.phase = s.phase

/-- BLOAD of sources in which a signal name has both directions, or an outbound frame name two buses, is refused
(43_binder.md R162). That a name which conflicts with what an earlier BLOAD recorded is refused too is the model's choice of
log 14. -/
def Obligations.BloadRefusesConflicts : Prop :=
  ∀ (s : State) (srcs : List (Int × List RouteDesc)), s.cfg.bind = true → s.phase = .load →
    ¬ (Agrees s.binder.dirReg (dirs srcs) ∧ Agrees s.binder.routing (routes srcs)) →
    ∃ n, exec (.bload srcs) s = .refused (.conflictingName n)

/-- REGISTER of leaves whose known names are new (43_binder.md R165, R167, R169): it completes, binds each known leaf in the
table of its direction, with the address, width and kind it comes with, passes over the others, and returns the diagnostic
mapping; everything else stays. That a width which is not the kind's and an address outside the memory are bound as they come
is the model's reading of log 12. -/
def Obligations.RegisterBindsKnownLeaves : Prop :=
  ∀ (s : State) (ls : List Leaf), s.cfg.bind = true → s.phase = .load → FreshLeaves s ls →
    ∃ t m, exec (.register ls) s = .next t ∧ t.result = some (.diag m) ∧ t.log = s.log ∧
      (∀ l ∈ ls, s.binder.dirReg.get? l.name = some .input →
        t.binder.inBind.get? l.name = some ⟨l.addr, l.bytes, l.kind⟩) ∧
      (∀ l ∈ ls, s.binder.dirReg.get? l.name = some .output →
        t.binder.outBind.get? l.name = some ⟨l.addr, l.bytes, l.kind⟩) ∧
      (∀ n, (s.binder.dirReg.get? n = some .input → ∀ l ∈ ls, l.name ≠ n) →
        t.binder.inBind.get? n = s.binder.inBind.get? n) ∧
      (∀ n, (s.binder.dirReg.get? n = some .output → ∀ l ∈ ls, l.name ≠ n) →
        t.binder.outBind.get? n = s.binder.outBind.get? n) ∧
      (∀ n, m.get? n = (s.binder.dirReg.get? n).map fun _ =>
        (t.binder.inBind.get? n).isSome || (t.binder.outBind.get? n).isSome) ∧
      t.binder.dirReg = s.binder.dirReg ∧ t.binder.routing = s.binder.routing ∧ t.binder.syncBuf = s.binder.syncBuf ∧
      t.fieldMem = s.fieldMem ∧ KeepsCodecs s t ∧ t.phase = s.phase

/-- REGISTER stops at the first leaf whose known name is bound already (43_binder.md R166, R168): the error with the name,
logged; the leaves before it are bound as they would be alone, the leaves after it are not, and the binding that stood is
the same. -/
def Obligations.RegisterStopsAtADuplicate : Prop :=
  ∀ (s : State) (before after : List Leaf) (l : Leaf), s.cfg.bind = true → s.phase = .load →
    FreshLeaves s before → Known s l →
    (s.binder.inBind.get? l.name ≠ none ∨ s.binder.outBind.get? l.name ≠ none ∨ ∃ b ∈ before, b.name = l.name) →
    ∃ t t', exec (.register (before ++ l :: after)) s = .next t ∧ exec (.register before) s = .next t' ∧
      t.result = some (.error (.duplicateFieldBinding l.name)) ∧ t.log = s.log ++ [.duplicateFieldBinding l.name] ∧
      t.binder = t'.binder ∧
      (∀ bd, s.binder.inBind.get? l.name = some bd → t.binder.inBind.get? l.name = some bd) ∧
      (∀ bd, s.binder.outBind.get? l.name = some bd → t.binder.outBind.get? l.name = some bd) ∧
      t.fieldMem = s.fieldMem ∧ KeepsCodecs s t ∧ t.phase = s.phase

/-- XCHECK (43_binder.md R170): it reports exactly the names of the registry that no table binds, each once, logs each report,
and changes nothing else. -/
def Obligations.XcheckReportsUnboundNames : Prop :=
  ∀ s : State, s.cfg.bind = true →
    ∃ ns : List Text, exec .xcheck s = .next { s with result := some (.unmapped ns), log := s.log ++ ns.map .unmappedSignal } ∧
      (∀ n, n ∈ ns ↔ s.binder.dirReg.get? n ≠ none ∧ s.binder.inBind.get? n = none ∧ s.binder.outBind.get? n = none) ∧
      (s.Inv → ns.Nodup)

/-- ROUTE (43_binder.md R185): the result is the routing table and nothing else changes. -/
def Obligations.RouteReturnsTheTable : Prop :=
  ∀ s : State, s.cfg.bind = true → exec .route s = .next { s with result := some (.routing s.binder.routing) }

/-! ## MAP_IN -/

/-- MAP_IN of a frame with no partner (43_binder.md R172, R176, R177): it completes; every bound signal's low `ceil8(size)`
bytes are in its field, a `MappingMiss` is logged for each unbound one, and no other byte, register or table changes. -/
def Obligations.MapInApplies : Prop :=
  ∀ (s : State) (h : Handle) (f : FrameEntry), s.Inv → s.cfg.bind = true → s.frame? h = some f → f.syncPartner = none →
    Narrow s.binder.inBind (viewOf f) → InMemory s.cfg s.binder.inBind (viewOf f) →
    ∃ t, exec (.mapIn h) s = .next t ∧ t.result = some (.mapped .applied) ∧
      t.log = s.log ++ misses s.binder.inBind (viewOf f) ∧ t.binder = s.binder ∧ KeepsCodecs s t ∧ t.phase = .run ∧
      (∀ a, Spares s.binder.inBind (viewOf f) a → t.fieldMem.read a = s.fieldMem.read a) ∧
      WrittenApart s.binder.inBind (viewOf f) t.fieldMem

/-- MAP_IN of a frame with a partner while the buffer is empty (43_binder.md R172, R171): a copy of the frame is buffered;
no field is written, nothing is logged. -/
def Obligations.MapInBuffers : Prop :=
  ∀ (s : State) (h : Handle) (f : FrameEntry) (p : Text), s.cfg.bind = true → s.frame? h = some f →
    f.syncPartner = some p → s.binder.syncBuf = .empty →
    exec (.mapIn h) s =
      .next { s with phase := .run, result := some (.mapped .buffered),
                     binder := { s.binder with syncBuf := .full ⟨f.name, some p, viewOf f⟩ } }

/-- MAP_IN of the buffered frame's partner (43_binder.md R172, R173): both frames are applied in one step, the buffered one
first, and the buffer is emptied; the fields of the arriving frame hold its values, those of the buffered frame hold the
buffered values where the arriving frame does not write. -/
def Obligations.MapInAppliesThePair : Prop :=
  ∀ (s : State) (h : Handle) (f : FrameEntry) (b : Snapshot), s.Inv → s.cfg.bind = true → s.frame? h = some f →
    s.binder.syncBuf = .full b → f.syncPartner = some b.name →
    Narrow s.binder.inBind b.view → Narrow s.binder.inBind (viewOf f) →
    InMemory s.cfg s.binder.inBind b.view → InMemory s.cfg s.binder.inBind (viewOf f) →
    ∃ t, exec (.mapIn h) s = .next t ∧ t.result = some (.mapped .appliedPair) ∧
      t.log = s.log ++ misses s.binder.inBind b.view ++ misses s.binder.inBind (viewOf f) ∧
      t.binder = { s.binder with syncBuf := .empty } ∧ KeepsCodecs s t ∧ t.phase = .run ∧
      (∀ a, Spares s.binder.inBind b.view a → Spares s.binder.inBind (viewOf f) a →
        t.fieldMem.read a = s.fieldMem.read a) ∧
      WrittenApart s.binder.inBind (viewOf f) t.fieldMem ∧
      ∃ m, WrittenApart s.binder.inBind b.view m ∧
        ∀ a, Spares s.binder.inBind (viewOf f) a → t.fieldMem.read a = m.read a

/-- MAP_IN of the buffered frame again (43_binder.md R172): discarded; buffer, fields and log stay. -/
def Obligations.MapInDiscardsADuplicate : Prop :=
  ∀ (s : State) (h : Handle) (f : FrameEntry) (p : Text) (b : Snapshot), s.cfg.bind = true → s.frame? h = some f →
    f.syncPartner = some p → s.binder.syncBuf = .full b → b.name ≠ p → b.name = f.name →
    exec (.mapIn h) s = .next { s with phase := .run, result := some (.mapped .duplicateDiscarded) }

/-- MAP_IN of an unrelated frame with a partner (43_binder.md R172, R175): it replaces the buffered frame, which is lost
without being applied; no field is written, nothing is logged. -/
def Obligations.MapInReplaces : Prop :=
  ∀ (s : State) (h : Handle) (f : FrameEntry) (p : Text) (b : Snapshot), s.cfg.bind = true → s.frame? h = some f →
    f.syncPartner = some p → s.binder.syncBuf = .full b → b.name ≠ p → b.name ≠ f.name →
    exec (.mapIn h) s =
      .next { s with phase := .run, result := some (.mapped .replaced),
                     binder := { s.binder with syncBuf := .full ⟨f.name, some p, viewOf f⟩ } }

/-- A MAP_IN that would apply, and a MAP_OUT that would perform, a copy wider than its field is refused
(43_binder.md R179, R181): of a pair, a wide copy of either frame. -/
def Obligations.WideCopiesAreRefused : Prop :=
  ∀ (s : State) (h : Handle) (f : FrameEntry), s.cfg.bind = true → s.frame? h = some f →
    (f.syncPartner = none → ¬ Narrow s.binder.inBind (viewOf f) →
      ∃ n, exec (.mapIn h) s = .refused (.fieldTooNarrow n)) ∧
    (∀ b, s.binder.syncBuf = .full b → f.syncPartner = some b.name →
      ¬ (Narrow s.binder.inBind b.view ∧ Narrow s.binder.inBind (viewOf f)) →
      ∃ n, exec (.mapIn h) s = .refused (.fieldTooNarrow n)) ∧
    (¬ Narrow s.binder.outBind (viewOf f) → ∃ n, exec (.mapOut h) s = .refused (.fieldTooNarrow n))

/-- The sync law (43_binder.md R184): with frames A and B that name each other, B on an empty buffer writes no field; B again
is discarded; A then applies both in one step, A's fields holding A's values and B's, where A does not write, B's. -/
def Obligations.SyncPairing : Prop :=
  ∀ (s : State) (ha hb : Handle) (a b : FrameEntry), s.Inv → s.cfg.bind = true → s.frame? ha = some a →
    s.frame? hb = some b → a.name ≠ b.name → a.syncPartner = some b.name → b.syncPartner = some a.name →
    s.binder.syncBuf = .empty → Narrow s.binder.inBind (viewOf a) → Narrow s.binder.inBind (viewOf b) →
    InMemory s.cfg s.binder.inBind (viewOf a) → InMemory s.cfg s.binder.inBind (viewOf b) →
    ∃ s1 s2 s3, exec (.mapIn hb) s = .next s1 ∧ exec (.mapIn hb) s1 = .next s2 ∧ exec (.mapIn ha) s2 = .next s3 ∧
      s1.result = some (.mapped .buffered) ∧ s1.fieldMem = s.fieldMem ∧
      s2.result = some (.mapped .duplicateDiscarded) ∧ s2.fieldMem = s.fieldMem ∧ s2.binder = s1.binder ∧
      s3.result = some (.mapped .appliedPair) ∧ s3.binder.syncBuf = .empty ∧
      WrittenApart s.binder.inBind (viewOf a) s3.fieldMem ∧
      (∃ m, WrittenApart s.binder.inBind (viewOf b) m ∧
        ∀ x, Spares s.binder.inBind (viewOf a) x → s3.fieldMem.read x = m.read x) ∧
      (∀ x, Spares s.binder.inBind (viewOf a) x → Spares s.binder.inBind (viewOf b) x →
        s3.fieldMem.read x = s.fieldMem.read x)

/-- One slot for all pairs (43_binder.md R175): with pairs (A,B) and (C,D) of four names, the order A, C, B, D applies
nothing: Buffered, then Replaced three times, and no field is written. -/
def Obligations.OneSlotLosesInterleavedPairs : Prop :=
  ∀ (s : State) (ha hb hc hd : Handle) (a b c d : FrameEntry), s.cfg.bind = true → s.binder.syncBuf = .empty →
    s.frame? ha = some a → s.frame? hb = some b → s.frame? hc = some c → s.frame? hd = some d →
    [a.name, b.name, c.name, d.name].Nodup → a.syncPartner = some b.name → b.syncPartner = some a.name →
    c.syncPartner = some d.name → d.syncPartner = some c.name →
    ∃ s1 s2 s3 s4, exec (.mapIn ha) s = .next s1 ∧ exec (.mapIn hc) s1 = .next s2 ∧ exec (.mapIn hb) s2 = .next s3 ∧
      exec (.mapIn hd) s3 = .next s4 ∧ s1.result = some (.mapped .buffered) ∧ s2.result = some (.mapped .replaced) ∧
      s3.result = some (.mapped .replaced) ∧ s4.result = some (.mapped .replaced) ∧ s4.fieldMem = s.fieldMem ∧
      s4.log = s.log

/-! ## MAP_OUT and field memory -/

/-- MAP_OUT (43_binder.md R180 to R183): it completes; a bound analog register becomes the number in the field's low
`ceil8(size)` bytes, a bound digital one whether the field's first byte is not zero, an unbound one stays and is logged;
field memory, buffer, bindings, layout fields and every other entry stay. -/
def Obligations.MapOutLoadsTheRegisters : Prop :=
  ∀ (s : State) (h : Handle) (f : FrameEntry), s.Inv → s.cfg.bind = true → s.frame? h = some f →
    Narrow s.binder.outBind (viewOf f) → InMemory s.cfg s.binder.outBind (viewOf f) →
    ∃ t, exec (.mapOut h) s = .next t ∧ t.result = some .ok ∧ t.log = s.log ++ misses s.binder.outBind (viewOf f) ∧
      t.frame? h = some { f with
        an := f.an.map (fun g => match s.binder.outBind.get? g.name with
          | some bd => { g with value := BitVec.ofNat 64 (bytesNat s.fieldMem bd.addr ((g.size + 7) / 8)) }
          | none => g),
        dg := f.dg.map (fun g => match s.binder.outBind.get? g.name with
          | some bd => { g with value := decide (s.fieldMem.read bd.addr ≠ (0 : Byte)) }
          | none => g) } ∧
      (∀ j, j ≠ h → t.frame? j = s.frame? j) ∧ KeepsInitLists s t ∧ KeepsBinder s t ∧ t.phase = .run

/-- `MemWrite` and `MemRead` (00_scope.md R14): a write of up to eight bytes reads back as its low bytes, changes no other
byte, and keeps the one form of the memory. -/
def Obligations.FieldWriteThenRead : Prop :=
  ∀ (m : Memory) (addr n : Nat) (v : Word), Memory.wf m → n ≤ 8 →
    (memRead (memWrite m addr n v) addr n).toNat = v.toNat % 2 ^ (8 * n) ∧ Memory.wf (memWrite m addr n v) ∧
      (memRead m addr n).toNat = bytesNat m addr n ∧
      ∀ a, (a < addr ∨ addr + n ≤ a) → (memWrite m addr n v).read a = m.read a

/-- A frame operand that names no live entry, an operation on a bus no codec serves, and a raw frame with an identifier wider
than `ID_W` are refused: the model's readings of log 10, log 11 and log 19. -/
def Obligations.OperandsOutsideTheBlockAreRefused : Prop :=
  (∀ (s : State) (h : Handle), s.cfg.bind = true → s.frame? h = none →
    exec (.mapIn h) s = .refused (.noLiveFrame h) ∧ exec (.mapOut h) s = .refused (.noLiveFrame h)) ∧
  (∀ (s : State) (i : Instr) (bus : Int), codecOf i = some bus → s.codec? bus = none → ∃ why, exec i s = .refused why) ∧
  ∀ (s : State) (bus : Int) (raw : RawFrame), 2 ^ s.cfg.idW ≤ raw.busId.toNat →
    ∃ why, exec (.decode bus raw) s = .refused why

/-- A buffered frame's signals are those of its first arrival: a DECODE changes neither the buffer nor a field
(10_state.md R37, 90_conflicts.md C5). -/
def Obligations.BufferedValuesSurviveDecode : Prop :=
  ∀ (s s1 s2 s3 : State) (bus : Int) (raw : RawFrame) (b f : FrameEntry) (ha : Handle), s.Inv → s.cfg.bind = true →
    s.frame? ⟨bus, .inbound raw.busId⟩ = some b → s.binder.syncBuf = .empty → ha ≠ ⟨bus, .inbound raw.busId⟩ →
    s.frame? ha = some f → f.syncPartner = some b.name → b.syncPartner = some f.name → b.name ≠ f.name →
    exec (.mapIn ⟨bus, .inbound raw.busId⟩) s = .next s1 → exec (.decode bus raw) s1 = .next s2 →
    exec (.mapIn ha) s2 = .next s3 →
    s3.result = some (.mapped .appliedPair) ∧
      (∀ addr n x, Writes s.binder.inBind (viewOf b) addr n x → n ≤ 8 →
        (∀ addr' n' x', Writes s.binder.inBind (viewOf b) addr' n' x' → (addr', n', x') ≠ (addr, n, x) →
          addr' + n' ≤ addr ∨ addr + n ≤ addr') →
        (∀ k, k < n → Spares s.binder.inBind (viewOf f) (addr + k)) →
        ∀ k, k < n → s3.fieldMem.read (addr + k) = BitVec.ofNat 8 (x.toNat / 2 ^ (8 * k)))
end

