-- ==== Sys2Proof/Laws/Bits.lean ====
section
/-! SUPPORT. Bit `k` of every pure function (00_scope.md R12), of the message (20_memory.md R53) and of a payload
(20_memory.md R54). -/

namespace Sys2Proof

theorem byteAt_getLsbD (v : Word) (i j : Nat) : (byteAt v i).getLsbD j = (decide (j < 8) && v.getLsbD (8 * i + j)) := by
  unfold byteAt
  simp [BitVec.getLsbD_extractLsb']

theorem mask_getLsbD (s k : Nat) : (mask s).getLsbD k = (decide (k < s) && decide (k < 64)) := by
  unfold mask
  rw [BitVec.getLsbD_ofNat, Nat.testBit_two_pow_sub_one, Bool.and_comm]

theorem extractField_getLsbD (m : Word) (a s k : Nat) :
    (extractField m a s).getLsbD k = (decide (k < s) && m.getLsbD (a + k)) := by
  unfold extractField shr
  rw [BitVec.getLsbD_and, BitVec.getLsbD_ushiftRight, mask_getLsbD]
  by_cases h : k < 64
  · simp [h, Bool.and_comm]
  · rw [BitVec.getLsbD_of_ge m (a + k) (by omega)]; simp

/-- Bit `k` of the message is bit `k mod 8` of payload byte `k div 8` (20_memory.md R52). -/
theorem message_getLsbD (p : Vector Byte 8) (k : Nat) (h : k < 64) :
    (message p).getLsbD k = (p[k / 8]'(by omega)).getLsbD (k % 8) := by
  unfold message
  simp only [BitVec.getLsbD_append]
  have h8 : k / 8 < 8 := by omega
  obtain ⟨q, hq⟩ : ∃ q, k / 8 = q := ⟨_, rfl⟩
  have hk : k = 8 * q + k % 8 := by omega
  have hr : k % 8 < 8 := Nat.mod_lt _ (by omega)
  generalize k % 8 = r at *
  subst hk
  have hq8 : q < 8 := by omega
  simp only [hq]
  have : q = 0 ∨ q = 1 ∨ q = 2 ∨ q = 3 ∨ q = 4 ∨ q = 5 ∨ q = 6 ∨ q = 7 := by omega
  rcases this with rfl | rfl | rfl | rfl | rfl | rfl | rfl | rfl
  · rw [if_pos (by omega)]; simp
  · rw [if_neg (by omega), if_pos (by omega)]; congr 1; omega
  · rw [if_neg (by omega), if_neg (by omega), if_pos (by omega)]; congr 1; omega
  · rw [if_neg (by omega), if_neg (by omega), if_neg (by omega), if_pos (by omega)]; congr 1; omega
  · rw [if_neg (by omega), if_neg (by omega), if_neg (by omega), if_neg (by omega), if_pos (by omega)]; congr 1; omega
  · rw [if_neg (by omega), if_neg (by omega), if_neg (by omega), if_neg (by omega), if_neg (by omega), if_pos (by omega)]
    congr 1; omega
  · rw [if_neg (by omega), if_neg (by omega), if_neg (by omega), if_neg (by omega), if_neg (by omega),
      if_neg (by omega), if_pos (by omega)]
    congr 1; omega
  · rw [if_neg (by omega), if_neg (by omega), if_neg (by omega), if_neg (by omega), if_neg (by omega),
      if_neg (by omega), if_neg (by omega)]
    congr 1; omega

/-- `bswap64` is the message of the bytes in the opposite order. -/
theorem bswap64_eq_message (v : Word) : bswap64 v = message (Vector.ofFn fun i => byteAt v (7 - i.val)) := by
  simp [bswap64, message]

/-- Bit `k` of `bswap64(v)` is a bit of the opposite byte. -/
theorem bswap64_getLsbD (v : Word) (k : Nat) (h : k < 64) :
    (bswap64 v).getLsbD k = v.getLsbD (8 * (7 - k / 8) + k % 8) := by
  rw [bswap64_eq_message, message_getLsbD _ _ h]
  simp only [Vector.getElem_ofFn, byteAt_getLsbD]
  simp [Nat.mod_lt]

/-- Bit `k` of `inv(v, s)`. -/
theorem inv_getLsbD (v : Word) (s k : Nat) (h : s ≤ 64) :
    (inv v s).getLsbD k = (decide (k < s) && v.getLsbD (8 * (7 - (64 - s + k) / 8) + (64 - s + k) % 8)) := by
  unfold inv shr
  rw [BitVec.getLsbD_ushiftRight]
  by_cases hk : k < s
  · rw [bswap64_getLsbD _ _ (by omega)]; simp [hk]
  · rw [BitVec.getLsbD_of_ge _ _ (by omega)]; simp [hk]

/-- A word whose bits from `s` up are 0 is below `2^s`. -/
theorem toNat_lt_of_getLsbD (v : Word) (s : Nat) (h : ∀ k, s ≤ k → v.getLsbD k = false) : v.toNat < 2 ^ s :=
  Nat.lt_pow_two_of_testBit _ fun i hi => by rw [BitVec.testBit_toNat]; exact h i hi

theorem getLsbD_of_toNat_lt (v : Word) (s : Nat) (h : v.toNat < 2 ^ s) (k : Nat) (hk : s ≤ k) : v.getLsbD k = false := by
  rw [← BitVec.testBit_toNat]
  exact Nat.testBit_lt_two_pow (Nat.lt_of_lt_of_le h (Nat.pow_le_pow_right (by omega) hk))

/-- The extracted field is below `2^s` (41_decode.md R129). -/
theorem extractField_lt (m : Word) (a s : Nat) : (extractField m a s).toNat < 2 ^ s :=
  toNat_lt_of_getLsbD _ _ fun k hk => by rw [extractField_getLsbD]; simp; omega

/-- The inversion transform stays below `2^s`, whatever it is applied to (41_decode.md R128 (c)). -/
theorem inv_lt (v : Word) (s : Nat) : (inv v s).toNat < 2 ^ s := by
  rcases Nat.lt_or_ge 64 s with h | h
  · exact Nat.lt_trans (inv v s).isLt (Nat.pow_lt_pow_right (by omega) h)
  · exact toNat_lt_of_getLsbD _ _ fun k hk => by rw [inv_getLsbD _ _ _ h]; simp; omega

/-- The value DECODE gives an analog signal is below `2^size` (41_decode.md R129). -/
theorem analogValue_lt (m : Word) (a s : Nat) (i : Bool) : (analogValue m a s i).toNat < 2 ^ s := by
  unfold analogValue
  split
  · exact inv_lt _ _
  · exact extractField_lt _ _ _

theorem shl64_getLsbD (v : Word) (k i : Nat) :
    (shl64 v k).getLsbD i = (decide (i < 64) && decide (k ≤ i) && v.getLsbD (i - k)) := by
  unfold shl64
  rw [BitVec.getLsbD_shiftLeft]
  by_cases h : i < k
  · simp [h, show ¬ k ≤ i by omega]
  · simp [h, show k ≤ i by omega]

theorem digitalInsert_getLsbD (v : Bool) (a i : Nat) :
    (digitalInsert v a).getLsbD i = (decide (i < 64) && v && decide (i = a)) := by
  unfold digitalInsert
  rw [shl64_getLsbD]
  cases v
  · simp
  · by_cases h : i = a
    · subst h; simp
    · by_cases h2 : a ≤ i
      · have : ¬ i - a = 0 := by omega
        simp [h, h2, this]
      · simp [h, h2]

theorem getElem_payloadOf (acc : Word) (n i : Nat) (h : i < 8) :
    (payloadOf acc n)[i] = if i < n then byteAt acc i else 0 := by
  simp [payloadOf]

/-- The message of a payload made from an accumulator: the accumulator below byte `n`, zero from there on. -/
theorem message_payloadOf_getLsbD (acc : Word) (n k : Nat) (h : k < 64) :
    (message (payloadOf acc n)).getLsbD k = (decide (k < 8 * n) && acc.getLsbD k) := by
  rw [message_getLsbD _ _ h, getElem_payloadOf]
  split
  · next hn =>
    rw [byteAt_getLsbD, show 8 * (k / 8) + k % 8 = k by omega]
    simp [Nat.mod_lt, show k < 8 * n by omega]
  · next hn => simp [show ¬ k < 8 * n by omega]

/-- `ceil8(s)` bytes hold `s` bits (00_scope.md R11). -/
theorem le_ceil8 (s : Nat) : s ≤ 8 * ceil8 s := by unfold ceil8; omega

theorem ceil8_le (s : Nat) (h : s ≤ 64) : ceil8 s ≤ 8 := by unfold ceil8; omega

theorem ceil8_pos (s : Nat) (h : 1 ≤ s) : 1 ≤ ceil8 s := by unfold ceil8; omega

/-- Replacing the low `k` bytes of a register that holds no more than `k` bytes (43_binder.md R181). -/
theorem replaceLow_of_lt (old low : Word) (k : Nat) (h : old.toNat < 2 ^ (8 * k)) : replaceLow old k low = low := by
  unfold replaceLow
  have : old >>> (8 * k) = 0 := by
    apply BitVec.eq_of_toNat_eq
    rw [BitVec.toNat_ushiftRight, Nat.shiftRight_eq_div_pow, Nat.div_eq_of_lt h]
    rfl
  rw [this]
  simp

/-! ## As numbers -/

theorem append_toNat {n m : Nat} (x : BitVec n) (y : BitVec m) : (x ++ y).toNat = x.toNat * 2 ^ m + y.toNat := by
  rw [BitVec.toNat_append, ← Nat.shiftLeft_add_eq_or_of_lt y.isLt, Nat.shiftLeft_eq]

theorem byteAt_toNat (v : Word) (i : Nat) : (byteAt v i).toNat = v.toNat / 2 ^ (8 * i) % 256 := by
  unfold byteAt
  rw [BitVec.extractLsb'_toNat, Nat.shiftRight_eq_div_pow]

/-- The extracted field as `div` and `mod`, at every width (41_decode.md R126, 90_conflicts.md C6). -/
theorem extractField_toNat (m : Word) (a s : Nat) : (extractField m a s).toNat = m.toNat / 2 ^ a % 2 ^ s := by
  apply Nat.eq_of_testBit_eq
  intro k
  rw [BitVec.testBit_toNat, extractField_getLsbD, Nat.testBit_mod_two_pow, Nat.testBit_div_two_pow, BitVec.testBit_toNat,
    Nat.add_comm]

/-- Messages that agree on a field's bits give the field the same value (41_decode.md R133 (a)). -/
theorem extractField_congr {m m' : Word} {a s : Nat} (h : ∀ k, a ≤ k → k < a + s → m.getLsbD k = m'.getLsbD k) :
    extractField m a s = extractField m' a s := by
  apply BitVec.eq_of_getLsbD_eq
  intro k _
  rw [extractField_getLsbD, extractField_getLsbD]
  by_cases hk : k < s
  · rw [h (a + k) (by omega) (by omega)]
  · simp [hk]

end Sys2Proof
end

