-- ==== Sys2Proof/Laws/FMap.lean ====
section
/-! SUPPORT. The laws of finite maps (00_scope.md R13): what a lookup gives after an insertion, and that insertion keeps
the one form of a map. -/

namespace Sys2Proof.Machine

open Sys2Proof

section Lookup

variable {K V : Type} [DecidableEq K]

@[simp] theorem FMap.get?_nil (k : K) : FMap.get? ([] : FMap K V) k = none := rfl

theorem FMap.get?_cons (j k : K) (v : V) (m : FMap K V) :
    FMap.get? ((j, v) :: m) k = if j = k then some v else FMap.get? m k := rfl

/-- A lookup that finds an entry finds a listed pair. -/
theorem FMap.mem_of_get? {m : FMap K V} {k : K} {v : V} (h : m.get? k = some v) : (k, v) ∈ m := by
  induction m with
  | nil => simp at h
  | cons p m ih =>
    obtain ⟨j, w⟩ := p
    rw [FMap.get?_cons] at h
    split at h
    · next hjk => subst hjk; cases h; exact List.mem_cons_self
    · exact List.mem_cons_of_mem _ (ih h)

/-- A key is absent exactly where no pair has it. -/
theorem FMap.get?_eq_none_iff {m : FMap K V} {k : K} : m.get? k = none ↔ k ∉ m.map Prod.fst := by
  induction m with
  | nil => simp
  | cons p m ih =>
    obtain ⟨j, w⟩ := p
    rw [FMap.get?_cons]
    by_cases h : j = k
    · simp [h]
    · have : k ≠ j := fun e => h e.symm
      simp [h, this, ih]

theorem FMap.get?_isSome_iff {m : FMap K V} {k : K} : (m.get? k).isSome = true ↔ k ∈ m.map Prod.fst := by
  rw [Option.isSome_iff_ne_none, ne_eq, FMap.get?_eq_none_iff, not_not]

/-- Looking up through a change of every entry. -/
theorem FMap.get?_map {W : Type} (f : K → V → W) (m : FMap K V) (k : K) :
    FMap.get? (m.map fun p => (p.1, f p.1 p.2)) k = (m.get? k).map (f k) := by
  induction m with
  | nil => rfl
  | cons p m ih =>
    obtain ⟨j, w⟩ := p
    simp only [List.map_cons, FMap.get?_cons]
    split
    · next h => subst h; rfl
    · exact ih

end Lookup

section Insert

variable {K V : Type} [DecidableEq K] [LT K] [DecidableLT K]

/-- The inserted key holds the inserted entry. -/
@[simp] theorem FMap.get?_insert_self (m : FMap K V) (k : K) (v : V) : (m.insert k v).get? k = some v := by
  induction m with
  | nil => simp [FMap.insert, FMap.get?_cons]
  | cons p m ih =>
    obtain ⟨j, w⟩ := p
    unfold FMap.insert
    split
    · simp [FMap.get?_cons]
    · split
      · simp [FMap.get?_cons]
      · next h _ => rw [FMap.get?_cons, if_neg h, ih]

/-- Every other key holds what it held. -/
theorem FMap.get?_insert_of_ne (m : FMap K V) {k j : K} (v : V) (h : k ≠ j) : (m.insert k v).get? j = m.get? j := by
  induction m with
  | nil => simp [FMap.insert, FMap.get?_cons, h]
  | cons p m ih =>
    obtain ⟨i, w⟩ := p
    unfold FMap.insert
    split
    · next e => subst e; simp [FMap.get?_cons, h]
    · split
      · simp [FMap.get?_cons, h]
      · simp only [FMap.get?_cons, ih]

theorem FMap.get?_insert (m : FMap K V) (k j : K) (v : V) :
    (m.insert k v).get? j = if k = j then some v else m.get? j := by
  split
  · next h => subst h; exact FMap.get?_insert_self m k v
  · next h => exact FMap.get?_insert_of_ne m v h

/-- A pair of the map after an insertion is the inserted one or was listed before. -/
theorem FMap.mem_insert {m : FMap K V} {k : K} {v : V} {p : K × V} (h : p ∈ m.insert k v) : p = (k, v) ∨ p ∈ m := by
  induction m with
  | nil => simpa [FMap.insert] using h
  | cons q m ih =>
    obtain ⟨j, w⟩ := q
    unfold FMap.insert at h
    split at h
    · rcases List.mem_cons.1 h with h | h
      · exact .inl h
      · exact .inr (List.mem_cons_of_mem _ h)
    · split at h
      · rcases List.mem_cons.1 h with h | h
        · exact .inl h
        · exact .inr h
      · rcases List.mem_cons.1 h with h | h
        · exact .inr (h ▸ List.mem_cons_self)
        · rcases ih h with h | h
          · exact .inl h
          · exact .inr (List.mem_cons_of_mem _ h)

/-- Inserting the same entry again changes nothing more. -/
theorem FMap.insert_insert (m : FMap K V) (k : K) (v w : V) : (m.insert k v).insert k w = m.insert k w := by
  induction m with
  | nil => simp [FMap.insert]
  | cons p m ih =>
    obtain ⟨j, u⟩ := p
    by_cases h1 : j = k
    · simp [FMap.insert, h1]
    · by_cases h2 : k < j
      · simp [FMap.insert, h1, h2]
      · simp [FMap.insert, h1, h2, ih]

/-- The keys after an insertion. -/
theorem FMap.mem_keys_insert {m : FMap K V} {k : K} {v : V} {j : K} (h : j ∈ (m.insert k v).map Prod.fst) :
    j = k ∨ j ∈ m.map Prod.fst := by
  obtain ⟨p, hp, rfl⟩ := List.mem_map.1 h
  rcases FMap.mem_insert hp with h | h
  · exact .inl (by rw [h])
  · exact .inr (List.mem_map_of_mem h)

/-- The order of the keys: what a type of keys must satisfy for `FMap.wf` to be kept. -/
structure KeyOrder (K : Type) [LT K] : Prop where
  trans : ∀ a b c : K, a < b → b < c → a < c
  irrefl : ∀ a : K, ¬ a < a
  total : ∀ a b : K, a ≠ b → ¬ a < b → b < a

/-- Insertion keeps the keys rising. -/
theorem FMap.wf_insert (o : KeyOrder K) {m : FMap K V} (h : FMap.wf m) (k : K) (v : V) : FMap.wf (m.insert k v) := by
  unfold FMap.wf at h ⊢
  induction m with
  | nil => simp [FMap.insert]
  | cons p m ih =>
    obtain ⟨j, w⟩ := p
    simp only [List.map_cons, List.pairwise_cons] at h
    unfold FMap.insert
    split
    · next e => subst e; simpa using h
    · next hjk =>
      split
      · next hkj =>
        simp only [List.map_cons, List.pairwise_cons, List.mem_cons, forall_eq_or_imp]
        exact ⟨⟨hkj, fun a ha => o.trans _ _ _ hkj (h.1 a ha)⟩, h⟩
      · next hkj =>
        simp only [List.map_cons, List.pairwise_cons]
        refine ⟨fun a ha => ?_, ih h.2⟩
        rcases FMap.mem_keys_insert ha with rfl | ha
        · exact o.total _ _ (fun e => hjk e.symm) hkj
        · exact h.1 a ha

/-- Inserting under a key that stands leaves the list of keys as it is. -/
theorem FMap.keys_insert_of_mem (o : KeyOrder K) {m : FMap K V} (h : FMap.wf m) {k : K} (hk : k ∈ m.map Prod.fst) (v : V) :
    (m.insert k v).map Prod.fst = m.map Prod.fst := by
  unfold FMap.wf at h
  induction m with
  | nil => simp at hk
  | cons p m ih =>
    obtain ⟨j, w⟩ := p
    simp only [List.map_cons, List.pairwise_cons] at h
    unfold FMap.insert
    split
    · next e => subst e; rfl
    · next hjk =>
      have hk' : k ∈ m.map Prod.fst := by
        simp only [List.map_cons, List.mem_cons] at hk
        exact hk.resolve_left (fun e => hjk e.symm)
      have hnk : ¬ k < j := fun hkj => o.irrefl _ (o.trans _ _ _ hkj (h.1 k hk'))
      simp only [hnk, if_false, List.map_cons, ih h.2 hk']

end Insert

section Extensionality

variable {K V : Type} [DecidableEq K] [LT K]

omit [DecidableEq K] in
/-- No key occurs twice. -/
theorem FMap.nodup_keys (o : KeyOrder K) {m : FMap K V} (h : FMap.wf m) : (m.map Prod.fst).Nodup :=
  List.Pairwise.imp (S := (· ≠ ·)) (fun hlt e => o.irrefl _ (e ▸ hlt : _ < _)) h

/-- With rising keys a listed pair is what the lookup finds. -/
theorem FMap.get?_of_mem (o : KeyOrder K) {m : FMap K V} (h : FMap.wf m) {p : K × V} (hp : p ∈ m) :
    m.get? p.1 = some p.2 := by
  unfold FMap.wf at h
  induction m with
  | nil => simp at hp
  | cons q m ih =>
    obtain ⟨j, w⟩ := q
    simp only [List.map_cons, List.pairwise_cons] at h
    rw [FMap.get?_cons]
    rcases List.mem_cons.1 hp with rfl | hp
    · simp
    · have : j ≠ p.1 := fun e => o.irrefl j (by
        have := h.1 p.1 (List.mem_map_of_mem hp)
        rwa [← e] at this)
      rw [if_neg this, ih h.2 hp]

/-- Maps with rising keys and the same lookups are the same data. -/
theorem FMap.ext (o : KeyOrder K) {m n : FMap K V} (hm : FMap.wf m) (hn : FMap.wf n)
    (h : ∀ k, m.get? k = n.get? k) : m = n := by
  induction m generalizing n with
  | nil =>
    cases n with
    | nil => rfl
    | cons q n =>
      have := h q.1
      rw [FMap.get?_nil, FMap.get?_of_mem o hn List.mem_cons_self] at this
      cases this
  | cons p m ih =>
    cases n with
    | nil =>
      have := h p.1
      rw [FMap.get?_nil, FMap.get?_of_mem o hm List.mem_cons_self] at this
      cases this
    | cons q n =>
      have hm' := hm
      have hn' := hn
      unfold FMap.wf at hm' hn'
      simp only [List.map_cons, List.pairwise_cons] at hm' hn'
      have hpq : p = q := by
        by_contra hne
        have hp := FMap.get?_of_mem o hm (List.mem_cons_self (a := p) (l := m))
        have hq := FMap.get?_of_mem o hn (List.mem_cons_self (a := q) (l := n))
        rw [h] at hp
        rw [← h] at hq
        have hp' := FMap.mem_of_get? hp
        have hq' := FMap.mem_of_get? hq
        rcases List.mem_cons.1 hp' with e | hp'
        · exact hne e
        rcases List.mem_cons.1 hq' with e | hq'
        · exact hne e.symm
        exact o.irrefl _ (o.trans _ _ _ (hn'.1 _ (List.mem_map_of_mem hp')) (hm'.1 _ (List.mem_map_of_mem hq')))
      subst hpq
      congr 1
      refine ih hm'.2 hn'.2 fun k => ?_
      have hk := h k
      obtain ⟨j, w⟩ := p
      simp only [FMap.get?_cons] at hk
      by_cases e : j = k
      · subst e
        have h1 : FMap.get? m j = none := FMap.get?_eq_none_iff.2 fun hj => o.irrefl _ (hm'.1 _ hj)
        have h2 : FMap.get? n j = none := FMap.get?_eq_none_iff.2 fun hj => o.irrefl _ (hn'.1 _ hj)
        rw [h1, h2]
      · simpa [e] using hk

end Extensionality

/-- Bus indices are ordered. -/
theorem KeyOrder.int : KeyOrder Int :=
  ⟨fun _ _ _ => Int.lt_trans, Int.lt_irrefl, fun a b h1 h2 => by omega⟩

/-- Identifiers are ordered. -/
theorem KeyOrder.word : KeyOrder Word :=
  ⟨fun _ _ _ => BitVec.lt_trans, BitVec.lt_irrefl, fun a b h1 h2 => by
    rw [BitVec.lt_def] at h2 ⊢
    have : a.toNat ≠ b.toNat := fun e => h1 (BitVec.eq_of_toNat_eq e)
    omega⟩

/-- Names are ordered. -/
theorem KeyOrder.text : KeyOrder Text :=
  ⟨fun _ _ _ => List.lt_trans, List.lt_irrefl, fun a b h1 h2 => by
    rcases lt_trichotomy a b with h | h | h
    · exact absurd h h2
    · exact absurd h h1
    · exact h⟩

end Sys2Proof.Machine
end

