-- ==== Sys2Proof/Laws/State.lean ====
section
/-! SUPPORT. One lemma per field per update of the state, and the lookups of codecs and live entries after each update. -/

namespace Sys2Proof.Machine

open Sys2Proof

/-! ## `State.setCodec` -/

@[simp] theorem State.setCodec_cfg (s : State) (bus : Int) (c : Codec) : (s.setCodec bus c).cfg = s.cfg := rfl

@[simp] theorem State.setCodec_codecs (s : State) (bus : Int) (c : Codec) :
    (s.setCodec bus c).codecs = s.codecs.insert bus c := rfl

@[simp] theorem State.setCodec_binder (s : State) (bus : Int) (c : Codec) : (s.setCodec bus c).binder = s.binder := rfl

@[simp] theorem State.setCodec_fieldMem (s : State) (bus : Int) (c : Codec) : (s.setCodec bus c).fieldMem = s.fieldMem := rfl

@[simp] theorem State.setCodec_log (s : State) (bus : Int) (c : Codec) : (s.setCodec bus c).log = s.log := rfl

@[simp] theorem State.setCodec_result (s : State) (bus : Int) (c : Codec) : (s.setCodec bus c).result = s.result := rfl

@[simp] theorem State.setCodec_phase (s : State) (bus : Int) (c : Codec) : (s.setCodec bus c).phase = s.phase := rfl

@[simp] theorem State.setCodec_pending (s : State) (bus : Int) (c : Codec) : (s.setCodec bus c).pending = s.pending := rfl

/-! ## `State.deliver` -/

@[simp] theorem State.deliver_cfg (s : State) (r : OpResult) : (s.deliver r).cfg = s.cfg := rfl

@[simp] theorem State.deliver_codecs (s : State) (r : OpResult) : (s.deliver r).codecs = s.codecs := rfl

@[simp] theorem State.deliver_binder (s : State) (r : OpResult) : (s.deliver r).binder = s.binder := rfl

@[simp] theorem State.deliver_fieldMem (s : State) (r : OpResult) : (s.deliver r).fieldMem = s.fieldMem := rfl

@[simp] theorem State.deliver_log (s : State) (r : OpResult) : (s.deliver r).log = s.log := rfl

@[simp] theorem State.deliver_result (s : State) (r : OpResult) : (s.deliver r).result = some r := rfl

@[simp] theorem State.deliver_phase (s : State) (r : OpResult) : (s.deliver r).phase = s.phase := rfl

@[simp] theorem State.deliver_pending (s : State) (r : OpResult) : (s.deliver r).pending = s.pending := rfl

/-! ## `State.record` -/

@[simp] theorem State.record_cfg (s : State) (rs : List Report) : (s.record rs).cfg = s.cfg := rfl

@[simp] theorem State.record_codecs (s : State) (rs : List Report) : (s.record rs).codecs = s.codecs := rfl

@[simp] theorem State.record_binder (s : State) (rs : List Report) : (s.record rs).binder = s.binder := rfl

@[simp] theorem State.record_fieldMem (s : State) (rs : List Report) : (s.record rs).fieldMem = s.fieldMem := rfl

@[simp] theorem State.record_log (s : State) (rs : List Report) : (s.record rs).log = s.log ++ rs := rfl

@[simp] theorem State.record_result (s : State) (rs : List Report) : (s.record rs).result = s.result := rfl

@[simp] theorem State.record_phase (s : State) (rs : List Report) : (s.record rs).phase = s.phase := rfl

@[simp] theorem State.record_pending (s : State) (rs : List Report) : (s.record rs).pending = s.pending := rfl

/-! ## `State.raise` -/

@[simp] theorem State.raise_cfg (s : State) (r : Report) : (s.raise r).cfg = s.cfg := rfl

@[simp] theorem State.raise_codecs (s : State) (r : Report) : (s.raise r).codecs = s.codecs := rfl

@[simp] theorem State.raise_binder (s : State) (r : Report) : (s.raise r).binder = s.binder := rfl

@[simp] theorem State.raise_fieldMem (s : State) (r : Report) : (s.raise r).fieldMem = s.fieldMem := rfl

@[simp] theorem State.raise_log (s : State) (r : Report) : (s.raise r).log = s.log ++ [r] := rfl

@[simp] theorem State.raise_result (s : State) (r : Report) : (s.raise r).result = some (.error r) := rfl

@[simp] theorem State.raise_phase (s : State) (r : Report) : (s.raise r).phase = s.phase := rfl

@[simp] theorem State.raise_pending (s : State) (r : Report) : (s.raise r).pending = s.pending := rfl

/-! ## `State.enterRun` -/

@[simp] theorem State.enterRun_cfg (s : State)  : s.enterRun.cfg = s.cfg := rfl

@[simp] theorem State.enterRun_codecs (s : State)  : s.enterRun.codecs = s.codecs := rfl

@[simp] theorem State.enterRun_binder (s : State)  : s.enterRun.binder = s.binder := rfl

@[simp] theorem State.enterRun_fieldMem (s : State)  : s.enterRun.fieldMem = s.fieldMem := rfl

@[simp] theorem State.enterRun_log (s : State)  : s.enterRun.log = s.log := rfl

@[simp] theorem State.enterRun_result (s : State)  : s.enterRun.result = s.result := rfl

@[simp] theorem State.enterRun_phase (s : State)  : s.enterRun.phase = .run := rfl

@[simp] theorem State.enterRun_pending (s : State)  : s.enterRun.pending = s.pending := rfl

/-! ## `State.endMapIn` -/

@[simp] theorem State.endMapIn_cfg (s : State) (buf : SyncBuf) (o : MapOutcome) : (s.endMapIn buf o).cfg = s.cfg := rfl

@[simp] theorem State.endMapIn_codecs (s : State) (buf : SyncBuf) (o : MapOutcome) : (s.endMapIn buf o).codecs = s.codecs := rfl

@[simp] theorem State.endMapIn_binder (s : State) (buf : SyncBuf) (o : MapOutcome) :
    (s.endMapIn buf o).binder = { s.binder with syncBuf := buf } := rfl

@[simp] theorem State.endMapIn_fieldMem (s : State) (buf : SyncBuf) (o : MapOutcome) :
    (s.endMapIn buf o).fieldMem = s.fieldMem := rfl

@[simp] theorem State.endMapIn_log (s : State) (buf : SyncBuf) (o : MapOutcome) : (s.endMapIn buf o).log = s.log := rfl

@[simp] theorem State.endMapIn_result (s : State) (buf : SyncBuf) (o : MapOutcome) :
    (s.endMapIn buf o).result = some (.mapped o) := rfl

@[simp] theorem State.endMapIn_phase (s : State) (buf : SyncBuf) (o : MapOutcome) : (s.endMapIn buf o).phase = s.phase := rfl

@[simp] theorem State.endMapIn_pending (s : State) (buf : SyncBuf) (o : MapOutcome) : (s.endMapIn buf o).pending = s.pending := rfl

/-! ## `State.setFrame` -/

@[simp] theorem State.setFrame_cfg (s : State) (h : Handle) (f : FrameEntry) : (s.setFrame h f).cfg = s.cfg := by
  unfold State.setFrame; split <;> rfl

@[simp] theorem State.setFrame_binder (s : State) (h : Handle) (f : FrameEntry) : (s.setFrame h f).binder = s.binder := by
  unfold State.setFrame; split <;> rfl

@[simp] theorem State.setFrame_fieldMem (s : State) (h : Handle) (f : FrameEntry) : (s.setFrame h f).fieldMem = s.fieldMem := by
  unfold State.setFrame; split <;> rfl

@[simp] theorem State.setFrame_log (s : State) (h : Handle) (f : FrameEntry) : (s.setFrame h f).log = s.log := by
  unfold State.setFrame; split <;> rfl

@[simp] theorem State.setFrame_result (s : State) (h : Handle) (f : FrameEntry) : (s.setFrame h f).result = s.result := by
  unfold State.setFrame; split <;> rfl

@[simp] theorem State.setFrame_phase (s : State) (h : Handle) (f : FrameEntry) : (s.setFrame h f).phase = s.phase := by
  unfold State.setFrame; split <;> rfl

@[simp] theorem State.setFrame_pending (s : State) (h : Handle) (f : FrameEntry) : (s.setFrame h f).pending = s.pending := by
  unfold State.setFrame; split <;> rfl

/-! ## Codecs and live entries -/

theorem State.codec?_def (s : State) (bus : Int) : s.codec? bus = s.codecs.get? bus := rfl

/-- The codec just put in place is the one found. -/
@[simp] theorem State.codec?_setCodec_self (s : State) (bus : Int) (c : Codec) : (s.setCodec bus c).codec? bus = some c :=
  FMap.get?_insert_self _ _ _

/-- Codecs share no state (60_exceptions.md R208). -/
theorem State.codec?_setCodec_of_ne (s : State) {bus b : Int} (c : Codec) (h : bus ≠ b) :
    (s.setCodec bus c).codec? b = s.codec? b :=
  FMap.get?_insert_of_ne _ _ h

/-- The entry just put in place is the one its key finds. -/
@[simp] theorem Codec.frame?_setFrame_self (c : Codec) (k : FrameKey) (f : FrameEntry) :
    (c.setFrame k f).frame? k = some f := by
  cases k <;> exact FMap.get?_insert_self _ _ _

/-- Every other key finds what it found. -/
theorem Codec.frame?_setFrame_of_ne (c : Codec) {k j : FrameKey} (f : FrameEntry) (h : k ≠ j) :
    (c.setFrame k f).frame? j = c.frame? j := by
  cases k <;> cases j <;> first | rfl | exact FMap.get?_insert_of_ne _ _ (fun e => h (by rw [e]))

@[simp] theorem Codec.setFrame_initList (c : Codec) (k : FrameKey) (f : FrameEntry) :
    (c.setFrame k f).initList = c.initList := by
  cases k <;> rfl

/-- A live entry is found in its codec. -/
theorem State.frame?_eq_some {s : State} {h : Handle} {f : FrameEntry} (e : s.frame? h = some f) :
    ∃ c, s.codec? h.bus = some c ∧ c.frame? h.key = some f := by
  unfold State.frame? at e
  split at e
  · next c hc => exact ⟨c, hc, e⟩
  · cases e

theorem State.frame?_of_codec {s : State} {bus : Int} {c : Codec} (e : s.codec? bus = some c) (k : FrameKey) :
    s.frame? { bus := bus, key := k } = c.frame? k := by
  unfold State.frame?
  simp [e]

/-- An entry put in place under a handle that names one is the one found. -/
theorem State.frame?_setFrame_self {s : State} {h : Handle} {f : FrameEntry} (e : s.frame? h = some f) (g : FrameEntry) :
    (s.setFrame h g).frame? h = some g := by
  obtain ⟨c, hc, _⟩ := State.frame?_eq_some e
  unfold State.setFrame
  simp only [hc]
  unfold State.frame?
  simp

/-- Every other handle finds what it found. -/
theorem State.frame?_setFrame_of_ne (s : State) {h j : Handle} (g : FrameEntry) (hj : h ≠ j) :
    (s.setFrame h g).frame? j = s.frame? j := by
  unfold State.setFrame
  split
  · next c hc =>
    unfold State.frame?
    by_cases hb : h.bus = j.bus
    · rw [← hb, State.codec?_setCodec_self, hc]
      refine Codec.frame?_setFrame_of_ne _ _ fun hk => hj ?_
      cases h; cases j
      simp only at hb hk
      rw [hb, hk]
    · rw [State.codec?_setCodec_of_ne _ _ hb]
  · rfl

/-- The entry a handle finds after a codec is put in place. -/
theorem State.frame?_setCodec (s : State) (bus : Int) (c : Codec) (h : Handle) :
    (s.setCodec bus c).frame? h = if h.bus = bus then c.frame? h.key else s.frame? h := by
  unfold State.frame?
  by_cases e : h.bus = bus
  · rw [if_pos e, e, State.codec?_setCodec_self]
  · rw [if_neg e, State.codec?_setCodec_of_ne _ _ fun x => e x.symm]

/-- A codec's initialisation frames do not change with an entry. -/
theorem State.codec?_setFrame (s : State) (h : Handle) (g : FrameEntry) (b : Int) :
    (s.setFrame h g).codec? b = (s.codec? b).map fun c => if b = h.bus then c.setFrame h.key g else c := by
  unfold State.setFrame
  split
  · next c hc =>
    by_cases hb : b = h.bus
    · subst hb; simp [hc]
    · rw [State.codec?_setCodec_of_ne _ _ (fun e => hb e.symm)]
      cases s.codec? b <;> simp [hb]
  · next hc =>
    by_cases hb : b = h.bus
    · subst hb; simp [hc]
    · cases s.codec? b <;> simp [hb]

end Sys2Proof.Machine
end

