-- ==== Sys2Proof/Laws/Exec.lean ====
section
/-! SUPPORT. For each shared operation and each meaning, everything it does when it answers a next state, and for each
meaning the condition under which it does. Later proofs cite these lemmas and do not unfold a meaning. -/

namespace Sys2Proof.Machine

open Sys2Proof

theorem Phase.eq_load_of_ne_run {p : Phase} (h : ¬ p = .run) : p = .load := by cases p <;> simp_all

/-! ## Shared operations -/

/-- What `Apply` does (43_binder.md R176, R177, R179). -/
theorem applyViews_next {s t : State} {vs : List View} (h : applyViews s vs = .next t) :
    vs.findSome? (tooWide s.binder.inBind) = none ∧
      outsideMemory s.cfg (vs.flatMap (accessesOf s.binder.inBind)) = none ∧
      t = { s with
        fieldMem := applyAccesses s.fieldMem (vs.flatMap (accessesOf s.binder.inBind))
        log := s.log ++ vs.flatMap (missesOf s.binder.inBind) } := by
  unfold applyViews at h
  split at h
  · cases h
  · next h1 =>
    split at h
    · cases h
    · next h2 => cases h; exact ⟨h1, h2, rfl⟩

theorem applyViews_of_fits {s : State} {vs : List View} (h1 : vs.findSome? (tooWide s.binder.inBind) = none)
    (h2 : outsideMemory s.cfg (vs.flatMap (accessesOf s.binder.inBind)) = none) :
    applyViews s vs = .next { s with
        fieldMem := applyAccesses s.fieldMem (vs.flatMap (accessesOf s.binder.inBind))
        log := s.log ++ vs.flatMap (missesOf s.binder.inBind) } := by
  unfold applyViews
  simp only [h1, h2]

/-- The first access outside the memory is one of the accesses. -/
theorem mem_of_outsideMemory {c : Config} {as : List FieldAccess} {a : FieldAccess} (h : outsideMemory c as = some a) :
    a ∈ as ∧ c.hasBytes a.addr a.count = false := by
  unfold outsideMemory at h
  exact ⟨List.mem_of_find?_eq_some h, by simpa using List.find?_some h⟩

/-- When `Apply` faults (log 13). -/
theorem applyViews_fault {s : State} {vs : List View} {r : Fault} (h : applyViews s vs = .fault r) :
    ∃ a ∈ vs.flatMap (accessesOf s.binder.inBind), s.cfg.hasBytes a.addr a.count = false ∧ r = .noSuchFieldAddress a.addr := by
  unfold applyViews at h
  split at h
  · cases h
  · split at h
    · next a ha =>
      cases h
      exact ⟨a, (mem_of_outsideMemory ha).1, (mem_of_outsideMemory ha).2, rfl⟩
    · cases h

theorem applyViews_of_outside {s : State} {vs : List View} {a : FieldAccess}
    (h1 : vs.findSome? (tooWide s.binder.inBind) = none)
    (h2 : outsideMemory s.cfg (vs.flatMap (accessesOf s.binder.inBind)) = some a) :
    applyViews s vs = .fault (.noSuchFieldAddress a.addr) := by
  unfold applyViews
  simp only [h1, h2]

theorem applyThenEnd_fault {s : State} {vs : List View} {buf : SyncBuf} {o : MapOutcome} {r : Fault} :
    applyThenEnd s vs buf o = .fault r ↔ applyViews s vs = .fault r := by
  unfold applyThenEnd
  cases applyViews s vs <;> simp

theorem applyThenEnd_next {s t : State} {vs : List View} {buf : SyncBuf} {o : MapOutcome}
    (h : applyThenEnd s vs buf o = .next t) : ∃ u, applyViews s vs = .next u ∧ t = u.endMapIn buf o := by
  unfold applyThenEnd at h
  split at h
  · next u hu => cases h; exact ⟨u, hu, rfl⟩
  · cases h
  · cases h

/-! ## The codec's operations -/

/-- What LOAD does. -/
theorem execLoad_next {bus : Int} {src : List FrameDesc} {s t : State} (h : execLoad bus src s = .next t) :
    s.phase = .load ∧ ∃ c c' rs, s.codec? bus = some c ∧ (src.all fun d => d.wf && idFits s.cfg d.busId) = true ∧
      loadFrames c src = some (c', rs) ∧
      t = ((s.setCodec bus c').record (rs.flatMap LoadResult.reports)).deliver (.loaded rs) := by
  unfold execLoad at h
  split at h
  · cases h
  · next hp =>
    refine ⟨Phase.eq_load_of_ne_run hp, ?_⟩
    split at h
    · cases h
    · next c hc =>
      split at h
      · next hw =>
        split at h
        · cases h
        · next c' rs hl => cases h; exact ⟨c, c', rs, hc, hw, hl, rfl⟩
      · cases h

theorem execLoad_of_loads {bus : Int} {src : List FrameDesc} {s : State} {c c' : Codec} {rs : List LoadResult}
    (hp : s.phase = .load) (hc : s.codec? bus = some c)
    (hw : (src.all fun d => d.wf && idFits s.cfg d.busId) = true) (hl : loadFrames c src = some (c', rs)) :
    execLoad bus src s =
      .next (((s.setCodec bus c').record (rs.flatMap LoadResult.reports)).deliver (.loaded rs)) := by
  unfold execLoad
  simp only [hp, hc, hw, hl, if_true]
  rfl

/-- What LOAD_INIT does. -/
theorem execLoadInit_next {bus : Int} {src : List InitDesc} {s t : State} (h : execLoadInit bus src s = .next t) :
    s.phase = .load ∧ ∃ c, s.codec? bus = some c ∧ (src.all fun d => d.wf && idFits s.cfg d.busId) = true ∧
      t = (s.setCodec bus { c with
        initList := (src.filter fun d => decide (d.canBus = bus)).map InitDesc.rawFrame }).deliver .ok := by
  unfold execLoadInit at h
  split at h
  · cases h
  · next hp =>
    refine ⟨Phase.eq_load_of_ne_run hp, ?_⟩
    split at h
    · cases h
    · next c hc =>
      split at h
      · next hw => cases h; exact ⟨c, hc, hw, rfl⟩
      · cases h

theorem execLoadInit_of_wf {bus : Int} {src : List InitDesc} {s : State} {c : Codec} (hp : s.phase = .load)
    (hc : s.codec? bus = some c) (hw : (src.all fun d => d.wf && idFits s.cfg d.busId) = true) :
    execLoadInit bus src s = .next ((s.setCodec bus { c with
      initList := (src.filter fun d => decide (d.canBus = bus)).map InitDesc.rawFrame }).deliver .ok) := by
  unfold execLoadInit
  simp only [hp, hc, hw, if_true]
  rfl

/-- What INIT_FRAMES does. -/
theorem execInitFrames_next {bus : Int} {s t : State} (h : execInitFrames bus s = .next t) :
    ∃ c, s.codec? bus = some c ∧ t = s.deliver (.initFrames c.initList) := by
  unfold execInitFrames at h
  split at h
  · cases h
  · next c hc => cases h; exact ⟨c, hc, rfl⟩

/-- What DECODE does: `UnknownFrame`, or every value register of one entry. -/
theorem execDecode_next {bus : Int} {raw : RawFrame} {s t : State} (h : execDecode bus raw s = .next t) :
    ∃ c, s.codec? bus = some c ∧ idFits s.cfg raw.busId = true ∧
      ((c.inTable.get? raw.busId = none ∧ t = s.enterRun.raise (.unknownFrameId raw.busId)) ∨
        ∃ f, c.inTable.get? raw.busId = some f ∧
          t = ((s.enterRun).setCodec bus
            (c.setFrame (.inbound raw.busId) (f.decoded (message raw.payload)))).deliver
              (.frame { bus := bus, key := .inbound raw.busId })) := by
  unfold execDecode at h
  split at h
  · cases h
  · next c hc =>
    refine ⟨c, hc, ?_⟩
    split at h
    · next hi =>
      refine ⟨hi, ?_⟩
      split at h
      · next hn => cases h; exact .inl ⟨hn, rfl⟩
      · next f hf => cases h; exact .inr ⟨f, hf, rfl⟩
    · cases h

theorem execDecode_of_known {bus : Int} {raw : RawFrame} {s : State} {c : Codec} {f : FrameEntry}
    (hc : s.codec? bus = some c) (hi : idFits s.cfg raw.busId = true) (hf : c.inTable.get? raw.busId = some f) :
    execDecode bus raw s = .next (((s.enterRun).setCodec bus
      (c.setFrame (.inbound raw.busId) (f.decoded (message raw.payload)))).deliver
        (.frame { bus := bus, key := .inbound raw.busId })) := by
  unfold execDecode
  simp only [hc, hi, hf, if_true]

/-- DECODE of an identifier whose handle finds an entry. -/
theorem execDecode_of_frame {bus : Int} {raw : RawFrame} {s : State} {f : FrameEntry}
    (hi : idFits s.cfg raw.busId = true) (hf : s.frame? { bus := bus, key := .inbound raw.busId } = some f) :
    execDecode bus raw s = .next ((s.enterRun.setFrame { bus := bus, key := .inbound raw.busId }
      (f.decoded (message raw.payload))).deliver (.frame { bus := bus, key := .inbound raw.busId })) := by
  obtain ⟨c, hc, hk⟩ := State.frame?_eq_some hf
  rw [execDecode_of_known hc hi hk]
  unfold State.setFrame
  simp only [show s.enterRun.codec? bus = some c from hc]

/-- What GET_TX does: `UnknownFrame`, or the live entry's handle. -/
theorem execGetTx_next {bus : Int} {n : Text} {s t : State} (h : execGetTx bus n s = .next t) :
    s.cfg.ser = true ∧ ∃ c, s.codec? bus = some c ∧
      ((c.outTable.get? n = none ∧ t = s.enterRun.raise (.unknownFrameName n)) ∨
        ∃ f, c.outTable.get? n = some f ∧ t = s.enterRun.deliver (.frame { bus := bus, key := .outbound n })) := by
  unfold execGetTx at h
  split at h
  · next hs =>
    refine ⟨hs, ?_⟩
    split at h
    · cases h
    · next c hc =>
      refine ⟨c, hc, ?_⟩
      split at h
      · next hn => cases h; exact .inl ⟨hn, rfl⟩
      · next f hf => cases h; exact .inr ⟨f, hf, rfl⟩
  · cases h

/-- What ENCODE does: `UnknownFrame`, or the raw frame. -/
theorem execEncode_next {bus : Int} {n : Text} {s t : State} (h : execEncode bus n s = .next t) :
    s.cfg.ser = true ∧ ∃ c, s.codec? bus = some c ∧
      ((c.outTable.get? n = none ∧ t = s.enterRun.raise (.unknownFrameName n)) ∨
        ∃ f, c.outTable.get? n = some f ∧ t = s.enterRun.deliver (.raw (f.encoded s.cfg.effBit))) := by
  unfold execEncode at h
  split at h
  · next hs =>
    refine ⟨hs, ?_⟩
    split at h
    · cases h
    · next c hc =>
      refine ⟨c, hc, ?_⟩
      split at h
      · next hn => cases h; exact .inl ⟨hn, rfl⟩
      · next f hf => cases h; exact .inr ⟨f, hf, rfl⟩
  · cases h

theorem execEncode_of_known {bus : Int} {n : Text} {s : State} {c : Codec} {f : FrameEntry} (hs : s.cfg.ser = true)
    (hc : s.codec? bus = some c) (hf : c.outTable.get? n = some f) :
    execEncode bus n s = .next (s.enterRun.deliver (.raw (f.encoded s.cfg.effBit))) := by
  unfold execEncode
  simp only [hs, hc, hf, if_true]

/-- ENCODE of a name whose handle finds an entry. -/
theorem execEncode_of_frame {bus : Int} {n : Text} {s : State} {f : FrameEntry} (hs : s.cfg.ser = true)
    (hf : s.frame? { bus := bus, key := .outbound n } = some f) :
    execEncode bus n s = .next (s.enterRun.deliver (.raw (f.encoded s.cfg.effBit))) := by
  obtain ⟨c, hc, hk⟩ := State.frame?_eq_some hf
  exact execEncode_of_known hs hc hk

/-! ## The binder's operations -/

/-- What BLOAD does. -/
theorem execBload_next {srcs : List (Int × List RouteDesc)} {s t : State} (h : execBload srcs s = .next t) :
    s.cfg.bind = true ∧ s.phase = .load ∧
      ∃ b, recordSources s.binder srcs = .ok b ∧ t = { s with binder := b }.deliver .ok := by
  unfold execBload at h
  split at h
  · next hb =>
    refine ⟨hb, ?_⟩
    split at h
    · cases h
    · next hp =>
      refine ⟨Phase.eq_load_of_ne_run hp, ?_⟩
      split at h
      · cases h
      · next b hr => cases h; exact ⟨b, hr, rfl⟩
  · cases h

/-- What REGISTER does: the diagnostic mapping, or a duplicate's error. -/
theorem execRegister_next {ls : List Leaf} {s t : State} (h : execRegister ls s = .next t) :
    s.cfg.bind = true ∧ s.phase = .load ∧
      ∃ b, (registerLeaves s.binder ls = (b, none) ∧ t = { s with binder := b }.deliver (.diag b.diag)) ∨
        ∃ n, registerLeaves s.binder ls = (b, some n) ∧ t = { s with binder := b }.raise (.duplicateFieldBinding n) := by
  unfold execRegister at h
  split at h
  · next hb =>
    refine ⟨hb, ?_⟩
    split at h
    · cases h
    · next hp =>
      refine ⟨Phase.eq_load_of_ne_run hp, ?_⟩
      split at h
      · next b hr => cases h; exact ⟨b, .inl ⟨hr, rfl⟩⟩
      · next b n hr => cases h; exact ⟨b, .inr ⟨n, hr, rfl⟩⟩
  · cases h

theorem execBload_of_agrees {srcs : List (Int × List RouteDesc)} {s : State} {b : Binder} (hb : s.cfg.bind = true)
    (hp : s.phase = .load) (hr : recordSources s.binder srcs = .ok b) :
    execBload srcs s = .next ({ s with binder := b }.deliver .ok) := by
  unfold execBload
  rw [hb, hp, hr]
  rfl

theorem execRegister_of_binds {ls : List Leaf} {s : State} {b : Binder} (hb : s.cfg.bind = true) (hp : s.phase = .load)
    (hr : registerLeaves s.binder ls = (b, none)) :
    execRegister ls s = .next ({ s with binder := b }.deliver (.diag b.diag)) := by
  unfold execRegister
  rw [hb, hp, hr]
  rfl

theorem execRegister_of_duplicate {ls : List Leaf} {s : State} {b : Binder} {n : Text} (hb : s.cfg.bind = true)
    (hp : s.phase = .load) (hr : registerLeaves s.binder ls = (b, some n)) :
    execRegister ls s = .next ({ s with binder := b }.raise (.duplicateFieldBinding n)) := by
  unfold execRegister
  rw [hb, hp, hr]
  rfl

/-- What XCHECK does. -/
theorem execXcheck_next {s t : State} (h : execXcheck s = .next t) :
    s.cfg.bind = true ∧
      t = (s.record (s.binder.unmapped.map .unmappedSignal)).deliver (.unmapped s.binder.unmapped) := by
  unfold execXcheck at h
  split at h
  · next hb => cases h; exact ⟨hb, rfl⟩
  · cases h

/-- What MAP_IN does on a live entry, by the four tests of 43_binder.md R172. -/
theorem mapInFrame_next {f : FrameEntry} {s t : State} (h : mapInFrame f s = .next t) :
    (f.syncPartner = none ∧ ∃ u, applyViews s [f.view] = .next u ∧ t = u.endMapIn s.binder.syncBuf .applied) ∨
    ∃ p, f.syncPartner = some p ∧
      ((s.binder.syncBuf = .empty ∧ t = s.endMapIn (.full f.snapshot) .buffered) ∨
      ∃ b, s.binder.syncBuf = .full b ∧
        ((b.name = p ∧ ∃ u, applyViews s [b.view, f.view] = .next u ∧ t = u.endMapIn .empty .appliedPair) ∨
        (b.name ≠ p ∧ b.name = f.name ∧ t = s.endMapIn (.full b) .duplicateDiscarded) ∨
        (b.name ≠ p ∧ b.name ≠ f.name ∧ t = s.endMapIn (.full f.snapshot) .replaced))) := by
  unfold mapInFrame at h
  split at h
  · next hp => exact .inl ⟨hp, applyThenEnd_next h⟩
  · next p hp =>
    refine .inr ⟨p, hp, ?_⟩
    split at h
    · next he => cases h; exact .inl ⟨he, rfl⟩
    · next b hb =>
      refine .inr ⟨b, hb, ?_⟩
      split at h
      · next h1 => exact .inl ⟨h1, applyThenEnd_next h⟩
      · next h1 =>
        split at h
        · next h2 => cases h; exact .inr (.inl ⟨h1, h2, rfl⟩)
        · next h2 => cases h; exact .inr (.inr ⟨h1, h2, rfl⟩)

/-- What MAP_IN does. -/
theorem execMapIn_next {hd : Handle} {s t : State} (h : execMapIn hd s = .next t) :
    s.cfg.bind = true ∧ ∃ f, s.frame? hd = some f ∧ mapInFrame f s.enterRun = .next t := by
  unfold execMapIn at h
  split at h
  · next hb =>
    refine ⟨hb, ?_⟩
    split at h
    · cases h
    · next f hf => exact ⟨f, hf, h⟩
  · cases h

theorem execMapIn_of_frame {hd : Handle} {s : State} {f : FrameEntry} (hb : s.cfg.bind = true) (hf : s.frame? hd = some f) :
    execMapIn hd s = mapInFrame f s.enterRun := by
  unfold execMapIn
  simp only [hb, hf, if_true]

/-- When MAP_IN faults: where `Apply` does, on the frame or on the pair. -/
theorem execMapIn_fault {hd : Handle} {s : State} {r : Fault} (h : execMapIn hd s = .fault r) :
    s.cfg.bind = true ∧ ∃ f, s.frame? hd = some f ∧
      ((f.syncPartner = none ∧ applyViews s.enterRun [f.view] = .fault r) ∨
        ∃ b, s.binder.syncBuf = .full b ∧ f.syncPartner = some b.name ∧
          applyViews s.enterRun [b.view, f.view] = .fault r) := by
  unfold execMapIn at h
  split at h
  · next hb =>
    refine ⟨hb, ?_⟩
    split at h
    · cases h
    · next f hf =>
      refine ⟨f, hf, ?_⟩
      unfold mapInFrame at h
      split at h
      · next hp => exact .inl ⟨hp, applyThenEnd_fault.1 h⟩
      · next p hp =>
        split at h
        · cases h
        · next b hs =>
          split at h
          · next e => exact .inr ⟨b, hs, e ▸ hp, applyThenEnd_fault.1 h⟩
          · split at h <;> cases h
  · cases h

/-- When MAP_OUT faults. -/
theorem execMapOut_fault {hd : Handle} {s : State} {r : Fault} (h : execMapOut hd s = .fault r) :
    s.cfg.bind = true ∧ ∃ f, s.frame? hd = some f ∧ ∃ a ∈ accessesOf s.binder.outBind f.view,
      s.cfg.hasBytes a.addr a.count = false ∧ r = .noSuchFieldAddress a.addr := by
  unfold execMapOut at h
  split at h
  · next hb =>
    refine ⟨hb, ?_⟩
    split at h
    · cases h
    · next f hf =>
      refine ⟨f, hf, ?_⟩
      unfold mapOutFrame at h
      split at h
      · cases h
      · split at h
        · next a ha =>
          cases h
          exact ⟨a, (mem_of_outsideMemory ha).1, (mem_of_outsideMemory ha).2, rfl⟩
        · cases h
  · cases h

theorem execMapOut_of_outside {hd : Handle} {s : State} {f : FrameEntry} {a : FieldAccess} (hb : s.cfg.bind = true)
    (hf : s.frame? hd = some f) (h1 : tooWide s.binder.outBind f.view = none)
    (h2 : outsideMemory s.cfg (accessesOf s.binder.outBind f.view) = some a) :
    execMapOut hd s = .fault (.noSuchFieldAddress a.addr) := by
  unfold execMapOut mapOutFrame
  simp only [hb, hf, if_true, State.enterRun_binder, State.enterRun_cfg, h1, h2]

/-- No operation but MAP_IN and MAP_OUT faults. -/
theorem exec_ne_fault {i : Instr} (hi : ∀ h, i ≠ .mapIn h ∧ i ≠ .mapOut h) (s : State) (r : Fault) : exec i s ≠ .fault r := by
  intro h
  cases i
  case mapIn hd => exact (hi hd).1 rfl
  case mapOut hd => exact (hi hd).2 rfl
  all_goals
    simp only [exec, execLoad, execLoadInit, execInitFrames, execDecode, execGetTx, execEncode, execBload, execRegister,
      execXcheck, execRoute] at h
    repeat' split at h
    all_goals cases h

/-- What MAP_OUT does. -/
theorem execMapOut_next {hd : Handle} {s t : State} (h : execMapOut hd s = .next t) :
    s.cfg.bind = true ∧ ∃ f, s.frame? hd = some f ∧ tooWide s.binder.outBind f.view = none ∧
      outsideMemory s.cfg (accessesOf s.binder.outBind f.view) = none ∧
      t = ((s.enterRun.setFrame hd (f.loadedFrom s.binder.outBind s.fieldMem)).record
        (missesOf s.binder.outBind f.view)).deliver .ok := by
  unfold execMapOut at h
  split at h
  · next hb =>
    refine ⟨hb, ?_⟩
    split at h
    · cases h
    · next f hf =>
      refine ⟨f, hf, ?_⟩
      unfold mapOutFrame at h
      split at h
      · cases h
      · next h1 =>
        split at h
        · cases h
        · next h2 => cases h; exact ⟨h1, h2, rfl⟩
  · cases h

theorem execMapOut_of_fits {hd : Handle} {s : State} {f : FrameEntry} (hb : s.cfg.bind = true)
    (hf : s.frame? hd = some f) (h1 : tooWide s.binder.outBind f.view = none)
    (h2 : outsideMemory s.cfg (accessesOf s.binder.outBind f.view) = none) :
    execMapOut hd s = .next (((s.enterRun.setFrame hd (f.loadedFrom s.binder.outBind s.fieldMem)).record
        (missesOf s.binder.outBind f.view)).deliver .ok) := by
  unfold execMapOut mapOutFrame
  simp only [hb, hf, if_true, State.enterRun_binder, State.enterRun_cfg, State.enterRun_fieldMem, h1, h2]

/-- What ROUTE does. -/
theorem execRoute_next {s t : State} (h : execRoute s = .next t) :
    s.cfg.bind = true ∧ t = s.deliver (.routing s.binder.routing) := by
  unfold execRoute at h
  split at h
  · next hb => cases h; exact ⟨hb, rfl⟩
  · cases h

end Sys2Proof.Machine
end

