-- ==== Sys2Proof/Laws/Memory.lean ====
section
/-! SUPPORT. The laws of field memory (00_scope.md R14): a read after a write, everything a write leaves alone, and that
every memory operation keeps the one form. -/

namespace Sys2Proof.Machine

open Sys2Proof

theorem hasBytes_iff (c : Config) (addr n : Nat) :
    c.hasBytes addr n = true ↔ ∀ k, k < n → c.hasByte (addr + k) = true := by
  simp [Config.hasBytes]

theorem hasBytes_mono {c : Config} {addr n m : Nat} (hn : n ≤ m) (h : c.hasBytes addr m = true) : c.hasBytes addr n = true :=
  (hasBytes_iff _ _ _).2 fun k hk => (hasBytes_iff _ _ _).1 h k (by omega)

/-- The first byte and the bytes after it. -/
theorem hasBytes_succ {c : Config} {addr n : Nat} (h : c.hasBytes addr (n + 1) = true) :
    c.hasByte addr = true ∧ c.hasBytes (addr + 1) n = true := by
  rw [hasBytes_iff] at h ⊢
  exact ⟨h 0 (by omega), fun k hk => by rw [Nat.add_assoc, Nat.add_comm 1 k]; exact h (k + 1) (by omega)⟩

theorem Memory.read_cons (b a : Nat) (v : Byte) (m : Memory) :
    Memory.read ((b, v) :: m) a = if b = a then v else Memory.read m a := rfl

/-- An address above or below every listed one reads as unlisted. -/
theorem Memory.read_of_not_mem {m : Memory} {a : Nat} (h : a ∉ m.map Prod.fst) : m.read a = unlistedByte := by
  induction m with
  | nil => rfl
  | cons c m ih =>
    obtain ⟨b, v⟩ := c
    simp only [List.map_cons, List.mem_cons, not_or] at h
    rw [Memory.read_cons, if_neg (fun e => h.1 e.symm), ih h.2]

theorem Memory.read_place_self (m : Memory) (a : Nat) (v : Byte) : (m.place a v).read a = v := by
  induction m with
  | nil => simp [Memory.place, Memory.read_cons]
  | cons c m ih =>
    obtain ⟨b, w⟩ := c
    unfold Memory.place
    split
    · simp [Memory.read_cons]
    · split
      · simp [Memory.read_cons]
      · next h _ => rw [Memory.read_cons, if_neg h, ih]

theorem Memory.read_place_of_ne (m : Memory) {a b : Nat} (v : Byte) (h : a ≠ b) : (m.place a v).read b = m.read b := by
  induction m with
  | nil => simp [Memory.place, Memory.read_cons, h]
  | cons c m ih =>
    obtain ⟨d, w⟩ := c
    unfold Memory.place
    split
    · next e => subst e; simp [Memory.read_cons, h]
    · split
      · simp [Memory.read_cons, h]
      · simp only [Memory.read_cons, ih]

theorem Memory.read_erase_of_ne (m : Memory) {a b : Nat} (h : a ≠ b) : (m.erase a).read b = m.read b := by
  induction m with
  | nil => rfl
  | cons c m ih =>
    obtain ⟨d, w⟩ := c
    unfold Memory.erase
    split
    · next e => subst e; simp [Memory.read_cons, h]
    · simp only [Memory.read_cons, ih]

theorem Memory.read_erase_self {m : Memory} (h : (m.map Prod.fst).Pairwise (· < ·)) (a : Nat) :
    (m.erase a).read a = unlistedByte := by
  induction m with
  | nil => rfl
  | cons c m ih =>
    obtain ⟨d, w⟩ := c
    simp only [List.map_cons, List.pairwise_cons] at h
    unfold Memory.erase
    split
    · next e =>
      subst e
      exact Memory.read_of_not_mem fun hd => Nat.lt_irrefl _ (h.1 _ hd)
    · next e => rw [Memory.read_cons, if_neg e, ih h.2]

/-- A write leaves every other byte alone. -/
theorem Memory.read_write_of_ne (m : Memory) {a b : Nat} (v : Byte) (h : a ≠ b) : (m.write a v).read b = m.read b := by
  unfold Memory.write
  split
  · exact Memory.read_erase_of_ne m h
  · exact Memory.read_place_of_ne m v h

/-- A byte reads back as it was written. -/
theorem Memory.read_write_self {m : Memory} (h : Memory.wf m) (a : Nat) (v : Byte) : (m.write a v).read a = v := by
  unfold Memory.write
  split
  · next e => rw [Memory.read_erase_self h.1, e]
  · exact Memory.read_place_self m a v

theorem Memory.mem_place {m : Memory} {a : Nat} {v : Byte} {c : Host.Cell} (h : c ∈ m.place a v) :
    c = (a, v) ∨ c ∈ m := by
  induction m with
  | nil => simpa [Memory.place] using h
  | cons d m ih =>
    obtain ⟨b, w⟩ := d
    unfold Memory.place at h
    split at h
    · rcases List.mem_cons.1 h with h | h
      · exact .inl h
      · exact .inr (List.mem_cons_of_mem _ h)
    · split at h
      · rcases List.mem_cons.1 h with h | h
        · exact .inl h
        · exact .inr h
      · rcases List.mem_cons.1 h with h | h
        · exact .inr (h ▸ List.mem_cons_self)
        · rcases ih h with h | h
          · exact .inl h
          · exact .inr (List.mem_cons_of_mem _ h)

theorem Memory.mem_erase {m : Memory} {a : Nat} {c : Host.Cell} (h : c ∈ m.erase a) : c ∈ m := by
  induction m with
  | nil => simp [Memory.erase] at h
  | cons d m ih =>
    obtain ⟨b, w⟩ := d
    unfold Memory.erase at h
    split at h
    · exact List.mem_cons_of_mem _ h
    · rcases List.mem_cons.1 h with h | h
      · exact h ▸ List.mem_cons_self
      · exact List.mem_cons_of_mem _ (ih h)

theorem Memory.sorted_place {m : Memory} (h : (m.map Prod.fst).Pairwise (· < ·)) (a : Nat) (v : Byte) :
    ((m.place a v).map Prod.fst).Pairwise (· < ·) := by
  induction m with
  | nil => simp [Memory.place]
  | cons c m ih =>
    obtain ⟨b, w⟩ := c
    simp only [List.map_cons, List.pairwise_cons] at h
    unfold Memory.place
    split
    · next e => subst e; simpa using h
    · next e =>
      split
      · next hab =>
        simp only [List.map_cons, List.pairwise_cons, List.mem_cons, forall_eq_or_imp]
        exact ⟨⟨hab, fun x hx => Nat.lt_trans hab (h.1 x hx)⟩, h⟩
      · next hab =>
        simp only [List.map_cons, List.pairwise_cons]
        refine ⟨fun x hx => ?_, ih h.2⟩
        obtain ⟨c, hc, rfl⟩ := List.mem_map.1 hx
        rcases Memory.mem_place hc with rfl | hc
        · exact Nat.lt_of_le_of_ne (Nat.le_of_not_lt hab) e
        · exact h.1 _ (List.mem_map_of_mem hc)

theorem Memory.sorted_erase {m : Memory} (h : (m.map Prod.fst).Pairwise (· < ·)) (a : Nat) :
    ((m.erase a).map Prod.fst).Pairwise (· < ·) := by
  induction m with
  | nil => simp [Memory.erase]
  | cons c m ih =>
    obtain ⟨b, w⟩ := c
    simp only [List.map_cons, List.pairwise_cons] at h
    unfold Memory.erase
    split
    · exact h.2
    · simp only [List.map_cons, List.pairwise_cons]
      refine ⟨fun x hx => ?_, ih h.2⟩
      obtain ⟨c, hc, rfl⟩ := List.mem_map.1 hx
      exact h.1 _ (List.mem_map_of_mem (Memory.mem_erase hc))

/-- A write keeps the one form of a memory. -/
theorem Memory.wf_write {m : Memory} (h : Memory.wf m) (a : Nat) (v : Byte) : Memory.wf (m.write a v) := by
  unfold Memory.write
  split
  · exact ⟨Memory.sorted_erase h.1 a, fun c hc => h.2 c (Memory.mem_erase hc)⟩
  · next hv =>
    refine ⟨Memory.sorted_place h.1 a v, fun c hc => ?_⟩
    rcases Memory.mem_place hc with rfl | hc
    · exact hv
    · exact h.2 c hc

/-- A write inside the memory keeps it inside. -/
theorem Memory.inside_write {cfg : Config} {m : Memory} (h : Memory.inside cfg m) {a : Nat} (ha : cfg.hasByte a = true)
    (v : Byte) : Memory.inside cfg (m.write a v) := by
  refine ⟨Memory.wf_write h.1 a v, fun c hc => ?_⟩
  unfold Memory.write at hc
  split at hc
  · exact h.2 c (Memory.mem_erase hc)
  · rcases Memory.mem_place hc with rfl | hc
    · exact ha
    · exact h.2 c hc

/-- `MemWrite` leaves every byte outside its range alone (00_scope.md R14). -/
theorem memWrite_read_outside (m : Memory) (addr n : Nat) (v : Word) {a : Nat} (h : a < addr ∨ addr + n ≤ a) :
    (memWrite m addr n v).read a = m.read a := by
  induction n generalizing m addr v with
  | zero => rfl
  | succ n ih =>
    unfold memWrite
    rw [ih _ _ _ (by omega), Memory.read_write_of_ne _ _ (by omega)]

theorem memWrite_inside {cfg : Config} {m : Memory} (h : Memory.inside cfg m) {addr n : Nat}
    (hn : cfg.hasBytes addr n = true) (v : Word) : Memory.inside cfg (memWrite m addr n v) := by
  induction n generalizing m addr v with
  | zero => exact h
  | succ n ih =>
    unfold memWrite
    exact ih (Memory.inside_write h (hasBytes_succ hn).1 _) (hasBytes_succ hn).2 _

/-- `MemWrite` keeps the one form. -/
theorem memWrite_wf {m : Memory} (h : Memory.wf m) (addr n : Nat) (v : Word) : Memory.wf (memWrite m addr n v) := by
  induction n generalizing m addr v with
  | zero => exact h
  | succ n ih =>
    unfold memWrite
    exact ih (Memory.wf_write h _ _) _ _

/-- The platform's write keeps the one form and stays inside. -/
theorem writeBytes_inside {cfg : Config} {m : Memory} (h : Memory.inside cfg m) {addr : Nat} {bs : List Byte}
    (hn : cfg.hasBytes addr bs.length = true) : Memory.inside cfg (writeBytes m addr bs) := by
  induction bs generalizing m addr with
  | nil => exact h
  | cons b bs ih =>
    simp only [List.length_cons] at hn
    unfold writeBytes
    exact ih (Memory.inside_write h (hasBytes_succ hn).1 _) (hasBytes_succ hn).2

theorem writeBytes_wf {m : Memory} (h : Memory.wf m) (addr : Nat) (bs : List Byte) :
    Memory.wf (writeBytes m addr bs) := by
  induction bs generalizing m addr with
  | nil => exact h
  | cons b bs ih =>
    unfold writeBytes
    exact ih (Memory.wf_write h _ _) _

/-- The platform's write leaves every byte outside its range alone. -/
theorem writeBytes_read_outside (m : Memory) (addr : Nat) (bs : List Byte) {a : Nat}
    (h : a < addr ∨ addr + bs.length ≤ a) : (writeBytes m addr bs).read a = m.read a := by
  induction bs generalizing m addr with
  | nil => rfl
  | cons b bs ih =>
    simp only [List.length_cons] at h
    unfold writeBytes
    rw [ih _ _ (by omega), Memory.read_write_of_ne _ _ (by omega)]

/-- The platform's write puts each byte at its address. -/
theorem writeBytes_read_inside {m : Memory} (h : Memory.wf m) (addr : Nat) (bs : List Byte) {k : Nat}
    (hk : k < bs.length) : (writeBytes m addr bs).read (addr + k) = bs[k] := by
  induction bs generalizing m addr k with
  | nil => simp at hk
  | cons b bs ih =>
    unfold writeBytes
    cases k with
    | zero => rw [writeBytes_read_outside _ _ _ (by omega)]; exact Memory.read_write_self h addr b
    | succ k =>
      have := ih (Memory.wf_write h addr b) (addr + 1) (k := k) (by simpa using hk)
      rw [show addr + (k + 1) = addr + 1 + k by omega, this]
      rfl

/-- Byte `k` of what `MemWrite` wrote (00_scope.md R14, 20_memory.md R56: least significant byte first). -/
theorem memWrite_read_inside {m : Memory} (h : Memory.wf m) (addr n : Nat) (v : Word) {k : Nat} (hk : k < n) :
    (memWrite m addr n v).read (addr + k) = (v >>> (8 * k)).setWidth 8 := by
  induction n generalizing m addr v k with
  | zero => omega
  | succ n ih =>
    unfold memWrite
    cases k with
    | zero =>
      rw [memWrite_read_outside _ _ _ _ (by omega)]
      simpa using Memory.read_write_self h addr _
    | succ k =>
      rw [show addr + (k + 1) = addr + 1 + k by omega, ih (Memory.wf_write h _ _) (addr + 1) (v >>> 8) (by omega),
        ← BitVec.shiftRight_add, show 8 + 8 * k = 8 * (k + 1) by omega]

/-- Every access leaves the bytes outside all of them alone. -/
theorem applyAccesses_read_outside (m : Memory) (as : List FieldAccess) {a : Nat}
    (h : ∀ x ∈ as, a < x.addr ∨ x.addr + x.count ≤ a) : (applyAccesses m as).read a = m.read a := by
  unfold applyAccesses
  induction as generalizing m with
  | nil => rfl
  | cons x as ih =>
    simp only [List.mem_cons, forall_eq_or_imp] at h
    rw [List.foldl_cons, ih _ h.2, memWrite_read_outside _ _ _ _ h.1]

theorem applyAccesses_inside {cfg : Config} {m : Memory} (h : Memory.inside cfg m) {as : List FieldAccess}
    (ha : ∀ x ∈ as, cfg.hasBytes x.addr x.count = true) : Memory.inside cfg (applyAccesses m as) := by
  unfold applyAccesses
  induction as generalizing m with
  | nil => exact h
  | cons x as ih =>
    simp only [List.mem_cons, forall_eq_or_imp] at ha
    exact ih (memWrite_inside h ha.1 _) ha.2

theorem applyAccesses_wf {m : Memory} (h : Memory.wf m) (as : List FieldAccess) : Memory.wf (applyAccesses m as) := by
  unfold applyAccesses
  induction as generalizing m with
  | nil => exact h
  | cons x as ih => exact ih (memWrite_wf h _ _ _)

theorem applyAccesses_cons (m : Memory) (x : FieldAccess) (as : List FieldAccess) :
    applyAccesses m (x :: as) = applyAccesses (memWrite m x.addr x.count x.value) as := rfl

/-- Byte `k` of an access that no other access of the list meets. -/
theorem applyAccesses_read_inside {as : List FieldAccess} {m : Memory} (hm : Memory.wf m) {x : FieldAccess} (hx : x ∈ as)
    (hd : ∀ y ∈ as, y ≠ x → y.addr + y.count ≤ x.addr ∨ x.addr + x.count ≤ y.addr) {k : Nat} (hk : k < x.count) :
    (applyAccesses m as).read (x.addr + k) = (x.value >>> (8 * k)).setWidth 8 := by
  induction as generalizing m with
  | nil => cases hx
  | cons y as ih =>
    rw [applyAccesses_cons]
    by_cases hxa : x ∈ as
    · exact ih (memWrite_wf hm _ _ _) hxa fun z hz => hd z (List.mem_cons_of_mem _ hz)
    · have e : y = x := by
        rcases List.mem_cons.1 hx with h | h
        · exact h.symm
        · exact absurd h hxa
      subst e
      rw [applyAccesses_read_outside, memWrite_read_inside hm _ _ _ hk]
      intro z hz
      have := hd z (List.mem_cons_of_mem _ hz) fun e => hxa (e ▸ hz)
      omega

/-- The memory of the reset state has the one form. -/
theorem reset_fieldMem_wf : Memory.wf State.reset.fieldMem := by decide

end Sys2Proof.Machine
end

