-- ==== Sys2Proof/Laws/Binder.lean ====
section
/-! SUPPORT. The laws of the binder (43_binder.md): when a copy is wide or outside the memory, what BLOAD and REGISTER leave
of the tables. -/

namespace Sys2Proof.Machine

open Sys2Proof

/-! ## Accesses -/

/-- No copy of the view is wider than its field. -/
theorem tooWide_eq_none_iff (b : FMap Text Binding) (v : View) :
    tooWide b v = none ↔ ∀ g ∈ v.analog, ∀ bd, b.get? g.name = some bd → ceil8 g.size ≤ bd.bytes := by
  unfold tooWide
  rw [Option.map_eq_none_iff, List.find?_eq_none]
  refine forall₂_congr fun g _ => ?_
  cases b.get? g.name <;> simp

/-- An access of a view is that of a bound analog signal or of a bound digital one (43_binder.md R176). -/
theorem mem_accessesOf (b : FMap Text Binding) (v : View) (x : FieldAccess) :
    x ∈ accessesOf b v ↔
      (∃ g ∈ v.analog, ∃ bd, b.get? g.name = some bd ∧ x = ⟨bd.addr, ceil8 g.size, g.value⟩) ∨
      ∃ g ∈ v.digital, ∃ bd, b.get? g.name = some bd ∧ x = ⟨bd.addr, 1, if g.value then 1 else 0⟩ := by
  unfold accessesOf
  rw [List.mem_append, List.mem_filterMap, List.mem_filterMap]
  refine or_congr (exists_congr fun g => and_congr_right fun _ => ?_) (exists_congr fun g => and_congr_right fun _ => ?_)
  · unfold analogAccess
    cases b.get? g.name with
    | none => simp
    | some bd => simp [eq_comm (a := x)]
  · unfold digitalAccess
    cases b.get? g.name with
    | none => simp
    | some bd => simp [eq_comm (a := x)]

theorem outsideMemory_eq_none_iff (c : Config) (as : List FieldAccess) :
    outsideMemory c as = none ↔ ∀ x ∈ as, c.hasBytes x.addr x.count = true := by
  unfold outsideMemory
  rw [List.find?_eq_none]
  simp

/-- With bindings inside the memory and no copy wider than its field, every access is inside. -/
theorem accesses_inside {c : Config} {b : FMap Text Binding} {v : View}
    (hb : ∀ n bd, b.get? n = some bd → bd.bytes = bd.kind.bytes ∧ c.hasBytes bd.addr bd.bytes = true)
    (hw : tooWide b v = none) : outsideMemory c (accessesOf b v) = none := by
  rw [outsideMemory_eq_none_iff]
  rw [tooWide_eq_none_iff] at hw
  intro x hx
  rcases (mem_accessesOf b v x).1 hx with ⟨g, hg, bd, hbd, rfl⟩ | ⟨g, hg, bd, hbd, rfl⟩
  · have := hw g hg bd hbd
    exact hasBytes_mono this (hb _ _ hbd).2
  · obtain ⟨h1, h2⟩ := hb _ _ hbd
    have : 1 ≤ bd.kind.bytes := by cases bd.kind <;> decide
    exact hasBytes_mono (h1 ▸ this) h2

/-! ## BLOAD -/

/-- `FMap.agree` records the value, or finds another. -/
theorem FMap.agree_eq_some {K V : Type} [DecidableEq K] [LT K] [DecidableLT K] [DecidableEq V] {m m' : FMap K V} {k : K}
    {v : V} (h : m.agree k v = some m') :
    (∀ w, m.get? k = some w → w = v) ∧ ∀ j, m'.get? j = if k = j then some v else m.get? j := by
  unfold FMap.agree at h
  split at h
  · next hn => cases h; exact ⟨fun w hw => absurd (hn ▸ hw) (by simp), fun j => FMap.get?_insert m k j v⟩
  · next w hw =>
    split at h
    · next e =>
      cases h
      subst e
      refine ⟨fun u hu => Option.some.inj (hu.symm.trans hw), fun j => ?_⟩
      split
      · next e => rw [← e, hw]
      · rfl
    · cases h

theorem FMap.agree_eq_none {K V : Type} [DecidableEq K] [LT K] [DecidableLT K] [DecidableEq V] {m : FMap K V} {k : K}
    {v : V} (h : m.agree k v = none) : ∃ w, m.get? k = some w ∧ w ≠ v := by
  unfold FMap.agree at h
  split at h
  · cases h
  · next w hw =>
    split at h
    · cases h
    · next e => exact ⟨w, hw, e⟩

theorem FMap.wf_agree {K V : Type} [DecidableEq K] [LT K] [DecidableLT K] [DecidableEq V] (o : KeyOrder K)
    {m m' : FMap K V} {k : K} {v : V} (hm : FMap.wf m) (h : m.agree k v = some m') : FMap.wf m' := by
  unfold FMap.agree at h
  split at h
  · cases h; exact FMap.wf_insert o hm k v
  · split at h
    · cases h; exact hm
    · cases h

/-- A property of the registry and the routes that every record keeps is kept by BLOAD, and everything else of the binder
stays. -/
theorem recordSources_induct (P : FMap Text Dir → Prop) (Q : FMap Text Int → Prop)
    (hP : ∀ m m' n d, P m → FMap.agree m n d = some m' → P m') (hQ : ∀ m m' n b, Q m → FMap.agree m n b = some m' → Q m')
    {srcs : List (Int × List RouteDesc)} {b b' : Binder} (h : recordSources b srcs = .ok b') (h1 : P b.dirReg)
    (h2 : Q b.routing) :
    P b'.dirReg ∧ Q b'.routing ∧ b'.inBind = b.inBind ∧ b'.outBind = b.outBind ∧ b'.syncBuf = b.syncBuf := by
  have dirsStep : ∀ dir ns r r', recordDirs dir r ns = .ok r' → P r → P r' := by
    intro dir ns
    induction ns with
    | nil => intro r r' h hr; cases h; exact hr
    | cons n ns ih =>
      intro r r' h hr
      unfold recordDirs at h
      split at h
      · next r1 h1 => exact ih _ _ h (hP _ _ _ _ hr h1)
      · cases h
  have frameStep : ∀ bus d b b', recordFrame bus b d = .ok b' → P b.dirReg → Q b.routing →
      P b'.dirReg ∧ Q b'.routing ∧ b'.inBind = b.inBind ∧ b'.outBind = b.outBind ∧ b'.syncBuf = b.syncBuf := by
    intro bus d b b' h h1 h2
    unfold recordFrame at h
    split at h
    · cases h
    · next routing hr =>
      split at h
      · cases h
      · next dirReg hd =>
        cases h
        refine ⟨dirsStep _ _ _ _ hd h1, ?_, rfl, rfl, rfl⟩
        unfold recordRoute at hr
        split at hr
        · cases hr; exact h2
        · split at hr
          · next hr' => cases hr; exact hQ _ _ _ _ h2 hr'
          · cases hr
  have framesStep : ∀ bus ds b b', recordFrames bus b ds = .ok b' → P b.dirReg → Q b.routing →
      P b'.dirReg ∧ Q b'.routing ∧ b'.inBind = b.inBind ∧ b'.outBind = b.outBind ∧ b'.syncBuf = b.syncBuf := by
    intro bus ds
    induction ds with
    | nil => intro b b' h h1 h2; cases h; exact ⟨h1, h2, rfl, rfl, rfl⟩
    | cons d ds ih =>
      intro b b' h h1 h2
      unfold recordFrames at h
      split at h
      · cases h
      · next b1 hb1 =>
        obtain ⟨p1, q1, e1, e2, e3⟩ := frameStep _ _ _ _ hb1 h1 h2
        obtain ⟨p2, q2, f1, f2, f3⟩ := ih _ _ h p1 q1
        exact ⟨p2, q2, f1.trans e1, f2.trans e2, f3.trans e3⟩
  induction srcs generalizing b with
  | nil => cases h; exact ⟨h1, h2, rfl, rfl, rfl⟩
  | cons p ps ih =>
    unfold recordSources at h
    split at h
    · cases h
    · next b1 hb1 =>
      obtain ⟨p1, q1, e1, e2, e3⟩ := framesStep _ _ _ _ hb1 h1 h2
      obtain ⟨p2, q2, f1, f2, f3⟩ := ih h p1 q1
      exact ⟨p2, q2, f1.trans e1, f2.trans e2, f3.trans e3⟩

/-! ## REGISTER -/

@[simp] theorem Binder.bindLeaf_dirReg (b : Binder) (d : Dir) (l : Leaf) : (b.bindLeaf d l).dirReg = b.dirReg := by
  cases d <;> rfl

@[simp] theorem Binder.bindLeaf_routing (b : Binder) (d : Dir) (l : Leaf) : (b.bindLeaf d l).routing = b.routing := by
  cases d <;> rfl

@[simp] theorem Binder.bindLeaf_syncBuf (b : Binder) (d : Dir) (l : Leaf) : (b.bindLeaf d l).syncBuf = b.syncBuf := by
  cases d <;> rfl

/-- REGISTER leaves the registry, the routes and the buffer as they are. -/
theorem registerLeaves_keeps (b : Binder) (ls : List Leaf) :
    (registerLeaves b ls).1.dirReg = b.dirReg ∧ (registerLeaves b ls).1.routing = b.routing ∧
      (registerLeaves b ls).1.syncBuf = b.syncBuf := by
  induction ls generalizing b with
  | nil => exact ⟨rfl, rfl, rfl⟩
  | cons l ls ih =>
    unfold registerLeaves
    split
    · exact ih b
    · split
      · exact ⟨rfl, rfl, rfl⟩
      · simpa using ih (b.bindLeaf _ l)

/-- A property of a binder that every binding of a known, unbound leaf keeps is kept by REGISTER. -/
theorem registerLeaves_induct (P : Binder → Prop) {ls : List Leaf}
    (hbind : ∀ b l d, P b → l ∈ ls → b.dirReg.get? l.name = some d → b.bound l.name = false → P (b.bindLeaf d l))
    {b : Binder} (hb : P b) : P (registerLeaves b ls).1 := by
  induction ls generalizing b with
  | nil => exact hb
  | cons l ls ih =>
    have ih := @ih fun b m d hp hm => hbind b m d hp (List.mem_cons_of_mem _ hm)
    unfold registerLeaves
    split
    · exact ih hb
    · next d hd =>
      split
      · exact hb
      · next hn => exact ih (hbind b l d hb List.mem_cons_self hd (by simpa using hn))

end Sys2Proof.Machine
end

