-- ==== Sys2Proof/Laws/Decode.lean ====
section
/-! SUPPORT. The laws of the decoder (30_encoding.md): what each operation code selects, what digits read as, and that resolving
the object of a descriptor gives the descriptor. -/

namespace Sys2Proof

/-! ## What each code selects (30_encoding.md R88) -/

@[simp] theorem decode_load (o : Operand) : decode ⟨0x1, o⟩ = decodeLoad o := rfl

@[simp] theorem decode_loadInit (o : Operand) : decode ⟨0x2, o⟩ = decodeLoadInit o := rfl

@[simp] theorem decode_initFrames (o : Operand) : decode ⟨0x3, o⟩ = decodeInitFrames o := rfl

@[simp] theorem decode_decode (o : Operand) : decode ⟨0x4, o⟩ = decodeDecode o := rfl

@[simp] theorem decode_getTx (o : Operand) : decode ⟨0x5, o⟩ = decodeGetTx o := rfl

@[simp] theorem decode_encode (o : Operand) : decode ⟨0x6, o⟩ = decodeEncode o := rfl

@[simp] theorem decode_bload (o : Operand) : decode ⟨0x8, o⟩ = decodeBload o := rfl

@[simp] theorem decode_register (o : Operand) : decode ⟨0x9, o⟩ = decodeRegister o := rfl

@[simp] theorem decode_xcheck (o : Operand) : decode ⟨0xA, o⟩ = decodeXcheck o := rfl

@[simp] theorem decode_mapIn (o : Operand) : decode ⟨0xB, o⟩ = decodeMapIn o := rfl

@[simp] theorem decode_mapOut (o : Operand) : decode ⟨0xC, o⟩ = decodeMapOut o := rfl

@[simp] theorem decode_route (o : Operand) : decode ⟨0xD, o⟩ = decodeRoute o := rfl

/-! ## Digits (30_encoding.md R76, R80) -/

theorem hexDigit_value (n : Nat) (h : n < 16) : digitValue (hexDigit n) = some n := by
  have : ∀ k : Fin 16, digitValue (hexDigit k.val) = some k.val := by decide
  exact this ⟨n, h⟩

theorem hexDigit_not_mark (n : Nat) (h : n < 16) : hexDigit n ≠ 'x' ∧ hexDigit n ≠ 'X' := by
  have : ∀ k : Fin 16, hexDigit k.val ≠ 'x' ∧ hexDigit k.val ≠ 'X' := by decide
  exact this ⟨n, h⟩

/-- Characters that are digits of a base read as the number they spell. -/
theorem readDigits_map {α : Type} (base : Nat) (ch : α → Char) (val : α → Nat) (hn : ∀ d, val d < base)
    (hv : ∀ d, digitValue (ch d) = some (val d)) (acc : Nat) (ds : List α) :
    readDigits base acc (ds.map ch) = some ((ds.map val).foldl (fun acc d => acc * base + d) acc) := by
  induction ds generalizing acc with
  | nil => rfl
  | cons d ds ih =>
    simp only [List.map_cons, readDigits, hv]
    rw [if_pos (hn d), ih]
    rfl

theorem readNumber_map {α : Type} (base : Nat) (ch : α → Char) (val : α → Nat) (hn : ∀ d, val d < base)
    (hv : ∀ d, digitValue (ch d) = some (val d)) (ds : List α) :
    readNumber base (ds.map ch) = if ds = [] then none else some ((ds.map val).foldl (fun acc d => acc * base + d) 0) := by
  cases ds with
  | nil => rfl
  | cons d ds =>
    rw [if_neg (by simp), ← readDigits_map base ch val hn hv]
    rfl

/-- A character that is no digit spoils the number. -/
theorem readDigits_of_no_digit (base acc : Nat) (t : Text) (h : ∃ c ∈ t, digitValue c = none) :
    readDigits base acc t = none := by
  induction t generalizing acc with
  | nil => simp at h
  | cons c t ih =>
    obtain ⟨b, hb, hv⟩ := h
    unfold readDigits
    rcases List.mem_cons.1 hb with rfl | hb
    · rw [hv]
    · cases hc : digitValue c with
      | none => rfl
      | some d =>
        simp only
        split
        · exact ih _ ⟨b, hb, hv⟩
        · rfl

theorem dropHexMark_of_no_mark (t : Text) (h : ∀ c ∈ t, c ≠ 'x' ∧ c ≠ 'X') : dropHexMark t = t := by
  unfold dropHexMark
  split
  · exact absurd rfl (h 'x' (by simp)).1
  · exact absurd rfl (h 'X' (by simp)).2
  · rfl

/-- The digits of weight 16^(k-1) down to 16^0 spell the number below 16^k. -/
theorem foldl_hexDigits (w k acc : Nat) :
    ((List.range k).reverse.map fun i => w / 16 ^ i % 16).foldl (fun acc d => acc * 16 + d) acc =
      acc * 16 ^ k + w % 16 ^ k := by
  induction k generalizing acc with
  | zero => simp [Nat.mod_one]
  | succ k ih =>
    rw [List.range_succ, List.reverse_append, List.reverse_singleton, List.map_append, List.foldl_append, ih,
      Nat.mod_pow_succ]
    simp only [List.map_cons, List.map_nil, List.foldl_cons, List.foldl_nil]
    rw [Nat.pow_succ, Nat.add_mul, Nat.mul_assoc, Nat.mul_comm 16 (16 ^ k), Nat.mul_comm (w / 16 ^ k % 16)]
    omega

/-- An identifier's text reads as the identifier. -/
theorem readId_idText (w : Word) : readId (idText w) = some w := by
  have hm : dropHexMark (idText w) = idText w := by
    refine dropHexMark_of_no_mark _ fun c hc => ?_
    obtain ⟨i, _, rfl⟩ := List.mem_map.1 hc
    exact hexDigit_not_mark _ (Nat.mod_lt _ (by omega))
  have hd : readNumber 16 (idText w) = some w.toNat := by
    have h := readNumber_map 16 (fun i => hexDigit (w.toNat / 16 ^ i % 16)) (fun i => w.toNat / 16 ^ i % 16)
      (fun _ => Nat.mod_lt _ (by omega)) (fun _ => hexDigit_value _ (Nat.mod_lt _ (by omega))) (List.range 16).reverse
    rw [if_neg (by simp), foldl_hexDigits] at h
    refine Eq.trans h (congrArg some ?_)
    have := w.isLt
    omega
  unfold readId
  rw [hm, hd]
  simp [w.isLt]

/-! ## Objects and descriptors (40_load.md R103) -/

theorem resolveEach_map {α β : Type} (f : α → Except Reject β) (g : β → α) (l : List β) (h : ∀ x ∈ l, f (g x) = .ok x) :
    resolveEach f (l.map g) = .ok l := by
  induction l with
  | nil => rfl
  | cons x l ih =>
    simp only [List.map_cons, resolveEach, h x List.mem_cons_self, ih fun y hy => h y (List.mem_cons_of_mem _ hy)]

/-- A list resolves to what its elements resolve to, in order. -/
theorem resolveEach_eq_ok_iff {α β : Type} (f : α → Except Reject β) (l : List α) (l' : List β) :
    resolveEach f l = .ok l' ↔ List.Forall₂ (fun x y => f x = .ok y) l l' := by
  induction l generalizing l' with
  | nil => cases l' <;> simp [resolveEach]
  | cons x l ih =>
    unfold resolveEach
    cases hx : f x with
    | error e => simp [hx, List.forall₂_cons_left_iff]
    | ok y =>
      cases hl : resolveEach f l with
      | error e =>
        simp only [reduceCtorEq, false_iff, List.forall₂_cons_left_iff, not_exists, not_and]
        intro z u _ hu
        rw [(ih u).2 hu] at hl
        cases hl
      | ok ys =>
        simp only [Except.ok.injEq, List.forall₂_cons_left_iff, hx]
        constructor
        · rintro rfl
          exact ⟨y, ys, rfl, (ih ys).1 hl, rfl⟩
        · rintro ⟨z, u, rfl, hu, rfl⟩
          rw [(ih u).2 hu] at hl
          cases hl
          rfl

theorem resolveAnalog_analogObj (d : AnalogDesc) : resolveAnalog (analogObj d) = .ok d := by
  simp [resolveAnalog, analogObj, requiredMember, requiredNat, optionalMember, bind, Except.bind, pure, Except.pure]

theorem resolveDigital_digitalObj (d : DigitalDesc) : resolveDigital (digitalObj d) = .ok d := by
  simp [resolveDigital, digitalObj, requiredMember, requiredNat, bind, Except.bind, pure, Except.pure]

theorem requiredDir_dirText (d : Dir) : requiredDir (.given (dirText d)) = .ok d := by cases d <;> rfl

theorem optionalPartner_partnerMember (p : Option Text) (h : p ≠ some ['n', 'o', 'n', 'e']) :
    optionalPartner (partnerMember p) = .ok p := by
  cases p with
  | none => rfl
  | some t =>
    unfold optionalPartner partnerMember
    simp only
    rw [if_neg fun e => h (by rw [e])]

end Sys2Proof
end

