-- ==== Sys2Proof/Laws/Load.lean ====
section
/-! SUPPORT. The laws of LOAD (40_load.md): the overlap test and the highest bit in terms of single bits, and what loading a
list of frame objects does to a codec. -/

namespace Sys2Proof.Machine

open Sys2Proof

/-! ## Claimed bits -/

/-- Two ranges meet exactly where some bit is in both (40_load.md R104). -/
theorem BitRange.meets_iff (a b : BitRange) :
    a.meets b = true ↔ ∃ k, (a.lo ≤ k ∧ k < a.lo + a.len) ∧ b.lo ≤ k ∧ k < b.lo + b.len := by
  unfold BitRange.meets
  rw [decide_eq_true_iff]
  constructor
  · rintro ⟨h1, h2, h3, h4⟩
    refine ⟨max a.lo b.lo, ?_⟩
    omega
  · rintro ⟨k, h1, h2⟩
    omega

theorem BitRange.meets_comm (a b : BitRange) : a.meets b = b.meets a := by
  rw [Bool.eq_iff_iff, BitRange.meets_iff, BitRange.meets_iff]
  constructor <;> rintro ⟨k, h1, h2⟩ <;> exact ⟨k, h2, h1⟩

/-- The overlap test fails exactly where all ranges are apart (40_load.md R104, R105). -/
theorem claimsOverlap_eq_false_iff (occ rs : List BitRange) :
    claimsOverlap occ rs = false ↔
      (∀ o ∈ occ, ∀ r ∈ rs, o.meets r = false) ∧ rs.Pairwise fun a b => a.meets b = false := by
  induction rs generalizing occ with
  | nil => simp [claimsOverlap]
  | cons r rs ih =>
    unfold claimsOverlap
    rw [Bool.or_eq_false_iff, ih, List.any_eq_false, List.pairwise_cons]
    simp only [List.mem_cons, forall_eq_or_imp, Bool.not_eq_true]
    constructor
    · rintro ⟨h1, ⟨h2, h3⟩, h4⟩
      exact ⟨fun o ho => ⟨h1 o ho, h3 o ho⟩, h2, h4⟩
    · rintro ⟨h1, h2, h4⟩
      exact ⟨fun o ho => (h1 o ho).1, ⟨h2, fun o ho => (h1 o ho).2⟩, h4⟩

theorem highestBit_le_iff (rs : List BitRange) (n : Nat) :
    highestBit rs ≤ n ↔ ∀ r ∈ rs, r.lo + r.len - 1 ≤ n := by
  unfold highestBit
  suffices h : ∀ init, rs.foldl (fun h r => max h (r.lo + r.len - 1)) init ≤ n ↔
      init ≤ n ∧ ∀ r ∈ rs, r.lo + r.len - 1 ≤ n by
    rw [h]; simp
  induction rs with
  | nil => simp
  | cons r rs ih =>
    intro init
    rw [List.foldl_cons, ih]
    simp only [List.mem_cons, forall_eq_or_imp, Nat.max_le, and_assoc]

/-- Where something is claimed, the highest bit is some range's last. -/
theorem highestBit_mem (rs : List BitRange) (h : rs ≠ []) : ∃ r ∈ rs, highestBit rs = r.lo + r.len - 1 := by
  by_contra hc
  push Not at hc
  have hle : ∀ r ∈ rs, r.lo + r.len - 1 ≤ highestBit rs := (highestBit_le_iff rs _).1 (Nat.le_refl _)
  have hlt : ∀ r ∈ rs, r.lo + r.len - 1 < highestBit rs := fun r hr => Nat.lt_of_le_of_ne (hle r hr) fun e => hc r hr e.symm
  obtain ⟨r, hr⟩ := List.exists_mem_of_ne_nil rs h
  have hpos : 0 < highestBit rs := Nat.lt_of_le_of_lt (Nat.zero_le _) (hlt r hr)
  have := (highestBit_le_iff rs (highestBit rs - 1)).2 fun r hr => by have := hlt r hr; omega
  omega

/-! ## A codec while it loads -/

theorem FrameKey.inbound_ne_outbound (a : Word) (b : Text) : FrameKey.inbound a ≠ FrameKey.outbound b := by
  intro h; cases h

/-- The key a frame object is loaded under (40_load.md R109). -/
def keyOf (d : FrameDesc) : FrameKey :=
  match d.direction with
  | .input => .inbound d.busId
  | .output => .outbound d.name

theorem Codec.holdsKey_eq (c : Codec) (d : FrameDesc) : c.holdsKey d = (c.frame? (keyOf d)).isSome := by
  unfold Codec.holdsKey keyOf
  cases d.direction <;> rfl

theorem Codec.insertEntry_loadedEntry (c : Codec) (d : FrameDesc) :
    c.insertEntry (loadedEntry d) = c.setFrame (keyOf d) (loadedEntry d) := by
  unfold Codec.insertEntry keyOf loadedEntry
  cases d.direction <;> rfl

/-- Loading keeps the initialisation list and every entry that stood (40_load.md R108, R109). -/
theorem loadFrames_keeps {c c' : Codec} {ds : List FrameDesc} {rs : List LoadResult}
    (h : loadFrames c ds = some (c', rs)) :
    c'.initList = c.initList ∧ rs.length = ds.length ∧ ∀ k f, c.frame? k = some f → c'.frame? k = some f := by
  induction ds generalizing c c' rs with
  | nil => cases h; exact ⟨rfl, rfl, fun _ _ hf => hf⟩
  | cons d ds ih =>
    unfold loadFrames at h
    split at h
    · cases h
    · next hk =>
      rw [Codec.holdsKey_eq] at hk
      split at h
      · split at h
        · next hl =>
          cases h
          obtain ⟨h1, h2, h3⟩ := ih hl
          exact ⟨h1, by simp [h2], h3⟩
        · cases h
      · split at h
        · next hl =>
          cases h
          obtain ⟨h1, h2, h3⟩ := ih hl
          rw [Codec.insertEntry_loadedEntry] at h1 h3
          refine ⟨h1.trans (Codec.setFrame_initList _ _ _), by simp [h2], fun k f hf => h3 k f ?_⟩
          rw [Codec.frame?_setFrame_of_ne _ _ (fun e => hk (by rw [e, hf]; rfl)), hf]
        · cases h

/-- A source is loaded part by part. -/
theorem loadFrames_append (c : Codec) (ds es : List FrameDesc) :
    loadFrames c (ds ++ es) = match loadFrames c ds with
      | none => none
      | some (c', rs) => (loadFrames c' es).map fun p => (p.1, rs ++ p.2) := by
  induction ds generalizing c with
  | nil => simp [loadFrames]
  | cons d ds ih =>
    simp only [List.cons_append, loadFrames]
    split
    · rfl
    · split
      · rw [ih]
        cases loadFrames c ds with
        | none => rfl
        | some p => simp only; cases loadFrames p.1 es <;> rfl
      · rw [ih]
        cases loadFrames (c.insertEntry (loadedEntry d)) ds with
        | none => rfl
        | some p => simp only; cases loadFrames p.1 es <;> rfl

/-- An invariant of a codec that every insertion of a loaded entry keeps is kept by loading. -/
theorem loadFrames_induct (P : Codec → Prop) {ds : List FrameDesc}
    (hins : ∀ c d, P c → d ∈ ds → c.frame? (keyOf d) = none → frameDefect d = none →
      P (c.setFrame (keyOf d) (loadedEntry d)))
    {c c' : Codec} {rs : List LoadResult} (h : loadFrames c ds = some (c', rs)) (hc : P c) : P c' := by
  induction ds generalizing c c' rs with
  | nil => cases h; exact hc
  | cons d ds ih =>
    have ih := @ih fun c e hp he => hins c e hp (List.mem_cons_of_mem _ he)
    unfold loadFrames at h
    split at h
    · cases h
    · next hk =>
      rw [Codec.holdsKey_eq, Bool.not_eq_true, Option.isSome_eq_false_iff, Option.isNone_iff_eq_none] at hk
      split at h
      · split at h
        · next hl => cases h; exact ih hl hc
        · cases h
      · next hd =>
        split at h
        · next hl =>
          cases h
          rw [Codec.insertEntry_loadedEntry] at hl
          exact ih hl (hins c d hc List.mem_cons_self hk hd)
        · cases h

end Sys2Proof.Machine
end

