-- ==== Sys2Proof/Laws/PerInstr.lean ====
section
/-! SUPPORT. One lemma per operation: bit 3 of its code selects the unit (30_encoding.md R86). -/

namespace Sys2Proof.Laws.CodecBit

open Sys2Proof

/-- The operations of the binder (30_encoding.md R88, the column "unit"). -/
def onBinder : Instr → Bool
  | .load _ _ => false
  | .loadInit _ _ => false
  | .initFrames _ => false
  | .decode _ _ => false
  | .getTx _ _ => false
  | .encode _ _ => false
  | .bload _ => true
  | .register _ => true
  | .xcheck => true
  | .mapIn _ => true
  | .mapOut _ => true
  | .route => true

/-- Bit 3 of the operation's code is 0 for a codec instance and 1 for the binder instance. -/
def Statement (i : Instr) : Prop := (encode i).op.getLsbD 3 = onBinder i

theorem load (bus : Int) (src : List FrameDesc) : Statement (.load bus src) := by simp [Statement, Sys2Proof.encode, onBinder]

theorem loadInit (bus : Int) (src : List InitDesc) : Statement (.loadInit bus src) := by simp [Statement, Sys2Proof.encode, onBinder]

theorem initFrames (bus : Int) : Statement (.initFrames bus) := by simp [Statement, Sys2Proof.encode, onBinder]

theorem decode (bus : Int) (raw : RawFrame) : Statement (.decode bus raw) := by simp [Statement, Sys2Proof.encode, onBinder]

theorem getTx (bus : Int) (name : Text) : Statement (.getTx bus name) := by simp [Statement, Sys2Proof.encode, onBinder]

theorem encode (bus : Int) (name : Text) : Statement (.encode bus name) := by simp [Statement, Sys2Proof.encode, onBinder]

theorem bload (srcs : List (Int × List RouteDesc)) : Statement (.bload srcs) := by simp [Statement, Sys2Proof.encode, onBinder]

theorem register (leaves : List Leaf) : Statement (.register leaves) := by simp [Statement, Sys2Proof.encode, onBinder]

theorem xcheck : Statement .xcheck := by simp [Statement, Sys2Proof.encode, onBinder]

theorem mapIn (frame : Handle) : Statement (.mapIn frame) := by simp [Statement, Sys2Proof.encode, onBinder]

theorem mapOut (frame : Handle) : Statement (.mapOut frame) := by simp [Statement, Sys2Proof.encode, onBinder]

theorem route : Statement .route := by simp [Statement, Sys2Proof.encode, onBinder]

end Sys2Proof.Laws.CodecBit
end

