-- ==== Sys2Proof/Laws/Safety.lean ====
section
/-! SUPPORT. That each shared operation keeps the parts of `State.Inv` it touches, and what it keeps of the layout (10_state.md
R23, R26, R30). -/

namespace Sys2Proof.Machine

open Sys2Proof

/-! ## Entries -/

/-- New values that fit leave a well-formed entry well-formed. -/
theorem FrameEntry.wf_setValues {c : Config} {f : FrameEntry} (hw : f.wf c) (va : AnalogSig → Word) (vd : DigitalSig → Bool)
    (hv : ∀ g ∈ f.an, (va g).toNat < 2 ^ (8 * ceil8 g.size)) :
    FrameEntry.wf c { f with an := f.an.map (fun g => { g with value := va g }),
                             dg := f.dg.map fun g => { g with value := vd g } } := by
  obtain ⟨h1, h2, h3, h4, h5, h6, h7⟩ := hw
  have er : FrameEntry.ranges { f with an := f.an.map (fun g => { g with value := va g }),
                                       dg := f.dg.map fun g => { g with value := vd g } } = f.ranges := by
    simp [FrameEntry.ranges, Function.comp_def]
  have en : FrameEntry.signalNames { f with an := f.an.map (fun g => { g with value := va g }),
                                            dg := f.dg.map fun g => { g with value := vd g } } = f.signalNames := by
    simp [FrameEntry.signalNames, Function.comp_def]
  refine ⟨fun g hg => ?_, fun g hg => ?_, er ▸ h3, en ▸ h4, er ▸ h5, h6, h7⟩
  · obtain ⟨g0, hg0, rfl⟩ := List.mem_map.1 hg
    exact ⟨(h1 g0 hg0).1, (h1 g0 hg0).2.1, hv g0 hg0⟩
  · obtain ⟨g0, hg0, rfl⟩ := List.mem_map.1 hg
    exact h2 g0 hg0

/-- New values leave the layout as it is. -/
theorem FrameEntry.layout_setValues (f : FrameEntry) (va : AnalogSig → Word) (vd : DigitalSig → Bool) :
    FrameEntry.layout { f with an := f.an.map (fun g => { g with value := va g }),
                               dg := f.dg.map fun g => { g with value := vd g } } = f.layout := by
  simp [FrameEntry.layout, Function.comp_def]

theorem FrameEntry.wf_decoded {c : Config} {f : FrameEntry} (hw : f.wf c) (m : Word) : (f.decoded m).wf c :=
  FrameEntry.wf_setValues hw _ _ fun _ _ =>
    Nat.lt_of_lt_of_le (analogValue_lt _ _ _ _) (Nat.pow_le_pow_right (by omega) (le_ceil8 _))

/-- `MemRead` of `n` bytes is below `2^(8n)`. -/
theorem memRead_lt (m : Memory) (addr n : Nat) (hn : n ≤ 8) : (memRead m addr n).toNat < 2 ^ (8 * n) := by
  induction n generalizing addr with
  | zero => simp [memRead]
  | succ n ih =>
    have h := ih (addr + 1) (by omega)
    unfold memRead
    rw [BitVec.toNat_or, BitVec.toNat_setWidth, BitVec.toNat_shiftLeft]
    refine Nat.or_lt_two_pow ?_ ?_
    · refine Nat.lt_of_le_of_lt (Nat.mod_le _ _) (Nat.lt_of_lt_of_le (m.read addr).isLt ?_)
      exact Nat.pow_le_pow_right (by omega) (by omega)
    · refine Nat.lt_of_le_of_lt (Nat.mod_le _ _) ?_
      rw [Nat.shiftLeft_eq, show 8 * (n + 1) = 8 * n + 8 by omega, Nat.pow_add]
      omega

/-- MAP_OUT's registers, as new values of the signals. -/
theorem FrameEntry.loadedFrom_eq (f : FrameEntry) (b : FMap Text Binding) (m : Memory) :
    f.loadedFrom b m = { f with
      an := f.an.map (fun g => { g with value := match b.get? g.name with
        | some bd => replaceLow g.value (ceil8 g.size) (memRead m bd.addr (ceil8 g.size))
        | none => g.value }),
      dg := f.dg.map fun g => { g with value := match b.get? g.name with
        | some bd => decide (memRead m bd.addr 1 ≠ 0)
        | none => g.value } } := by
  unfold FrameEntry.loadedFrom
  congr 1
  · exact List.map_congr_left fun g _ => by cases b.get? g.name <;> rfl
  · exact List.map_congr_left fun g _ => by cases b.get? g.name <;> rfl

theorem FrameEntry.wf_loadedFrom {c : Config} {f : FrameEntry} (hw : f.wf c) (b : FMap Text Binding) (m : Memory) :
    (f.loadedFrom b m).wf c := by
  rw [FrameEntry.loadedFrom_eq]
  refine FrameEntry.wf_setValues hw _ _ fun g hg => ?_
  obtain ⟨_, h2, h3⟩ := hw.1 g hg
  split
  · rw [replaceLow_of_lt _ _ _ h3]
    exact memRead_lt _ _ _ (ceil8_le _ (by omega))
  · exact h3

/-- A frame object without a defect becomes a well-formed entry (40_load.md R113 (b)). -/
theorem loadedEntry_wf {c : Config} {d : FrameDesc} (hd : (d.wf && idFits c d.busId) = true) (hn : frameDefect d = none) :
    (loadedEntry d).wf c := by
  simp only [FrameDesc.wf, FrameDesc.partnerOk, idFits, Bool.and_eq_true, List.all_eq_true, decide_eq_true_eq,
    AnalogDesc.wf] at hd
  obtain ⟨⟨⟨h1, h2⟩, h3⟩, h4⟩ := hd
  have er : (loadedEntry d).ranges = d.claims := by
    simp [FrameEntry.ranges, loadedEntry, FrameDesc.claims, Function.comp_def]
  have en : (loadedEntry d).signalNames = d.signalNames := by
    simp [FrameEntry.signalNames, loadedEntry, FrameDesc.signalNames, Function.comp_def]
  unfold frameDefect at hn
  split at hn
  · cases hn
  · next ho =>
    split at hn
    · cases hn
    · next hs =>
      have hle := (highestBit_le_iff d.claims 63).1 (by omega)
      refine ⟨fun g hg => ?_, fun g hg => ?_, ?_, ?_, ?_, h4, h3⟩
      · obtain ⟨a, ha, rfl⟩ := List.mem_map.1 hg
        have := hle ⟨a.startBit, a.size⟩ (List.mem_append_left _
          (List.mem_map_of_mem (f := fun a : AnalogDesc => (⟨a.startBit, a.size⟩ : BitRange)) ha))
        have h1 := h1 a ha
        simp only at this
        exact ⟨h1, by simp only; omega, by simp⟩
      · obtain ⟨a, ha, rfl⟩ := List.mem_map.1 hg
        have := hle ⟨a.startBit, 1⟩ (List.mem_append_right _
          (List.mem_map_of_mem (f := fun a : DigitalDesc => (⟨a.startBit, 1⟩ : BitRange)) ha))
        simp only at this ⊢
        omega
      · rw [er]
        exact ((claimsOverlap_eq_false_iff [] _).1 (by simpa using ho)).2
      · rw [en]
        exact of_decide_eq_true (by simpa using h2)
      · rw [er]
        rfl

/-! ## Codecs and the state -/

theorem Codec.wf_setFrame {c : Config} {k : Codec} (h : k.wf c) (key : FrameKey) (f : FrameEntry) (hw : f.wf c)
    (hin : ∀ id, key = .inbound id → f.busId = id ∧ f.direction = .input)
    (hout : ∀ n, key = .outbound n → f.name = n ∧ f.direction = .output) : (k.setFrame key f).wf c := by
  obtain ⟨h1, h2, h3, h4, h5⟩ := h
  cases key with
  | inbound id =>
    refine ⟨FMap.wf_insert KeyOrder.word h1 _ _, h2, fun p hp => ?_, h4, h5⟩
    rcases FMap.mem_insert hp with rfl | hp
    · exact ⟨(hin _ rfl).1, (hin _ rfl).2, hw⟩
    · exact h3 p hp
  | outbound n =>
    refine ⟨h1, FMap.wf_insert KeyOrder.text h2 _ _, h3, fun p hp => ?_, h5⟩
    rcases FMap.mem_insert hp with rfl | hp
    · exact ⟨(hout _ rfl).1, (hout _ rfl).2, hw⟩
    · exact h4 p hp

theorem State.Inv.codec_keys {s : State} (h : s.Inv) : FMap.wf s.codecs := by
  unfold FMap.wf
  rw [h.2.1]
  exact h.1.2.2.2

theorem State.Inv.codec {s : State} (h : s.Inv) {bus : Int} {c : Codec} (hc : s.codec? bus = some c) : c.wf s.cfg :=
  h.2.2.1 _ (FMap.mem_of_get? hc)

/-- A live entry of a safe state is well-formed. -/
theorem State.Inv.frame {s : State} (h : s.Inv) {j : Handle} {f : FrameEntry} (hf : s.frame? j = some f) : f.wf s.cfg := by
  obtain ⟨c, hc, hk⟩ := State.frame?_eq_some hf
  have hcw := h.codec hc
  obtain ⟨bus, key⟩ := j
  cases key with
  | inbound id => exact (hcw.2.2.1 _ (FMap.mem_of_get? hk)).2.2
  | outbound n => exact (hcw.2.2.2.1 _ (FMap.mem_of_get? hk)).2.2

theorem State.Inv.setCodec {s : State} (h : s.Inv) {bus : Int} {c c' : Codec} (hc : s.codec? bus = some c)
    (hw : c'.wf s.cfg) : (s.setCodec bus c').Inv := by
  have hk := h.codec_keys
  obtain ⟨i1, i2, i3, i4, i5⟩ := h
  refine ⟨i1, ?_, fun p hp => ?_, i4, i5⟩
  · show (FMap.insert s.codecs bus c').map Prod.fst = _
    rw [FMap.keys_insert_of_mem KeyOrder.int hk (FMap.get?_isSome_iff.1 ?_)]
    · exact i2
    · unfold State.codec? at hc
      rw [hc]
      rfl
  · rcases FMap.mem_insert hp with rfl | hp
    · exact hw
    · exact i3 p hp

/-- An entry put in place of one with the same key and direction. -/
theorem State.Inv.setFrame {s : State} (h : s.Inv) {j : Handle} {f f' : FrameEntry} (hf : s.frame? j = some f)
    (hw : f'.wf s.cfg) (e1 : f'.name = f.name) (e2 : f'.busId = f.busId) (e3 : f'.direction = f.direction) :
    (s.setFrame j f').Inv := by
  obtain ⟨c, hc, hk⟩ := State.frame?_eq_some hf
  have hcw := h.codec hc
  unfold State.setFrame
  simp only [hc]
  refine h.setCodec hc (Codec.wf_setFrame hcw _ _ hw (fun id e => ?_) fun n e => ?_)
  · rw [e] at hk
    have := hcw.2.2.1 _ (FMap.mem_of_get? hk)
    exact ⟨e2.trans this.1, e3.trans this.2.1⟩
  · rw [e] at hk
    have := hcw.2.2.2.1 _ (FMap.mem_of_get? hk)
    exact ⟨e1.trans this.1, e3.trans this.2.1⟩

/-- `Apply` keeps a safe state safe. -/
theorem State.Inv.applyViews {s u : State} (h : s.Inv) {vs : List View} (hu : applyViews s vs = .next u) : u.Inv := by
  obtain ⟨_, h2, rfl⟩ := applyViews_next hu
  obtain ⟨i1, i2, i3, i4, i5⟩ := h
  exact ⟨i1, i2, i3, i4, applyAccesses_inside i5 ((outsideMemory_eq_none_iff _ _).1 h2)⟩

theorem State.Inv.endMapIn {s : State} (h : s.Inv) {b : SyncBuf} (hb : b.wf) (o : MapOutcome) : (s.endMapIn b o).Inv := by
  obtain ⟨i1, i2, i3, ⟨j1, j2, j3, j4, j5, j6, _⟩, i5⟩ := h
  exact ⟨i1, i2, i3, ⟨j1, j2, j3, j4, j5, j6, hb⟩, i5⟩

/-- Replacing an entry of a map by one with the same image changes the image of no entry. -/
theorem FMap.map_insert_of_eq {K V W : Type} [DecidableEq K] [LT K] [DecidableLT K] (o : KeyOrder K) {m : FMap K V}
    (hm : FMap.wf m) (g : V → W) {k : K} {v w : V} (hk : m.get? k = some v) (hg : g w = g v) :
    (m.insert k w).map (fun p => (p.1, g p.2)) = m.map fun p => (p.1, g p.2) := by
  have hmap : ∀ l : FMap K V, (l.map fun p => (p.1, g p.2)).map Prod.fst = l.map Prod.fst := fun l => by
    simp [Function.comp_def]
  apply FMap.ext o
  · unfold FMap.wf
    rw [hmap]
    exact FMap.wf_insert o hm _ _
  · unfold FMap.wf
    rw [hmap]
    exact hm
  · intro j
    rw [FMap.get?_map (fun _ v => g v), FMap.get?_map (fun _ v => g v), FMap.get?_insert]
    split
    · next e => subst e; rw [hk]; simp [hg]
    · rfl

/-- An entry put in place of one with the same layout leaves the state's layout as it is. -/
theorem State.layout_setFrame {s : State} (h : s.Inv) {j : Handle} {f f' : FrameEntry} (hf : s.frame? j = some f)
    (he : f'.layout = f.layout) : (s.setFrame j f').layout = s.layout := by
  obtain ⟨c, hc, hk⟩ := State.frame?_eq_some hf
  have hcw := h.codec hc
  have hl : (c.setFrame j.key f').layout = c.layout := by
    obtain ⟨bus, key⟩ := j
    cases key with
    | inbound id =>
      simp only [Codec.setFrame, Codec.layout]
      rw [FMap.map_insert_of_eq KeyOrder.word hcw.1 FrameEntry.layout hk he]
    | outbound n =>
      simp only [Codec.setFrame, Codec.layout]
      rw [FMap.map_insert_of_eq KeyOrder.text hcw.2.1 FrameEntry.layout hk he]
  unfold State.setFrame
  simp only [hc]
  unfold State.layout State.setCodec
  simp only
  rw [FMap.map_insert_of_eq KeyOrder.int h.codec_keys Codec.layout hc hl]

end Sys2Proof.Machine
end

