-- ==== Sys2Proof/Tests/Slice0.lean ====
section
/-! SUPPORT. The model's own tests. Expected results are the spec's: its worked examples (95_test_vectors.md, 40_load.md R114,
41_decode.md R137, 42_encode.md R154, 43_binder.md R186) and its bit patterns (30_encoding.md R88). Then, for every statement with
hypotheses, a state and operands that meet them. -/

open Sys2Proof Sys2Proof.Machine Sys2Proof.Spec

set_option maxRecDepth 20000

namespace Sys2Proof.Tests

/-! ## Sample operands -/

/-- An analog source entry with no `Byte Inverted`. -/
def anObj (n : Text) (a s : Int) : AnalogObj := ⟨.given n, .given a, .given s, .absent⟩

/-- A digital source entry. -/
def dgObj (n : Text) (a : Int) : DigitalObj := ⟨.given n, .given a⟩

/-- The source object of the document's received frame (30_encoding.md R82). -/
def objF7700 : FrameObj :=
  { name := .given "F7700".toList, id := .given "7700".toList, extendedId := .absent, inOut := .given "IN".toList,
    syncFrame := .absent, analog := .given [anObj ['u'] 0 16, { anObj ['w'] 16 16 with byteInverted := .given true }],
    digital := .given [] }

/-- The same frame, resolved. -/
def descF7700 : FrameDesc :=
  ⟨"F7700".toList, 0x7700, false, .input, none, [⟨['u'], 0, 16, false⟩, ⟨['w'], 16, 16, true⟩], []⟩

/-- The document's transmitted frame (30_encoding.md R82). -/
def descF520 : FrameDesc :=
  ⟨"F520".toList, 0x520, false, .output, none, [⟨['a'], 8, 4, false⟩, ⟨['b'], 18, 10, false⟩, ⟨['c'], 32, 16, false⟩],
    [⟨['p'], 54⟩, ⟨['q'], 55⟩]⟩

/-- An inbound frame of identifier `id` with these signals. -/
def desc (id : Word) (an : List AnalogDesc) (dg : List DigitalDesc) : FrameDesc := ⟨['F'], id, false, .input, none, an, dg⟩

/-- A raw frame that is not extended. -/
def raw (id : Word) (n : Fin 9) (p : Vector Byte 8) : RawFrame := ⟨id, false, n, p⟩

/-! ## Sample states -/

/-- A codec of one bus with the given tables. -/
def withCodec (inT : FMap Word FrameEntry) (outT : FMap Text FrameEntry) : State :=
  { State.reset with codecs := [(0, ⟨inT, outT, []⟩), (1, Codec.empty)] }

/-- An entry with these signals. -/
def entry (name : Text) (id : Word) (dir : Dir) (partner : Option Text) (len : Nat) (an : List AnalogSig)
    (dg : List DigitalSig) : FrameEntry := ⟨name, id, false, partner, len, dir, an, dg⟩

/-- The document's received frame, loaded. -/
def entryF7700 : FrameEntry :=
  entry "F7700".toList 0x7700 .input none 4 [⟨['u'], 0, 16, false, 0⟩, ⟨['w'], 16, 16, true, 0⟩] []

/-- The document's transmitted frame with the document's values (42_encode.md R153). -/
def entryF520 : FrameEntry :=
  entry "F520".toList 0x520 .output none 7 [⟨['a'], 8, 4, false, 2⟩, ⟨['b'], 18, 10, false, 1023⟩, ⟨['c'], 32, 16, false, 166⟩]
    [⟨['p'], 54, false⟩, ⟨['q'], 55, true⟩]

/-- The same signals as an inbound frame (95_test_vectors.md V3 row 3). -/
def entryF521 : FrameEntry :=
  { entry "F521".toList 0x521 .input none 7 [⟨['a'], 8, 4, false, 0⟩, ⟨['b'], 18, 10, false, 0⟩, ⟨['c'], 32, 16, false, 0⟩]
      [⟨['p'], 54, false⟩, ⟨['q'], 55, false⟩] with }

/-- Both frames of the document in bus 0. -/
def docState : State := withCodec [(0x521, entryF521), (0x7700, entryF7700)] [("F520".toList, entryF520)]

/-- `docState` in the run phase. -/
def docRun : State := { docState with phase := .run }

/-- A frame of a sync pair with one 16-bit signal. -/
def pairEntry (name sig partner : Char) (id : Word) (v : Word) : FrameEntry :=
  entry [name] id .input (some [partner]) 2 [⟨[sig], 0, 16, false, v⟩] []

/-- Two sync pairs, A with B and C with D, signals a to d bound to four fields (95_test_vectors.md P3), and a frame E of no
pair that shares the signal d with D and has an unbound one. -/
def pairState : State :=
  { withCodec
      [(0x100, pairEntry 'A' 'a' 'B' 0x100 0x1234), (0x101, pairEntry 'B' 'b' 'A' 0x101 0x1111),
       (0x102, pairEntry 'C' 'c' 'D' 0x102 7), (0x103, pairEntry 'D' 'd' 'C' 0x103 8),
       (0x104, entry ['E'] 0x104 .input none 3 [⟨['d'], 0, 16, false, 0xAFDC⟩] [⟨['k'], 16, true⟩])] [] with
    binder :=
      { dirReg := [(['a'], .input), (['b'], .input), (['c'], .input), (['d'], .input), (['k'], .input)],
        inBind := [(['a'], ⟨0x400, 2, .u16⟩), (['b'], ⟨0x402, 2, .u16⟩), (['c'], ⟨0x404, 2, .u16⟩), (['d'], ⟨0x406, 2, .i16⟩)],
        outBind := [], routing := [], syncBuf := .empty } }

/-- `pairState` with frame B buffered. -/
def bufferedState : State :=
  { pairState with
    binder := { pairState.binder with syncBuf := .full ⟨['B'], some ['A'], viewOf (pairEntry 'B' 'b' 'A' 0x101 0x1111)⟩ } }

/-- `docState` with the transmitted frame's signals a, b and q bound (95_test_vectors.md P2). -/
def outState : State :=
  { docState with
    binder :=
      { dirReg := [(['a'], .output), (['b'], .output), (['p'], .output), (['q'], .output)], inBind := [],
        outBind := [(['a'], ⟨0x200, 2, .u16⟩), (['b'], ⟨0x202, 2, .i16⟩), (['q'], ⟨0x207, 1, .bool⟩)],
        routing := [("F520".toList, 0)], syncBuf := .empty },
    fieldMem := [(0x200, 0x02), (0x201, 0x01), (0x202, 0xFF), (0x203, 0x03), (0x207, 0x01)] }

/-- `pairState` with the field of signal d one byte too narrow for it. -/
def narrowState : State :=
  { pairState with
    binder := { bufferedState.binder with inBind := [(['d'], ⟨0x406, 1, .bool⟩)], outBind := [(['d'], ⟨0x406, 1, .bool⟩)] } }

/-- Directions of two signals, nothing bound (43_binder.md R165, R170). -/
def dirState : State :=
  { State.reset with
    binder := { dirReg := [("rpm".toList, .input), ("temp".toList, .output)], inBind := [], outBind := [], routing := [],
                syncBuf := .empty } }

/-- `dirState` with `rpm` bound. -/
def boundState : State :=
  { dirState with binder := { dirState.binder with inBind := [("rpm".toList, ⟨0x100, 2, .i16⟩)] } }

theorem two_codecs {c : Config} {k k' : Codec} (h : k.wf c) (h' : k'.wf c) :
    ∀ p ∈ [((0 : Int), k), (1, k')], Codec.wf c p.2 :=
  List.forall_mem_cons.2 ⟨h, List.forall_mem_cons.2 ⟨h', by simp⟩⟩

theorem docState_inv : docState.Inv :=
  ⟨by decide, by decide, two_codecs (by decide) (by decide),
    ⟨by decide, by decide, by decide, by decide, by decide, by decide, by exact trivial⟩, by decide⟩

theorem docRun_inv : docRun.Inv := docState_inv

theorem pairState_inv : pairState.Inv :=
  ⟨by decide, by decide, two_codecs (by decide) (by decide),
    ⟨by decide, by decide, by decide, by decide, by decide, by decide, by exact trivial⟩, by decide⟩

theorem bufferedState_inv : bufferedState.Inv :=
  ⟨by decide, by decide, two_codecs (by decide) (by decide),
    ⟨by decide, by decide, by decide, by decide, by decide, by decide, by exact ⟨by decide, by decide⟩⟩, by decide⟩

theorem outState_inv : outState.Inv :=
  ⟨by decide, by decide, two_codecs (by decide) (by decide),
    ⟨by decide, by decide, by decide, by decide, by decide, by decide, by exact trivial⟩, by decide⟩

/-! ## Well-formedness: each check refuses an ill-formed operation (40_load.md R102, R110; 30_encoding.md R78) -/

theorem test_wf_accepts_the_document_frames : (Instr.load 0 [descF7700, descF520]).wf = true := by decide

theorem test_wf_refuses_size_zero : (Instr.load 0 [desc 1 [⟨['x'], 0, 0, false⟩] []]).wf = false := by decide

theorem test_wf_refuses_one_name_twice : (Instr.load 0 [desc 1 [⟨['x'], 0, 8, false⟩] [⟨['x'], 9⟩]]).wf = false := by decide

theorem test_wf_refuses_partner_none :
    (Instr.load 0 [⟨['F'], 1, false, .input, some "none".toList, [], []⟩]).wf = false := by decide

theorem test_wf_refuses_nine_literals : (Instr.loadInit 0 [⟨0, 1, List.replicate 9 0⟩]).wf = false := by decide

theorem test_wf_accepts_eight_literals : (Instr.loadInit 0 [⟨0, 1, List.replicate 8 0⟩]).wf = true := by decide

/-! ## Decoding (30_encoding.md R88 for the words; R73 to R80 for the sources) -/

theorem test_decode_load : decode ⟨0b0001, .schema 0 [objF7700]⟩ = .ok (.load 0 [descF7700]) := by decide

/-- 95_test_vectors.md V1, the LOAD_INIT row. -/
theorem test_decode_loadInit :
    decode ⟨0b0010, .init 0
      [⟨.given 0, .given "201".toList, .given [.text "0x3D".toList, .text "0b00110000".toList, .text "10".toList]⟩,
       ⟨.given 1, .given "202".toList, .given []⟩]⟩ =
      .ok (.loadInit 0 [⟨0, 0x201, [0x3D, 0x30, 10]⟩, ⟨1, 0x202, []⟩]) := by decide

theorem test_decode_initFrames : decode ⟨0b0011, .codec 1⟩ = .ok (.initFrames 1) := by decide

theorem test_decode_decode (r : RawFrame) : decode ⟨0b0100, .raw 1 r⟩ = .ok (.decode 1 r) := rfl

theorem test_decode_getTx : decode ⟨0b0101, .name 0 "F520".toList⟩ = .ok (.getTx 0 "F520".toList) := by decide

theorem test_decode_encode : decode ⟨0b0110, .name 0 "F520".toList⟩ = .ok (.encode 0 "F520".toList) := by decide

theorem test_decode_bload :
    decode ⟨0b1000, .sources [(0, [objF7700])]⟩ = .ok (.bload [(0, [⟨.inbound, [['u'], ['w']], []⟩])]) := by decide

theorem test_decode_register (ls : List Leaf) : decode ⟨0b1001, .leaves ls⟩ = .ok (.register ls) := rfl

theorem test_decode_xcheck : decode ⟨0b1010, .nothing⟩ = .ok .xcheck := by decide

theorem test_decode_mapIn (h : Handle) : decode ⟨0b1011, .frame h⟩ = .ok (.mapIn h) := rfl

theorem test_decode_mapOut (h : Handle) : decode ⟨0b1100, .frame h⟩ = .ok (.mapOut h) := rfl

theorem test_decode_route : decode ⟨0b1101, .nothing⟩ = .ok .route := by decide

/-- 95_test_vectors.md V6 row 1. -/
theorem test_decode_reserved (o : Operand) :
    decode ⟨0b0000, o⟩ = .error (.reservedCode 0) ∧ decode ⟨0b0111, o⟩ = .error (.reservedCode 7) ∧
      decode ⟨0b1110, o⟩ = .error (.reservedCode 14) ∧ decode ⟨0b1111, o⟩ = .error (.reservedCode 15) :=
  ⟨rfl, rfl, rfl, rfl⟩

/-- 95_test_vectors.md V1 rows 13 to 16. -/
theorem test_source_members :
    readId "520".toList = some 1312 ∧ readId "0x7700".toList = some 30464 ∧
      (optionalPartner .absent).toOption = some none ∧ (optionalPartner (.given "none".toList)).toOption = some none ∧
      (resolveAnalog (anObj ['x'] 0 8)).toOption = some ⟨['x'], 0, 8, false⟩ := by decide

/-- Malformed members are rejected, each by its name (40_load.md R102, 30_encoding.md R76, R77, R80). -/
theorem test_malformed_sources :
    decode ⟨1, .schema 0 [{ objF7700 with id := .given "77G0".toList }]⟩ = .error .identifier ∧
      decode ⟨1, .schema 0 [{ objF7700 with inOut := .given "in".toList }]⟩ = .error .direction ∧
      decode ⟨1, .schema 0 [{ objF7700 with analog := .given [anObj ['x'] (-1) 8] }]⟩ = .error .startBit ∧
      readByte (.text "256".toList) = none ∧ readByte (.text "0x".toList) = none := by decide

/-- The next step after reset runs the operation of each table word; a reserved word is refused. -/
theorem test_withFetchWord :
    (List.range 16).map (fun w => match step (State.reset.withFetchWord 8 w) with
      | .next _ => true | .fault _ => false | .refused _ => false) =
    [false, true, true, true, true, true, true, false, true, true, true, true, true, true, false, false] := by decide

/-! ## One step of each operation -/

/-- The operation answers a next state with this property. -/
def runs (i : Instr) (s : State) (p : State → Bool) : Bool :=
  match exec i s with
  | .next t => p t
  | .fault _ => false
  | .refused _ => false

theorem next_of_runs {i : Instr} {s : State} {p : State → Bool} (h : runs i s p = true) :
    ∃ t, exec i s = .next t ∧ p t = true := by
  unfold runs at h
  split at h
  · next t e => exact ⟨t, e, h⟩
  · cases h
  · cases h

/-- 41_decode.md R137. -/
theorem test_inv :
    [inv 0xA5 8, inv 0x1234 16, inv 0x0102030405 40, inv 0x0102030405060708 64, inv 0xABC 12, inv 0x2A5 10, inv 0xABCDE 20,
      inv 0x7FFF 15, inv 0x1FFFF 17, inv 0x7F 7, inv 0xF 4, inv 1 1, inv 0x7FFFFFFFFFFFFFFF 63, inv 0x1AFDC 16] =
    [0xA5, 0x3412, 0x0504030201, 0x0807060504030201, 0xBC0, 0x294, 0xDEBC0, 0x7FBF, 0x1FFFE, 0x3F, 0, 0, 0x7FFFFFFFFFFFFFBF,
      0xDCAF] := by decide

/-- 40_load.md R114 row 1: byte length 4, value registers 0. -/
theorem test_load : runs (.load 0 [descF7700]) State.reset (fun t => decide
    (t.result = some (.loaded [.ok]) ∧ t.frame? ⟨0, .inbound 0x7700⟩ = some entryF7700)) = true := by decide

/-- 40_load.md R114 rows 8 to 11 and the digital examples of R106, R107. -/
theorem test_load_results : runs (.load 1 [desc 1 [⟨['x'], 0, 64, false⟩] [], desc 2 [⟨['x'], 1, 64, false⟩] [],
      desc 3 [⟨['x'], 56, 8, false⟩] [⟨['z'], 64⟩], desc 4 [⟨['x'], 60, 10, false⟩] [⟨['z'], 65⟩], desc 5 [] [⟨['z'], 63⟩]])
    State.reset (fun t => decide (t.result = some (.loaded
      [.ok, .error (.schemaTooLarge 2), .error (.schemaTooLarge 3), .error (.schemaOverlap 4), .ok]))) = true := by decide

/-- 95_test_vectors.md V1, the LOAD_INIT row, on bus 0. -/
theorem test_loadInit : runs (.loadInit 0 [⟨0, 0x201, [0x3D, 0x30, 10]⟩, ⟨1, 0x202, []⟩]) State.reset (fun t => decide
    ((t.codec? 0).map Codec.initList = some [raw 0x201 3 #v[0x3D, 0x30, 0x0A, 0, 0, 0, 0, 0]])) = true := by decide

/-- The same source on bus 1. -/
theorem test_loadInit_other_bus : runs (.loadInit 1 [⟨0, 0x201, [0x3D, 0x30, 10]⟩, ⟨1, 0x202, []⟩]) State.reset
    (fun t => decide ((t.codec? 1).map Codec.initList = some [raw 0x202 0 #v[0, 0, 0, 0, 0, 0, 0, 0]] ∧
      (t.codec? 0).map Codec.initList = some [])) = true := by decide

/-- 40_load.md R112. -/
theorem test_initFrames :
    runs (.initFrames 0) { State.reset with codecs := [(0, ⟨[], [], [raw 0x201 1 #v[1, 0, 0, 0, 0, 0, 0, 0]]⟩)] }
      (fun t => decide (t.result = some (.initFrames [raw 0x201 1 #v[1, 0, 0, 0, 0, 0, 0, 0]]))) = true := by decide

/-- 95_test_vectors.md V3 row 7: the document's bytes, whatever `length` says. -/
theorem test_decode_document : runs (.decode 0 (raw 0x7700 2 #v[0x98, 0x12, 0xAF, 0xDC, 0, 0, 0, 0])) docState
    (fun t => decide ((t.frame? ⟨0, .inbound 0x7700⟩).map (fun f => f.an.map AnalogSig.value) = some [0x1298, 0xAFDC])) =
      true := by decide

/-- 95_test_vectors.md V3 rows 10 and 11: the marker bit is part of the key, an outbound identifier is not found. -/
theorem test_decode_unknown :
    runs (.decode 0 (raw 0x80007700 4 #v[1, 1, 1, 1, 0, 0, 0, 0])) docState
      (fun t => decide (t.result = some (.error (.unknownFrameId 0x80007700)))) = true ∧
    runs (.decode 0 (raw 0x520 4 #v[1, 1, 1, 1, 0, 0, 0, 0])) docState
      (fun t => decide (t.result = some (.error (.unknownFrameId 0x520)) ∧ t.codecs = docState.codecs)) = true := by decide

/-- 42_encode.md R140, R142: an inbound frame's name is not found. -/
theorem test_getTx :
    runs (.getTx 0 "F520".toList) docState (fun t => decide (t.result = some (.frame ⟨0, .outbound "F520".toList⟩))) = true ∧
    runs (.getTx 0 "F7700".toList) docState
      (fun t => decide (t.result = some (.error (.unknownFrameName "F7700".toList)))) = true := by decide

/-- 42_encode.md R153. -/
theorem test_encode_document : runs (.encode 0 "F520".toList) docState (fun t => decide
    (t.result = some (.raw (raw 0x520 7 #v[0x00, 0x02, 0xFC, 0x0F, 0xA6, 0x00, 0x80, 0x00])))) = true := by decide

/-- 42_encode.md R154: a spill beyond `byteLength` is dropped; the marker bit of an extended frame. -/
theorem test_encode_spill : runs (.encode 0 ['S'])
    (withCodec [] [(['S'], { entry ['S'] 0x7700 .output none 1 [⟨['x'], 0, 4, false, 0xFFFF⟩] [⟨['z'], 4, false⟩] with
      extended := true })]) (fun t => decide
    (t.result = some (.raw ⟨0x80007700, true, 1, #v[0xFF, 0, 0, 0, 0, 0, 0, 0]⟩))) = true := by decide

/-- 95_test_vectors.md V5 row 1, with the document's two frames. -/
theorem test_bload : runs (.bload [(0, [⟨.inbound, [['u'], ['w']], []⟩, ⟨.outbound "F520".toList, [['a'], ['b']], [['p']]⟩])])
    State.reset (fun t => decide (t.binder.routing = [("F520".toList, 0)] ∧
      t.binder.dirReg = [(['a'], .output), (['b'], .output), (['p'], .output), (['u'], .input), (['w'], .input)])) =
      true := by decide

/-- 43_binder.md R165: the example, with a third leaf whose width and address are bound as they come. -/
theorem test_register :
    runs (.register [⟨"rpm".toList, 0x100, 2, .i16⟩, ⟨"gear".toList, 0x102, 2, .u16⟩, ⟨"temp".toList, 4294967295, 3, .u16⟩])
      dirState (fun t => decide (t.binder.inBind = [("rpm".toList, ⟨0x100, 2, .i16⟩)] ∧
        t.binder.outBind = [("temp".toList, ⟨4294967295, 3, .u16⟩)] ∧
        t.result = some (.diag [("rpm".toList, true), ("temp".toList, true)]))) = true := by decide

/-- 95_test_vectors.md S6: the second binding fails, the first stays. -/
theorem test_register_duplicate :
    runs (.register [⟨"rpm".toList, 0x200, 2, .i16⟩]) boundState
      (fun t => decide (t.result = some (.error (.duplicateFieldBinding "rpm".toList)) ∧
        t.binder.inBind = [("rpm".toList, ⟨0x100, 2, .i16⟩)])) = true := by decide

/-- 43_binder.md R170: the example. -/
theorem test_xcheck : runs .xcheck boundState (fun t => decide (t.result = some (.unmapped ["temp".toList]) ∧
    t.log = [.unmappedSignal "temp".toList])) = true := by decide

/-- 43_binder.md R186: 0xAFDC goes out as DC AF; R177: an unbound signal is logged. -/
theorem test_mapIn : runs (.mapIn ⟨0, .inbound 0x104⟩) pairState (fun t => decide
    (t.fieldMem = [(0x406, 0xDC), (0x407, 0xAF)] ∧ t.log = [.mappingMiss ['k']] ∧
      t.result = some (.mapped .applied))) = true := by decide

/-- 43_binder.md R172: the example, the second operation. -/
theorem test_mapIn_pair : runs (.mapIn ⟨0, .inbound 0x100⟩) bufferedState (fun t => decide
    (t.fieldMem = [(0x400, 0x34), (0x401, 0x12), (0x402, 0x11), (0x403, 0x11)] ∧ t.binder.syncBuf = .empty ∧
      t.result = some (.mapped .appliedPair))) = true := by decide

/-- 43_binder.md R186 and 95_test_vectors.md V5 row 7: one byte of 0x0102, FF 03 is 0x3FF, a byte 01 is true, an unbound
signal keeps its register. -/
theorem test_mapOut : runs (.mapOut ⟨0, .outbound "F520".toList⟩) outState (fun t => decide
    ((t.frame? ⟨0, .outbound "F520".toList⟩).map (fun f => (f.an.map AnalogSig.value, f.dg.map DigitalSig.value)) =
      some ([0x02, 0x3FF, 166], [false, true]) ∧ t.log = [.mappingMiss ['c'], .mappingMiss ['p']])) = true := by decide

/-- 95_test_vectors.md V5 row 8. -/
theorem test_route : runs .route outState (fun t => decide (t.result = some (.routing [("F520".toList, 0)]))) = true := by
  decide

/-- 95_test_vectors.md V6 rows 3 and 4: load operations are refused in the run phase. -/
theorem test_run_phase_refuses :
    exec (.load 0 []) docRun = .refused .runPhase ∧ exec (.register []) docRun = .refused .runPhase := ⟨rfl, rfl⟩

/-- 60_exceptions.md R190: the codes. -/
theorem test_codes :
    [Report.schemaOverlap 0, .schemaTooLarge 0, .unknownFrameId 0, .unknownFrameName [], .duplicateFieldBinding [],
      .unmappedSignal [], .mappingMiss []].map Report.code = [1, 2, 3, 3, 4, 5, 6] := by decide

/-- Bytes below the base, above the last one and beyond the address type do not exist (00_scope.md R10). -/
theorem test_field_memory_has_its_range :
    (let c : Config := { Config.default with addrType := .natural, fieldMemBase := 0x100, fieldMemSize := 4 }
     c.hasBytes 0x100 4 = true ∧ c.hasBytes 0xFF 2 = false ∧ c.hasBytes 0x103 2 = false) ∧
      let c : Config := { Config.default with addrType := .bits 8, fieldMemBase := 0xF0, fieldMemSize := 32 }
      c.hasBytes 0xFE 2 = true ∧ c.hasBytes 0xFF 2 = false := by decide

/-! ## Witnesses: states and operands that meet the hypotheses of each statement -/

/-- No copy wider than its field, from a computation. -/
theorem narrow_of {b : FMap Text Binding} {v : View} (h : tooWide b v = none) : Narrow b v := (tooWide_eq_none_iff b v).1 h

theorem not_narrow_of {b : FMap Text Binding} {v : View} {n : Text} (h : tooWide b v = some n) : ¬ Narrow b v := by
  intro hn
  rw [(tooWide_eq_none_iff b v).2 hn] at h
  cases h

theorem hasBytes_spec {c : Config} {addr n : Nat} : HasBytes c addr n ↔ c.hasBytes addr n = true := by
  rw [hasBytes_iff]
  refine forall_congr' fun k => forall_congr' fun _ => ?_
  unfold HasByte Config.hasByte
  cases h : c.addrType <;> simp [AddrType.has, and_assoc]

/-- Every copy in the field memory, from a computation. -/
theorem inMemory_of {c : Config} {b : FMap Text Binding} {v : View}
    (h : outsideMemory c (accessesOf b v) = none) : InMemory c b v := by
  rintro addr n x (⟨g, hg, bd, hb, rfl, rfl, rfl⟩ | ⟨g, hg, bd, hb, rfl, rfl, rfl⟩)
  · exact hasBytes_spec.2 ((outsideMemory_eq_none_iff _ _).1 h _ ((mem_accessesOf b v _).2 (.inl ⟨g, hg, bd, hb, rfl⟩)))
  · exact hasBytes_spec.2 ((outsideMemory_eq_none_iff _ _).1 h _ ((mem_accessesOf b v _).2 (.inr ⟨g, hg, bd, hb, rfl⟩)))

theorem not_inMemory_of {c : Config} {b : FMap Text Binding} {v : View} {addr n : Nat} {x : Word} (h : Writes b v addr n x)
    (ho : c.hasBytes addr n = false) : ¬ InMemory c b v := fun hi => by
  rw [hasBytes_spec.1 (hi addr n x h)] at ho
  cases ho

theorem witness_EncodeThenDecodeIsIdentity :
    ∀ i ∈ [Instr.load 0 [descF7700, descF520], .loadInit 0 [⟨0, 0x201, List.replicate 8 255⟩], .initFrames 0,
      .decode 0 (raw 1 8 (Vector.replicate 8 255)), .getTx 0 ['F'], .encode 0 ['F'], .bload [(0, [⟨.outbound ['F'], [], []⟩])],
      .register [⟨['x'], 0, 8, .f64⟩], .xcheck, .mapIn ⟨0, .inbound 1⟩, .mapOut ⟨0, .outbound ['F']⟩, .route],
      i.wf = true := by decide

/-- A text with a character that is neither in the mark nor a hexadecimal digit is not spelled with them. -/
theorem not_spelled (t mark : Text) (ds : List (Fin 16 × Bool)) (c : Char)
    (hc : c ∈ t ∧ c ∉ "0123456789abcdefABCDEF".toList) (hm : c ∉ mark) : t ≠ mark ++ ds.map hexChar := by
  intro h
  have key : ∀ d : Fin 16 × Bool, hexChar d ∈ "0123456789abcdefABCDEF".toList := by
    rintro ⟨d, u⟩
    cases u <;> revert d <;> decide
  rcases List.mem_append.1 (h ▸ hc.1) with h | h
  · exact hm h
  · obtain ⟨d, _, rfl⟩ := List.mem_map.1 h
    exact hc.2 (key d)

/-- Sixteen digits fit, seventeen do not; `G` is no digit. -/
theorem witness_HexIdentifierIsRead :
    ['0', 'X'] ∈ [[], ['0', 'x'], ['0', 'X']] ∧ numberOf 16 (List.replicate 16 15) < 2 ^ 64 ∧
      ¬ numberOf 16 (1 :: List.replicate 16 0) < 2 ^ 64 ∧
      ∀ mark : Text, mark ∈ [[], ['0', 'x'], ['0', 'X']] → ∀ ds : List (Fin 16 × Bool), "52G".toList ≠ mark ++ ds.map hexChar := by
  refine ⟨by decide, by simp [numberOf, List.replicate], by simp [numberOf, List.replicate], fun mark hm ds => ?_⟩
  exact not_spelled "52G".toList mark ds 'G' (by decide) (by revert mark; decide)

/-- 255 and 256 in each spelling; a separator is no digit. -/
theorem witness_ByteLiteralIsRead :
    'B' ∈ ['b', 'B'] ∧ numberOf 2 (List.replicate 8 1) = 255 ∧ numberOf 2 (1 :: List.replicate 8 0) = 256 ∧
      'X' ∈ ['x', 'X'] ∧ numberOf 16 [15, 15] = 255 ∧ numberOf 16 [1, 0, 0] = 256 ∧ numberOf 10 [2, 5, 5] = 255 ∧
      numberOf 10 [2, 5, 6] = 256 ∧
      (∀ (mark : Char) (ds : List (Fin 2)), mark ∈ ['b', 'B'] →
        "2_5".toList ≠ '0' :: mark :: ds.map fun d => hexChar (d.castLE (by decide), false)) ∧
      (∀ (mark : Char) (ds : List (Fin 16 × Bool)), mark ∈ ['x', 'X'] → "2_5".toList ≠ '0' :: mark :: ds.map hexChar) ∧
      ∀ ds : List (Fin 10), "2_5".toList ≠ ds.map fun d => hexChar (d.castLE (by decide), false) := by
  refine ⟨by decide, by decide, by decide, by decide, by decide, by decide, by decide, by decide, fun _ _ _ h => ?_,
    fun _ _ _ h => ?_, fun ds h => ?_⟩
  · exact absurd (List.cons.inj h).1 (by decide)
  · exact absurd (List.cons.inj h).1 (by decide)
  · refine not_spelled "2_5".toList [] (ds.map fun d => (d.castLE (by decide), false)) '_' (by decide) (by decide) ?_
    rw [h, List.nil_append, List.map_map]
    rfl

/-- A reserved code, SER absent, BIND absent. -/
theorem witness_ReservedCodesAreRefused :
    let s (c : Command) (ser bind : Bool) : State :=
      { State.reset with cfg := { Config.default with ser := ser, bind := bind }, pending := [.command c] }
    ((s ⟨0xF, .nothing⟩ true true).pending = .command ⟨0xF, .nothing⟩ :: [] ∧ (0xF#4) ∈ [0x0#4, 0x7#4, 0xE#4, 0xF#4]) ∧
      ((s ⟨0x6, .name 0 []⟩ false true).pending = .command ⟨0x6, .name 0 []⟩ :: [] ∧
        (s ⟨0x6, .name 0 []⟩ false true).cfg.ser = false ∧ (0x6#4) ∈ [0x5#4, 0x6#4]) ∧
      (s ⟨0xD, .nothing⟩ true false).pending = .command ⟨0xD, .nothing⟩ :: [] ∧
        (s ⟨0xD, .nothing⟩ true false).cfg.bind = false ∧ (0xD#4) ∈ [0x8#4, 0x9#4, 0xA#4, 0xB#4, 0xC#4, 0xD#4] := by
  decide

theorem witness_StepRunsTheDecodedOperation :
    let s : State := { State.reset with pending := [.command ⟨0x1, .schema 0 [objF7700]⟩] }
    s.pending = .command ⟨0x1, .schema 0 [objF7700]⟩ :: [] ∧
      decode ⟨0x1, .schema 0 [objF7700]⟩ = .ok (.load 0 [descF7700]) := by decide

/-- Each clause; the platform writes the last byte of its memory, and one past it. -/
theorem witness_StepOnOtherInputs :
    State.reset.pending = [] ∧
      (let s : State := { State.reset with pending := [.command ⟨0x0, .nothing⟩] }
       s.pending = .command ⟨0x0, .nothing⟩ :: [] ∧ decode ⟨0x0, .nothing⟩ = .error (.reservedCode 0)) ∧
      (let s : State := { State.reset with pending := [.overlapping ⟨0xA, .nothing⟩ ⟨0xD, .nothing⟩] }
       s.pending = .overlapping ⟨0xA, .nothing⟩ ⟨0xD, .nothing⟩ :: []) ∧
      (let s : State := { State.reset with pending := [.platformWrite 4294967295 [7]] }
       s.pending = .platformWrite 4294967295 [7] :: [] ∧ HasBytes s.cfg 4294967295 [(7 : Byte)].length ∧
         Memory.wf s.fieldMem) ∧
      (let s : State := { State.reset with pending := [.platformWrite 4294967295 [7, 8]] }
       s.pending = .platformWrite 4294967295 [7, 8] :: [] ∧
         ¬ HasBytes s.cfg 4294967295 [(7 : Byte), 8].length) := by
  simp only [hasBytes_spec]
  decide

/-- The least and the greatest parameters, and the default ones. -/
theorem witness_ResetIsSafe :
    (let c : Config := ⟨1, 0, [], false, false, .bits 0, 0, 0⟩
     c.wf ∧ Memory.inside c []) ∧
      (let c : Config := ⟨64, 63, [-1, 0, 5], true, true, .natural, 7, 2⟩
       c.wf ∧ Memory.inside c [(7, 9), (8, 255)]) ∧
      Config.default.wf ∧ Memory.inside Config.default [] := by decide

/-- A safe state with a DECODE to come. -/
def aboutToDecode : State :=
  { docRun with pending := [.command ⟨0x4, .raw 0 (raw 0x7700 4 #v[0x98, 0x12, 0xAF, 0xDC, 0, 0, 0, 0])⟩] }

theorem aboutToDecode_steps : ∃ t, step aboutToDecode = .next t := by
  have h : (match step aboutToDecode with | .next _ => true | .fault _ => false | .refused _ => false) = true := by decide
  split at h
  · next t e => exact ⟨t, e⟩
  · cases h
  · cases h

theorem witness_StepKeepsSafeStates : aboutToDecode.Inv ∧ ∃ t, step aboutToDecode = .next t :=
  ⟨docState_inv, aboutToDecode_steps⟩

/-- `pairState` with the field of signal d at the last byte of the memory: one byte of its two exists. -/
def edgeState : State :=
  { pairState with
    binder := { pairState.binder with inBind := [(['d'], ⟨4294967295, 2, .i16⟩)], outBind := [(['d'], ⟨4294967295, 2, .i16⟩)] } }

/-- No fault where every field is in the memory; MAP_IN of a frame of no pair and of either frame of a pair, and MAP_OUT, with a
field that is not. -/
theorem witness_FaultsAreAccessesOutsideFieldMemory :
    let e := entry ['E'] 0x104 .input none 3 [⟨['d'], 0, 16, false, 0xAFDC⟩] [⟨['k'], 16, true⟩]
    let c := pairEntry 'C' 'c' 'D' 0x102 7
    let d : Snapshot := ⟨['D'], some ['C'], viewOf (pairEntry 'D' 'd' 'C' 0x103 8)⟩
    let s' : State := { edgeState with binder := { edgeState.binder with syncBuf := .full d } }
    FieldsInMemory State.reset ∧ GoodLeaves State.reset.cfg [⟨['x'], 4294967294, 2, .i16⟩] ∧
      (∃ t, exec (.register [⟨['x'], 4294967294, 2, .i16⟩]) State.reset = .next t) ∧
      (∃ r, exec (.mapIn ⟨0, .inbound 0x104⟩) edgeState = .fault r) ∧
      (∃ r, exec (.mapOut ⟨0, .inbound 0x104⟩) edgeState = .fault r) ∧
      (edgeState.cfg.bind = true ∧ edgeState.frame? ⟨0, .inbound 0x104⟩ = some e ∧ e.syncPartner = none ∧
        Narrow edgeState.binder.inBind (viewOf e) ∧ ¬ InMemory edgeState.cfg edgeState.binder.inBind (viewOf e) ∧
        Narrow edgeState.binder.outBind (viewOf e) ∧ ¬ InMemory edgeState.cfg edgeState.binder.outBind (viewOf e)) ∧
      s'.frame? ⟨0, .inbound 0x102⟩ = some c ∧ s'.binder.syncBuf = .full d ∧ c.syncPartner = some d.name ∧
        Narrow s'.binder.inBind d.view ∧ Narrow s'.binder.inBind (viewOf c) ∧
        ¬ (InMemory s'.cfg s'.binder.inBind d.view ∧ InMemory s'.cfg s'.binder.inBind (viewOf c)) := by
  refine ⟨fun n bd h => ?_, by simp only [GoodLeaves, hasBytes_spec]; decide, ⟨_, rfl⟩, ⟨_, rfl⟩, ⟨_, rfl⟩,
    ⟨by decide, by decide, by decide, narrow_of (by decide), ?_, narrow_of (by decide), ?_⟩, by decide, by decide, by decide,
    narrow_of (by decide), narrow_of (by decide), fun h => ?_⟩
  · rcases h with h | h <;> cases h
  · exact not_inMemory_of (.inl ⟨_, .head _, ⟨4294967295, 2, .i16⟩, by decide, rfl, rfl, rfl⟩) (by decide)
  · exact not_inMemory_of (.inl ⟨_, .head _, ⟨4294967295, 2, .i16⟩, by decide, rfl, rfl, rfl⟩) (by decide)
  · exact not_inMemory_of (.inl ⟨_, .head _, ⟨4294967295, 2, .i16⟩, by decide, rfl, rfl, rfl⟩) (by decide) h.1

theorem witness_RunPhaseKeepsTheLayout :
    aboutToDecode.Inv ∧ aboutToDecode.phase = .run ∧ ∃ t, step aboutToDecode = .next t :=
  ⟨docState_inv, rfl, aboutToDecode_steps⟩

theorem witness_LogOnlyGrows : ∃ t, step aboutToDecode = .next t := aboutToDecode_steps

theorem witness_OnlyMapInWritesFields :
    (∀ h, Instr.mapOut ⟨0, .outbound "F520".toList⟩ ≠ .mapIn h) ∧
      ∃ t, exec (.mapOut ⟨0, .outbound "F520".toList⟩) outState = .next t := ⟨by simp, _, rfl⟩

/-- A load operation in the run phase; a run operation and one that belongs to no phase, completing. -/
theorem witness_PhaseRules :
    (isLoadOp (.register []) = true ∧ docRun.phase = .run) ∧
      (isRunOp (.getTx 0 "F520".toList) = true ∧ ∃ t, exec (.getTx 0 "F520".toList) docState = .next t) ∧
      (isRunOp .route = false ∧ ∃ t, exec .route docState = .next t) :=
  ⟨⟨rfl, rfl⟩, ⟨rfl, _, rfl⟩, rfl, _, rfl⟩

theorem witness_CodecOperationsStayInTheirCodec :
    codecOf (.load 1 [descF7700]) = some 1 ∧ ∃ t, exec (.load 1 [descF7700]) docState = .next t := ⟨rfl, _, rfl⟩

/-- Two states that differ in the binder and in the other codec. -/
theorem witness_CodecOperationsSeeTheirCodecOnly :
    codecOf (.decode 1 (raw 5 0 (Vector.replicate 8 0))) = some 1 ∧ pairState.cfg = docState.cfg ∧
      pairState.phase = docState.phase ∧ pairState.codec? 1 = docState.codec? 1 ∧
      ∃ t, exec (.decode 1 (raw 5 0 (Vector.replicate 8 0))) docState = .next t :=
  ⟨rfl, rfl, rfl, by decide, _, rfl⟩

theorem witness_QueriesChangeNoState :
    (isLoadOp (.encode 0 "F520".toList) = false ∧ (∀ b r, Instr.encode 0 "F520".toList ≠ .decode b r) ∧
      (∀ h, Instr.encode 0 "F520".toList ≠ .mapIn h) ∧ ∀ h, Instr.encode 0 "F520".toList ≠ .mapOut h) ∧
      ∃ t, exec (.encode 0 "F520".toList) docState = .next t := ⟨⟨rfl, by simp, by simp, by simp⟩, _, rfl⟩

/-! ### LOAD -/

/-- A 64-bit signal, and a 63-bit one with a digital one in bit 63: no bit twice, none above 63. -/
theorem witness_LoadInsertsTheEntry : ∀ d ∈ [desc 5 [⟨['x'], 0, 64, true⟩] [], desc 6 [⟨['x'], 0, 63, false⟩] [⟨['z'], 63⟩]],
    State.reset.phase = .load ∧ State.reset.codec? 1 = some Codec.empty ∧ GoodFrame State.reset.cfg d ∧
      State.reset.frame? (handleOf 1 d) = none ∧ NoBitTwice (claims d) ∧ Below64 (claims d) := by
  intro d hd
  simp only [List.mem_cons, List.not_mem_nil, or_false] at hd
  rcases hd with rfl | rfl
  · refine ⟨rfl, by decide, by decide, by decide, by simp [NoBitTwice, claims, desc], ?_⟩
    simp [Below64, claims, desc]
    omega
  · refine ⟨rfl, by decide, by decide, by decide, ?_, ?_⟩
    · simp [NoBitTwice, claims, desc]
      intro k _ _
      omega
    · simp [Below64, claims, desc]
      exact ⟨by omega, by omega⟩

/-- Bit 64 claimed, bit 65 claimed twice, bit 63 claimed twice. -/
theorem witness_LoadReportsTheDefect : ∀ d ∈ [desc 5 [⟨['x'], 1, 64, false⟩] [],
      desc 6 [⟨['x'], 60, 10, false⟩] [⟨['z'], 65⟩], desc 7 [⟨['x'], 63, 1, false⟩] [⟨['z'], 63⟩]],
    State.reset.phase = .load ∧ State.reset.codec? 0 = some Codec.empty ∧ GoodFrame State.reset.cfg d ∧
      State.reset.frame? (handleOf 0 d) = none ∧ ¬ (NoBitTwice (claims d) ∧ Below64 (claims d)) := by
  intro d hd
  simp only [List.mem_cons, List.not_mem_nil, or_false] at hd
  rcases hd with rfl | rfl | rfl
  · refine ⟨rfl, by decide, by decide, by decide, fun h => ?_⟩
    have := h.2 (1, 64) (by decide) 64 (by decide)
    omega
  · refine ⟨rfl, by decide, by decide, by decide, fun h => ?_⟩
    have := h.2 (65, 1) (by decide) 65 (by decide)
    omega
  · refine ⟨rfl, by decide, by decide, by decide, fun h => ?_⟩
    have := (List.pairwise_cons.1 h.1).1 (63, 1) (by decide) 63
    exact this (by decide)

theorem witness_LoadCompletes :
    let src := [descF7700, desc 5 [⟨['x'], 1, 64, false⟩] [], descF520]
    State.reset.phase = .load ∧ State.reset.codec? 0 = some Codec.empty ∧
      (∀ d ∈ src, GoodFrame State.reset.cfg d ∧ State.reset.frame? (handleOf 0 d) = none) ∧
      src.Pairwise (fun a b => handleOf 0 a ≠ handleOf 0 b) := by decide

/-- A defect between two good frames, one of which has its key. -/
theorem witness_LoadSkipsAnInvalidFrame :
    let d := desc 0x7700 [⟨['x'], 1, 64, false⟩] []
    GoodFrame State.reset.cfg d ∧ State.reset.frame? (handleOf 0 d) = none ∧
      ¬ (NoBitTwice (claims d) ∧ Below64 (claims d)) ∧
      (∀ e ∈ [descF520], handleOf 0 e = handleOf 0 d → ¬ (NoBitTwice (claims e) ∧ Below64 (claims e))) ∧
      ∃ t, exec (.load 0 ([descF520] ++ [descF7700])) State.reset = .next t ∧ t.result = some (.loaded [.ok, .ok]) := by
  refine ⟨by decide, by decide, fun h => ?_, fun e he hh => ?_, _, rfl, rfl⟩
  · have := h.2 (1, 64) (by decide) 64 (by decide)
    omega
  · rw [List.mem_singleton.1 he] at hh
    exact absurd hh (by decide)

/-- Each of the five ways to be malformed; the fifth is one identifier twice in the source. -/
theorem witness_MalformedLoadIsRefused :
    docState.phase = .load ∧ (∃ c, docState.codec? 0 = some c) ∧
      (∃ d ∈ [desc 5 [⟨['x'], 0, 0, false⟩] []], ∃ a ∈ d.analog, a.size = 0) ∧
      (∃ d ∈ [desc 5 [⟨['x'], 0, 1, false⟩] [⟨['x'], 1⟩]],
        ¬ (d.analog.map AnalogDesc.name ++ d.digital.map DigitalDesc.name).Nodup) ∧
      (∃ d ∈ [desc 0x100000000 [] []], 2 ^ docState.cfg.idW ≤ d.busId.toNat) ∧
      (∃ d ∈ [descF7700], docState.frame? (handleOf 0 d) ≠ none) ∧
      ∃ pre e mid d post, [desc 5 [] [], desc 6 [] [], desc 5 [] [⟨['x'], 1⟩]] = pre ++ e :: (mid ++ d :: post) ∧
        NoBitTwice (claims e) ∧ Below64 (claims e) ∧ handleOf 0 e = handleOf 0 d :=
  ⟨rfl, ⟨_, rfl⟩, by decide, by decide, by decide, by decide,
    [], desc 5 [] [], [desc 6 [] []], desc 5 [] [⟨['x'], 1⟩], [], rfl, .nil, (fun _ h => (List.not_mem_nil h).elim), rfl⟩

/-- Each clause: sources that resolve, with members left out, and sources in which an object gives nothing. -/
theorem witness_SourceObjectsResolve :
    List.Forall₂ FrameResolves [objF7700] [descF7700] ∧
      (¬ ∃ ds, List.Forall₂ FrameResolves [{ objF7700 with analog := .given [anObj ['x'] (-1) 8] }] ds) ∧
      List.Forall₂ InitResolves [⟨.given 0, .given "201".toList, .given [.text "0x3D".toList, .number 7]⟩] [⟨0, 0x201, [0x3D, 7]⟩] ∧
      (¬ ∃ ds, List.Forall₂ InitResolves [⟨.given 0, .given "201".toList, .absent⟩] ds) ∧
      List.Forall₂ BusResolves [(0, [objF7700])] [(0, [⟨.inbound, [['u'], ['w']], []⟩])] ∧
      ¬ ∃ ds, List.Forall₂ BusResolves [(0, [{ objF7700 with inOut := .given "in".toList }])] ds := by
  refine ⟨.cons ⟨rfl, ⟨_, rfl, by decide⟩, .inr ⟨rfl, rfl⟩, rfl, .inl rfl, _, _, .inl rfl, .inl rfl,
      .cons ⟨rfl, rfl, rfl, .inr ⟨rfl, rfl⟩⟩ (.cons ⟨rfl, rfl, rfl, .inl rfl⟩ .nil), .nil⟩ .nil, ?_,
    .cons ⟨rfl, ⟨_, rfl, by decide⟩, _, rfl, .cons (by decide) (.cons (by decide) .nil)⟩ .nil, ?_,
    .cons ⟨rfl, .cons ⟨rfl, _, _, .inl rfl, .inl rfl, .cons rfl (.cons rfl .nil), .nil⟩ .nil⟩ .nil, ?_⟩
  · rintro ⟨_, h⟩
    cases h with
    | cons h _ =>
      obtain ⟨_, _, _, _, _, as, gs, ha, _, hs, _⟩ := h
      rcases ha with e | ⟨e, _⟩
      · cases e
        obtain ⟨_, _, h, _⟩ := List.forall₂_cons_left_iff.1 hs
        exact absurd (Member.given.inj h.2.1) (by omega)
      · cases e
  · rintro ⟨_, h⟩
    cases h with
    | cons h _ =>
      obtain ⟨_, _, _, h, _⟩ := h
      cases h
  · rintro ⟨_, h⟩
    cases h with
    | cons h _ =>
      obtain ⟨_, h⟩ := h
      obtain ⟨q, _, h, _⟩ := List.forall₂_cons_left_iff.1 h
      obtain ⟨r, an, dg⟩ := q
      cases r with
      | inbound => exact absurd (Member.given.inj h.1) (by decide)
      | outbound n => exact absurd (Member.given.inj h.1.1) (by decide)

/-- The frame with no signal, and the document's two. -/
theorem witness_ByteLengthIsLeast :
    (entry ['E'] 7 .output none 1 [] []).wf Config.default ∧ entryF7700.wf Config.default ∧
      entryF520.wf Config.default ∧ entryF520.an ≠ [] := by decide

theorem witness_LoadInitBuildsTheList :
    let src : List InitDesc := [⟨0, 0x201, List.replicate 8 1⟩, ⟨1, 0x202, []⟩]
    State.reset.phase = .load ∧ State.reset.codec? 1 = some Codec.empty ∧
      (∀ d ∈ src, d.data.length ≤ 8 ∧ d.busId.toNat < 2 ^ State.reset.cfg.idW) ∧
      (src.filter fun d => decide (d.canBus = 1))[0]? = some ⟨1, 0x202, []⟩ := by decide

theorem witness_MalformedInitIsRefused :
    State.reset.phase = .load ∧ State.reset.codec? 1 = some Codec.empty ∧
      (∃ d ∈ [(⟨0, 1, List.replicate 9 1⟩ : InitDesc)], 8 < d.data.length) ∧
      ∃ d ∈ [(⟨0, 0x100000000, []⟩ : InitDesc)], 2 ^ State.reset.cfg.idW ≤ d.busId.toNat := by decide

theorem witness_InitFramesReturnsTheList : State.reset.codec? 0 = some Codec.empty := by decide

/-! ### DECODE -/

theorem witness_DecodeOfUnknownId :
    docState.codec? 1 = some Codec.empty ∧ (raw 0xFFFFFFFF 8 (Vector.replicate 8 0)).busId.toNat < 2 ^ docState.cfg.idW ∧
      docState.frame? ⟨1, .inbound (raw 0xFFFFFFFF 8 (Vector.replicate 8 0)).busId⟩ = none := by decide

/-- The document's raw frame. -/
def docRaw : RawFrame := raw 0x7700 4 #v[0x98, 0x12, 0xAF, 0xDC, 0, 0, 0, 0]

theorem witness_DecodeWritesEverySignal :
    docRaw.busId.toNat < 2 ^ docState.cfg.idW ∧ docState.frame? ⟨0, .inbound docRaw.busId⟩ = some entryF7700 := by decide

theorem witness_DecodedValuesAreInRange :
    ∃ t f, exec (.decode 0 docRaw) docState = .next t ∧ t.frame? ⟨0, .inbound docRaw.busId⟩ = some f ∧ f.an ≠ [] :=
  ⟨_, _, rfl, rfl, by decide⟩

/-- The least and the greatest size; a size that is a multiple of 8 with a value in its range. -/
theorem witness_InvClosedForm :
    (1 ≤ 1 ∧ 1 ≤ 64) ∧ (1 ≤ 64 ∧ 64 ≤ 64) ∧ (1 ≤ 8 ∧ 8 ≤ 64 ∧ 8 % 8 = 0 ∧ (255 : Word).toNat < 2 ^ 8) ∧
      (0x1AFDC : Word).toNat % 2 ^ (8 * ((16 + 7) / 8)) = (0xAFDC : Word).toNat % 2 ^ (8 * ((16 + 7) / 8)) := by decide

/-- Two raw frames that differ above the signals' bits. -/
theorem witness_DecodeDependsOnOwnBits :
    let other := raw 0x7700 8 #v[0x98, 0x12, 0xAF, 0xDC, 9, 9, 9, 9]
    other.busId = docRaw.busId ∧ (∃ t, exec (.decode 0 docRaw) docState = .next t ∧
      (∃ f g, t.frame? ⟨0, .inbound docRaw.busId⟩ = some f ∧ f.an[1]? = some g)) ∧
      (∃ t', exec (.decode 0 other) docState = .next t' ∧
        ∃ f g, t'.frame? ⟨0, .inbound docRaw.busId⟩ = some f ∧ f.an[1]? = some g) ∧
      ∀ k < 32, (messageNat docRaw.payload).testBit k = (messageNat other.payload).testBit k :=
  ⟨by decide, ⟨_, rfl, _, _, rfl, rfl⟩, ⟨_, rfl, _, _, rfl, rfl⟩, by decide⟩

theorem witness_DecodeTwiceIsDecodeOnce :
    docState.frame? ⟨0, .inbound docRaw.busId⟩ = some entryF7700 ∧ ∃ t, exec (.decode 0 docRaw) docState = .next t :=
  ⟨by decide, _, rfl⟩

/-- The inverted 16-bit field of the document, only its bits set; a digital signal, only its bit set; an inverted width that is
not a multiple of 8. -/
theorem witness_BitIsolation :
    let r := raw 0x7700 4 #v[0, 0, 0xFF, 0xFF, 0, 0, 0, 0]
    let r' := raw 0x104 4 #v[0, 0, 1, 0, 0, 0, 0, 0]
    let e := entry ['E'] 0x104 .input none 3 [⟨['d'], 0, 16, false, 0xAFDC⟩] [⟨['k'], 16, true⟩]
    (docState.Inv ∧ docState.frame? ⟨0, .inbound r.busId⟩ = some entryF7700 ∧
      entryF7700.an[1]? = some ⟨['w'], 16, 16, true, 0⟩ ∧ messageNat r.payload = (2 ^ 16 - 1) * 2 ^ 16) ∧
      (pairState.Inv ∧ pairState.frame? ⟨0, .inbound r'.busId⟩ = some e ∧ e.dg[0]? = some ⟨['k'], 16, true⟩ ∧
        messageNat r'.payload = 2 ^ 16) ∧ 1 ≤ 12 ∧ 12 ≤ 64 ∧ 12 % 8 ≠ 0 :=
  ⟨⟨docState_inv, by decide, by decide, by decide⟩, ⟨pairState_inv, by decide, by decide, by decide⟩, by decide, by decide,
    by decide⟩

/-! ### GET_TX, ENCODE -/

theorem witness_UnknownOutboundName :
    docState.cfg.ser = true ∧ docState.codec? 1 = some Codec.empty ∧ docState.frame? ⟨1, .outbound "F520".toList⟩ = none := by
  decide

theorem witness_GetTxReturnsTheLiveEntry :
    docState.cfg.ser = true ∧ docState.frame? ⟨0, .outbound "F520".toList⟩ = some entryF520 := by decide

theorem witness_EncodeBuildsTheFrame :
    docState.Inv ∧ docState.cfg.ser = true ∧ docState.frame? ⟨0, .outbound "F520".toList⟩ = some entryF520 :=
  ⟨docState_inv, by decide, by decide⟩

/-- The document's frame with its signals in another order. -/
theorem witness_EncodeOrderDoesNotMatter :
    let f' : FrameEntry := { entryF520 with an := entryF520.an.reverse, dg := entryF520.dg.reverse }
    let s' := withCodec [] [("F520".toList, f')]
    s'.cfg = docState.cfg ∧ docState.frame? ⟨0, .outbound "F520".toList⟩ = some entryF520 ∧
      s'.frame? ⟨0, .outbound "F520".toList⟩ = some f' ∧ f'.busId = entryF520.busId ∧ f'.extended = entryF520.extended ∧
      f'.byteLength = entryF520.byteLength ∧ f'.an.Perm entryF520.an ∧ f'.dg.Perm entryF520.dg ∧
      ∃ t, exec (.encode 0 "F520".toList) docState = .next t :=
  ⟨rfl, by decide, by decide, rfl, rfl, rfl, List.reverse_perm _, List.reverse_perm _, _, rfl⟩

/-- Bit 63 of the document's frame. -/
theorem witness_UnusedBitsAreZero :
    docState.frame? ⟨0, .outbound "F520".toList⟩ = some entryF520 ∧
      (∃ t, exec (.encode 0 "F520".toList) docState = .next t ∧
        t.result = some (.raw (raw 0x520 7 #v[0x00, 0x02, 0xFC, 0x0F, 0xA6, 0x00, 0x80, 0x00]))) ∧
      (∀ g ∈ entryF520.an, g.inverted = false → g.value.toNat < 2 ^ g.size) ∧ 63 < 64 ∧
      (∀ g ∈ entryF520.an, ¬ (g.startBit ≤ 63 ∧ 63 < g.startBit + g.size)) ∧ ∀ g ∈ entryF520.dg, g.startBit ≠ 63 := by
  obtain ⟨t, h, hp⟩ := next_of_runs test_encode_document
  exact ⟨by decide, ⟨t, h, of_decide_eq_true hp⟩, by decide, by decide, by decide, by decide⟩

/-- 95_test_vectors.md V3 row 3: the document's frame, sent and received; and an exact inverted signal. -/
theorem witness_DecodeOfEncodeIsIdentity :
    docState.Inv ∧ docState.cfg.ser = true ∧ docState.frame? ⟨0, .outbound "F520".toList⟩ = some entryF520 ∧
      docState.frame? ⟨0, .inbound 0x521⟩ = some entryF521 ∧ sameSignals entryF520 entryF521 ∧
      (∀ g ∈ entryF520.an, Exact g) ∧ Exact ⟨['w'], 16, 16, true, 0xAFDC⟩ :=
  ⟨docState_inv, by decide, by decide, by decide, by decide, by decide, by decide⟩

/-! ### The binder -/

theorem witness_BloadRecordsTheSources :
    let srcs := [(0, [(⟨.inbound, [['u']], []⟩ : RouteDesc), ⟨.outbound ['T'], [['a']], [['p']]⟩])]
    State.reset.cfg.bind = true ∧ State.reset.phase = .load ∧ Agrees State.reset.binder.dirReg (dirs srcs) ∧
      Agrees State.reset.binder.routing (routes srcs) :=
  ⟨rfl, rfl, ⟨by decide, fun _ _ _ h => by cases h⟩, by decide, fun _ _ _ h => by cases h⟩

/-- One signal in both directions; one outbound name on two buses. -/
theorem witness_BloadRefusesConflicts :
    let two := [(0, [(⟨.inbound, [['u']], []⟩ : RouteDesc), ⟨.outbound ['T'], [['u']], []⟩])]
    let moved := [(0, [(⟨.outbound ['T'], [], []⟩ : RouteDesc)]), (1, [⟨.outbound ['T'], [], []⟩])]
    State.reset.cfg.bind = true ∧ State.reset.phase = .load ∧
      ¬ (Agrees State.reset.binder.dirReg (dirs two) ∧ Agrees State.reset.binder.routing (routes two)) ∧
      ¬ (Agrees State.reset.binder.dirReg (dirs moved) ∧ Agrees State.reset.binder.routing (routes moved)) := by
  refine ⟨rfl, rfl, fun h => ?_, fun h => ?_⟩
  · exact absurd (h.1.1 (['u'], .input) (by decide) (['u'], .output) (by decide) rfl) (by decide)
  · exact absurd (h.2.1 (['T'], 0) (by decide) (['T'], 1) (by decide) rfl) (by decide)

/-- One leaf of each direction and one that is not known; one of a width its kind does not have, past the memory. -/
theorem witness_RegisterBindsKnownLeaves :
    let ls : List Leaf := [⟨"rpm".toList, 0x100, 2, .i16⟩, ⟨"temp".toList, 4294967295, 3, .f64⟩, ⟨"gear".toList, 0, 1, .bool⟩]
    dirState.cfg.bind = true ∧ dirState.phase = .load ∧ FreshLeaves dirState ls := by
  decide

/-- A name bound before, and a name twice in one structure. -/
theorem witness_RegisterStopsAtADuplicate :
    (let before : List Leaf := [⟨"temp".toList, 0x300, 2, .i16⟩]
     let l : Leaf := ⟨"rpm".toList, 0x200, 2, .i16⟩
     boundState.cfg.bind = true ∧ boundState.phase = .load ∧
       FreshLeaves boundState before ∧ Known boundState l ∧ boundState.binder.inBind.get? l.name ≠ none) ∧
    (let l : Leaf := ⟨"rpm".toList, 0x200, 2, .i16⟩
     FreshLeaves dirState [l] ∧ Known dirState l ∧
       ∃ b ∈ [l], b.name = l.name) := by decide

theorem witness_XcheckReportsUnboundNames : boundState.cfg.bind = true ∧ boundState.Inv :=
  ⟨rfl, by decide, by decide, two_codecs (by decide) (by decide),
    ⟨by decide, by decide, by decide, by decide, by decide, by decide, by exact trivial⟩, by decide⟩

theorem witness_RouteReturnsTheTable : outState.cfg.bind = true := rfl

/-- Frame E: a bound signal that fills its field, an unbound digital one. -/
theorem witness_MapInApplies :
    let f := entry ['E'] 0x104 .input none 3 [⟨['d'], 0, 16, false, 0xAFDC⟩] [⟨['k'], 16, true⟩]
    pairState.Inv ∧ pairState.cfg.bind = true ∧ pairState.frame? ⟨0, .inbound 0x104⟩ = some f ∧ f.syncPartner = none ∧
      Narrow pairState.binder.inBind (viewOf f) ∧ InMemory pairState.cfg pairState.binder.inBind (viewOf f) :=
  ⟨pairState_inv, by decide, by decide, by decide, narrow_of (by decide), inMemory_of (by decide)⟩

theorem witness_MapInBuffers :
    pairState.cfg.bind = true ∧ pairState.frame? ⟨0, .inbound 0x100⟩ = some (pairEntry 'A' 'a' 'B' 0x100 0x1234) ∧
      (pairEntry 'A' 'a' 'B' 0x100 0x1234).syncPartner = some ['B'] ∧ pairState.binder.syncBuf = .empty := by decide

/-- The buffered frame B. -/
def snapB : Snapshot := ⟨['B'], some ['A'], viewOf (pairEntry 'B' 'b' 'A' 0x101 0x1111)⟩

theorem witness_MapInAppliesThePair :
    bufferedState.Inv ∧ bufferedState.cfg.bind = true ∧
      bufferedState.frame? ⟨0, .inbound 0x100⟩ = some (pairEntry 'A' 'a' 'B' 0x100 0x1234) ∧
      bufferedState.binder.syncBuf = .full snapB ∧
      (pairEntry 'A' 'a' 'B' 0x100 0x1234).syncPartner = some snapB.name ∧
      Narrow bufferedState.binder.inBind snapB.view ∧
      Narrow bufferedState.binder.inBind (viewOf (pairEntry 'A' 'a' 'B' 0x100 0x1234)) ∧
      InMemory bufferedState.cfg bufferedState.binder.inBind snapB.view ∧
      InMemory bufferedState.cfg bufferedState.binder.inBind (viewOf (pairEntry 'A' 'a' 'B' 0x100 0x1234)) :=
  ⟨bufferedState_inv, by decide, by decide, by decide, by decide, narrow_of (by decide), narrow_of (by decide),
    inMemory_of (by decide), inMemory_of (by decide)⟩

theorem witness_MapInDiscardsADuplicate :
    bufferedState.cfg.bind = true ∧
      bufferedState.frame? ⟨0, .inbound 0x101⟩ = some (pairEntry 'B' 'b' 'A' 0x101 0x1111) ∧
      (pairEntry 'B' 'b' 'A' 0x101 0x1111).syncPartner = some ['A'] ∧ bufferedState.binder.syncBuf = .full snapB ∧
      snapB.name ≠ ['A'] ∧ snapB.name = (pairEntry 'B' 'b' 'A' 0x101 0x1111).name := by decide

theorem witness_MapInReplaces :
    bufferedState.cfg.bind = true ∧
      bufferedState.frame? ⟨0, .inbound 0x102⟩ = some (pairEntry 'C' 'c' 'D' 0x102 7) ∧
      (pairEntry 'C' 'c' 'D' 0x102 7).syncPartner = some ['D'] ∧ bufferedState.binder.syncBuf = .full snapB ∧
      snapB.name ≠ ['D'] ∧ snapB.name ≠ (pairEntry 'C' 'c' 'D' 0x102 7).name := by decide

/-- A 16-bit signal on a one-byte field: a frame of no pair, the partner of the buffered frame, the buffered frame itself, and
MAP_OUT. -/
theorem witness_WideCopiesAreRefused :
    let e := entry ['E'] 0x104 .input none 3 [⟨['d'], 0, 16, false, 0xAFDC⟩] [⟨['k'], 16, true⟩]
    let a := pairEntry 'A' 'd' 'B' 0x100 1
    let c := pairEntry 'C' 'c' 'D' 0x102 7
    let d : Snapshot := ⟨['D'], some ['C'], viewOf (pairEntry 'D' 'd' 'C' 0x103 8)⟩
    let s : State := { narrowState with codecs := [(0, ⟨[(0x100, a), (0x102, c), (0x104, e)], [], []⟩)] }
    let s' : State := { s with binder := { s.binder with syncBuf := .full d } }
    s.cfg.bind = true ∧ (s.frame? ⟨0, .inbound 0x104⟩ = some e ∧ e.syncPartner = none ∧
        ¬ Narrow s.binder.inBind (viewOf e) ∧ ¬ Narrow s.binder.outBind (viewOf e)) ∧
      (s.frame? ⟨0, .inbound 0x100⟩ = some a ∧ s.binder.syncBuf = .full snapB ∧ a.syncPartner = some snapB.name ∧
        ¬ (Narrow s.binder.inBind snapB.view ∧ Narrow s.binder.inBind (viewOf a))) ∧
      s'.frame? ⟨0, .inbound 0x102⟩ = some c ∧ s'.binder.syncBuf = .full d ∧ c.syncPartner = some d.name ∧
        ¬ (Narrow s'.binder.inBind d.view ∧ Narrow s'.binder.inBind (viewOf c)) :=
  ⟨by decide, ⟨by decide, by decide, not_narrow_of (n := ['d']) (by decide), not_narrow_of (n := ['d']) (by decide)⟩,
    ⟨by decide, by decide, by decide, fun h => not_narrow_of (n := ['d']) (by decide) h.2⟩,
    by decide, by decide, by decide, fun h => not_narrow_of (n := ['d']) (by decide) h.1⟩

theorem witness_SyncPairing :
    let a := pairEntry 'A' 'a' 'B' 0x100 0x1234
    let b := pairEntry 'B' 'b' 'A' 0x101 0x1111
    pairState.Inv ∧ pairState.cfg.bind = true ∧ pairState.frame? ⟨0, .inbound 0x100⟩ = some a ∧
      pairState.frame? ⟨0, .inbound 0x101⟩ = some b ∧ a.name ≠ b.name ∧ a.syncPartner = some b.name ∧
      b.syncPartner = some a.name ∧ pairState.binder.syncBuf = .empty ∧ Narrow pairState.binder.inBind (viewOf a) ∧
      Narrow pairState.binder.inBind (viewOf b) ∧ InMemory pairState.cfg pairState.binder.inBind (viewOf a) ∧
      InMemory pairState.cfg pairState.binder.inBind (viewOf b) :=
  ⟨pairState_inv, by decide, by decide, by decide, by decide, by decide, by decide, by decide, narrow_of (by decide),
    narrow_of (by decide), inMemory_of (by decide), inMemory_of (by decide)⟩

theorem witness_OneSlotLosesInterleavedPairs :
    let a := pairEntry 'A' 'a' 'B' 0x100 0x1234
    let b := pairEntry 'B' 'b' 'A' 0x101 0x1111
    let c := pairEntry 'C' 'c' 'D' 0x102 7
    let d := pairEntry 'D' 'd' 'C' 0x103 8
    pairState.cfg.bind = true ∧ pairState.binder.syncBuf = .empty ∧ pairState.frame? ⟨0, .inbound 0x100⟩ = some a ∧
      pairState.frame? ⟨0, .inbound 0x101⟩ = some b ∧ pairState.frame? ⟨0, .inbound 0x102⟩ = some c ∧
      pairState.frame? ⟨0, .inbound 0x103⟩ = some d ∧ [a.name, b.name, c.name, d.name].Nodup ∧
      a.syncPartner = some b.name ∧ b.syncPartner = some a.name ∧ c.syncPartner = some d.name ∧
      d.syncPartner = some c.name := by decide

theorem witness_MapOutLoadsTheRegisters :
    outState.Inv ∧ outState.cfg.bind = true ∧ outState.frame? ⟨0, .outbound "F520".toList⟩ = some entryF520 ∧
      Narrow outState.binder.outBind (viewOf entryF520) ∧ InMemory outState.cfg outState.binder.outBind (viewOf entryF520) :=
  ⟨outState_inv, by decide, by decide, narrow_of (by decide), inMemory_of (by decide)⟩

/-- No byte, and eight bytes over a listed one. -/
theorem witness_FieldWriteThenRead : Memory.wf [(3, 9), (4, 255)] ∧ 0 ≤ 8 ∧ 8 ≤ 8 := by decide

/-- Each clause: no such entry; no such codec; an identifier of 33 bits. -/
theorem witness_OperandsOutsideTheBlockAreRefused :
    (docState.cfg.bind = true ∧ docState.frame? ⟨0, .inbound 1⟩ = none) ∧
      (codecOf (.initFrames 2) = some 2 ∧ docState.codec? 2 = none) ∧
      2 ^ docState.cfg.idW ≤ (raw 0x100000000 0 (Vector.replicate 8 0)).busId.toNat := by decide

theorem witness_BufferedValuesSurviveDecode :
    let b := pairEntry 'B' 'b' 'A' 0x101 0x1111
    let f := pairEntry 'A' 'a' 'B' 0x100 0x1234
    let r := raw 0x101 2 #v[0x22, 0x22, 0, 0, 0, 0, 0, 0]
    pairState.Inv ∧ pairState.cfg.bind = true ∧ pairState.frame? ⟨0, .inbound r.busId⟩ = some b ∧
      pairState.binder.syncBuf = .empty ∧ (⟨0, .inbound 0x100⟩ : Handle) ≠ ⟨0, .inbound r.busId⟩ ∧
      pairState.frame? ⟨0, .inbound 0x100⟩ = some f ∧ f.syncPartner = some b.name ∧ b.syncPartner = some f.name ∧
      b.name ≠ f.name ∧ ∃ s1 s2 s3, exec (.mapIn ⟨0, .inbound r.busId⟩) pairState = .next s1 ∧
        exec (.decode 0 r) s1 = .next s2 ∧ exec (.mapIn ⟨0, .inbound 0x100⟩) s2 = .next s3 :=
  ⟨pairState_inv, by decide, by decide, by decide, by decide, by decide, by decide, by decide, by decide, _, _, _, rfl, rfl,
    rfl⟩

end Sys2Proof.Tests
end

section
/-! Field memory as a number: what `MemRead` and `MemWrite` do to the bytes of a range, read least significant byte first
(00_scope.md R14, 20_memory.md R56), and the obligation about a write read back. -/

namespace Sys2Proof.Machine

open Sys2Proof Sys2Proof.Spec

/-- `MemRead` of up to eight bytes is their number: no byte is shifted out of the word. -/
theorem memRead_toNat (m : Memory) (addr : Nat) {n : Nat} (hn : n ≤ 8) :
    (memRead m addr n).toNat = bytesNat m addr n := by
  induction n generalizing addr with
  | zero => rfl
  | succ n ih =>
    have hbyte : (m.read addr).toNat < 2 ^ 8 := (m.read addr).isLt
    have hfit : (memRead m (addr + 1) n).toNat <<< 8 < 2 ^ 64 := by
      have hlt := memRead_lt m (addr + 1) n (by omega)
      have hpow : 2 ^ (8 * n) ≤ 2 ^ 56 := Nat.pow_le_pow_right (by omega) (by omega)
      omega
    calc (memRead m addr (n + 1)).toNat
        = (m.read addr).toNat ||| (memRead m (addr + 1) n).toNat <<< 8 := by
          rw [memRead, BitVec.toNat_or, BitVec.toNat_setWidth, BitVec.toNat_shiftLeft, Nat.mod_eq_of_lt hfit,
            Nat.mod_eq_of_lt (by omega)]
      _ = (memRead m (addr + 1) n).toNat <<< 8 + (m.read addr).toNat := by
          rw [Nat.or_comm, Nat.shiftLeft_add_eq_or_of_lt hbyte]
      _ = bytesNat m addr (n + 1) := by
          rw [ih (addr + 1) (by omega), bytesNat, Nat.shiftLeft_eq]
          omega

/-- The bytes `MemWrite` wrote are the low bytes of the value, for a range of any length. -/
theorem bytesNat_memWrite {m : Memory} (h : Memory.wf m) (addr n : Nat) (v : Word) :
    bytesNat (memWrite m addr n v) addr n = v.toNat % 2 ^ (8 * n) := by
  induction n generalizing m addr v with
  | zero => simp [bytesNat, Nat.mod_one]
  | succ n ih =>
    have hlow : ((memWrite m addr (n + 1) v).read addr).toNat = v.toNat % 2 ^ 8 := by
      have hread := memWrite_read_inside h addr (n + 1) v (k := 0) (by omega)
      simpa using congrArg BitVec.toNat hread
    have hhigh : bytesNat (memWrite m addr (n + 1) v) (addr + 1) n = v.toNat / 2 ^ 8 % 2 ^ (8 * n) := by
      rw [memWrite, ih (Memory.wf_write h _ _), BitVec.toNat_ushiftRight, Nat.shiftRight_eq_div_pow]
    rw [bytesNat, hlow, hhigh, show 8 * (n + 1) = 8 + 8 * n by omega, Nat.pow_add, Nat.mod_mul]

/-- Settles O58: the read is the number of the bytes, and the write put the low bytes of the value there. -/
theorem fieldWriteThenRead : Obligations.FieldWriteThenRead := by
  intro m addr n v hm hn
  refine ⟨?_, memWrite_wf hm addr n v, memRead_toNat m addr hn, fun a ha => memWrite_read_outside m addr n v ha⟩
  rw [memRead_toNat _ _ hn, bytesNat_memWrite hm]

end Sys2Proof.Machine
end

section
/-! What a step can do, DECODE as an update of one live entry, and the updates of a state that `State.Inv` does not read
(log, result, phase, inputs) or reads in one part only. -/

namespace Sys2Proof.Machine

open Sys2Proof

/-! ## One step -/

/-- What a step does when it answers a next state: the block waits, runs the decoded operation, or the platform writes
inside its field memory. -/
theorem step_next {s t : State} (h : step s = .next t) :
    (s.pending = [] ∧ t = s) ∨
      (∃ c i rest, s.pending = .command c :: rest ∧ decode c = .ok i ∧ exec i { s with pending := rest } = .next t) ∨
      ∃ addr bytes rest, s.pending = .platformWrite addr bytes :: rest ∧ s.cfg.hasBytes addr bytes.length = true ∧
        t = { s with fieldMem := writeBytes s.fieldMem addr bytes, pending := rest } := by
  unfold step at h
  split at h
  · next hp => exact .inl ⟨hp, (Host.Outcome.next.inj h).symm⟩
  · next c rest hp =>
    split at h
    · next i hi => exact .inr (.inl ⟨c, i, rest, hp, hi, h⟩)
    · cases h
  · next addr bytes rest hp =>
    unfold platformWrite at h
    split at h
    · next hin => exact .inr (.inr ⟨addr, bytes, rest, hp, hin, (Host.Outcome.next.inj h).symm⟩)
    · cases h
  · cases h

/-! ## DECODE as an update of a live entry -/

theorem State.setFrame_of_codec {s : State} {bus : Int} {c : Codec} (hc : s.codec? bus = some c) (k : FrameKey)
    (f : FrameEntry) : s.setFrame ⟨bus, k⟩ f = s.setCodec bus (c.setFrame k f) := by
  unfold State.setFrame
  simp only [hc]

/-- DECODE logs an unknown identifier, or puts new values in the live entry of a known one. -/
theorem execDecode_next_setFrame {bus : Int} {raw : RawFrame} {s t : State} (h : execDecode bus raw s = .next t) :
    t = s.enterRun.raise (.unknownFrameId raw.busId) ∨
      ∃ f, s.frame? ⟨bus, .inbound raw.busId⟩ = some f ∧
        t = (s.enterRun.setFrame ⟨bus, .inbound raw.busId⟩ (f.decoded (message raw.payload))).deliver
          (.frame ⟨bus, .inbound raw.busId⟩) := by
  obtain ⟨c, hc, _, ⟨_, ht⟩ | ⟨f, hf, ht⟩⟩ := execDecode_next h
  · exact .inl ht
  · exact .inr ⟨f, (State.frame?_of_codec hc _).trans hf, by
      rw [State.setFrame_of_codec (s := s.enterRun) hc]; exact ht⟩

/-! ## The invariant under updates outside the tables -/

theorem State.Inv.deliver {s : State} (h : s.Inv) (r : OpResult) : (s.deliver r).Inv := h

theorem State.Inv.record {s : State} (h : s.Inv) (rs : List Report) : (s.record rs).Inv := h

theorem State.Inv.raise {s : State} (h : s.Inv) (r : Report) : (s.raise r).Inv := h

theorem State.Inv.enterRun {s : State} (h : s.Inv) : s.enterRun.Inv := h

theorem State.Inv.setPending {s : State} (h : s.Inv) (rest : List Input) : State.Inv { s with pending := rest } := h

theorem State.Inv.setBinder {s : State} (h : s.Inv) {b : Binder} (hb : b.wf) : State.Inv { s with binder := b } :=
  let ⟨hcfg, hkeys, hcodecs, _, hmem⟩ := h
  ⟨hcfg, hkeys, hcodecs, hb, hmem⟩

theorem State.Inv.setFieldMem {s : State} (h : s.Inv) {m : Memory} (hm : Memory.inside s.cfg m) :
    State.Inv { s with fieldMem := m } :=
  let ⟨hcfg, hkeys, hcodecs, hbinder, _⟩ := h
  ⟨hcfg, hkeys, hcodecs, hbinder, hm⟩

theorem State.Inv.binder {s : State} (h : s.Inv) : s.binder.wf :=
  let ⟨_, _, _, hbinder, _⟩ := h
  hbinder

theorem State.Inv.fieldMem {s : State} (h : s.Inv) : Memory.inside s.cfg s.fieldMem :=
  let ⟨_, _, _, _, hmem⟩ := h
  hmem

end Sys2Proof.Machine
end

section
/-! The safety invariant (10_state.md R23 to R37): reset has it, and each operation keeps it, one lemma per operation. -/

namespace Sys2Proof.Machine

open Sys2Proof

/-! ## Reset -/

theorem Codec.wf_empty (c : Config) : Codec.empty.wf c := by simp [Codec.wf, Codec.empty, FMap.wf]

theorem Binder.wf_empty : Binder.empty.wf := by simp [Binder.wf, Binder.empty, FMap.wf, SyncBuf.wf]

/-- Settles O9: the codecs are empty ones on the buses of the parameters, the binder is empty, the memory is the image. -/
theorem resetIsSafe : Obligations.ResetIsSafe := by
  intro c image hc himage
  refine ⟨hc, ?_, fun p hp => ?_, Binder.wf_empty, himage⟩
  · simp [State.resetWith, Function.comp_def]
  · obtain ⟨b, _, rfl⟩ := List.mem_map.1 hp
    exact Codec.wf_empty c

/-! ## The codec's operations -/

theorem keyOf_eq_inbound {d : FrameDesc} {id : Word} (h : keyOf d = .inbound id) : d.busId = id ∧ d.direction = .input := by
  unfold keyOf at h
  split at h
  · next hd => cases h; exact ⟨rfl, hd⟩
  · cases h

theorem keyOf_eq_outbound {d : FrameDesc} {n : Text} (h : keyOf d = .outbound n) : d.name = n ∧ d.direction = .output := by
  unfold keyOf at h
  split at h
  · cases h
  · next hd => cases h; exact ⟨rfl, hd⟩

/-- LOAD inserts well-formed entries under their own keys (40_load.md R109, R113). -/
theorem Codec.wf_loadFrames {cfg : Config} {c c' : Codec} {ds : List FrameDesc} {rs : List LoadResult} (hc : c.wf cfg)
    (hds : (ds.all fun d => d.wf && idFits cfg d.busId) = true) (h : loadFrames c ds = some (c', rs)) : c'.wf cfg :=
  loadFrames_induct (fun c => c.wf cfg)
    (fun _ d hc hd _ hn => Codec.wf_setFrame hc _ _ (loadedEntry_wf (List.all_eq_true.1 hds d hd) hn)
      (fun _ => keyOf_eq_inbound) (fun _ => keyOf_eq_outbound)) h hc

theorem State.Inv.execLoad {s t : State} (h : s.Inv) {bus : Int} {src : List FrameDesc}
    (ht : execLoad bus src s = .next t) : t.Inv := by
  obtain ⟨_, c, c', rs, hc, hsrc, hl, rfl⟩ := execLoad_next ht
  exact ((h.setCodec hc (Codec.wf_loadFrames (h.codec hc) hsrc hl)).record _).deliver _

theorem Codec.wf_setInitList {cfg : Config} {c : Codec} (hc : c.wf cfg) {l : List RawFrame}
    (hl : ∀ r ∈ l, r.busId.toNat < 2 ^ cfg.idW) : Codec.wf cfg { c with initList := l } :=
  let ⟨hin, hout, hinEntry, houtEntry, _⟩ := hc
  ⟨hin, hout, hinEntry, houtEntry, hl⟩

/-- LOAD_INIT keeps frames whose identifiers fit (40_load.md R110). -/
theorem State.Inv.execLoadInit {s t : State} (h : s.Inv) {bus : Int} {src : List InitDesc}
    (ht : execLoadInit bus src s = .next t) : t.Inv := by
  obtain ⟨_, c, hc, hsrc, rfl⟩ := execLoadInit_next ht
  refine (h.setCodec hc (Codec.wf_setInitList (h.codec hc) fun r hr => ?_)).deliver _
  obtain ⟨d, hd, rfl⟩ := List.mem_map.1 hr
  have hfits := List.all_eq_true.1 hsrc d (List.mem_of_mem_filter hd)
  rw [Bool.and_eq_true] at hfits
  exact of_decide_eq_true hfits.2

theorem State.Inv.execDecode {s t : State} (h : s.Inv) {bus : Int} {raw : RawFrame}
    (ht : execDecode bus raw s = .next t) : t.Inv := by
  obtain rfl | ⟨f, hf, rfl⟩ := execDecode_next_setFrame ht
  · exact h.enterRun.raise _
  · exact (h.enterRun.setFrame hf (FrameEntry.wf_decoded (h.frame hf) _) rfl rfl rfl).deliver _

/-! ## BLOAD and REGISTER -/

/-- A recorded direction stands through every later record. -/
theorem FMap.get?_agree_of_some {K V : Type} [DecidableEq K] [LT K] [DecidableLT K] [DecidableEq V] {m m' : FMap K V}
    {k j : K} {v w : V} (h : m.agree k v = some m') (hj : m.get? j = some w) : m'.get? j = some w := by
  obtain ⟨hold, hnew⟩ := FMap.agree_eq_some h
  rw [hnew]
  split
  · next e => rw [hold w (e ▸ hj)]
  · exact hj

/-- What BLOAD must keep of the direction registry for the bindings to stay those of known names. -/
def Binder.Directs (b : Binder) (r : FMap Text Dir) : Prop :=
  FMap.wf r ∧ (∀ p ∈ b.inBind, r.get? p.1 = some .input) ∧ ∀ p ∈ b.outBind, r.get? p.1 = some .output

theorem Binder.Directs.agree {b : Binder} {r r' : FMap Text Dir} (h : b.Directs r) {n : Text} {d : Dir}
    (ha : r.agree n d = some r') : b.Directs r' :=
  let ⟨hr, hin, hout⟩ := h
  ⟨FMap.wf_agree KeyOrder.text hr ha, fun p hp => FMap.get?_agree_of_some ha (hin p hp),
    fun p hp => FMap.get?_agree_of_some ha (hout p hp)⟩

theorem Binder.wf_recordSources {b b' : Binder} (hb : b.wf) {srcs : List (Int × List RouteDesc)}
    (h : recordSources b srcs = .ok b') : b'.wf := by
  obtain ⟨hdir, hin, hout, hroute, hinDir, houtDir, hbuf⟩ := hb
  obtain ⟨⟨hdir', hinDir', houtDir'⟩, hroute', ein, eout, ebuf⟩ :=
    recordSources_induct b.Directs FMap.wf (fun _ _ _ _ h ha => h.agree ha)
      (fun _ _ _ _ => FMap.wf_agree KeyOrder.text) h ⟨hdir, hinDir, houtDir⟩ hroute
  exact ⟨hdir', ein ▸ hin, eout ▸ hout, hroute', ein ▸ hinDir', eout ▸ houtDir', ebuf ▸ hbuf⟩

theorem State.Inv.execBload {s t : State} (h : s.Inv) {srcs : List (Int × List RouteDesc)}
    (ht : execBload srcs s = .next t) : t.Inv := by
  obtain ⟨_, _, b, hb, rfl⟩ := execBload_next ht
  exact (h.setBinder (Binder.wf_recordSources h.binder hb)).deliver _

/-- A leaf is bound in the table of its recorded direction (43_binder.md R165). -/
theorem Binder.wf_bindLeaf {b : Binder} (hb : b.wf) {l : Leaf} {d : Dir} (hd : b.dirReg.get? l.name = some d) :
    (b.bindLeaf d l).wf := by
  obtain ⟨hdir, hin, hout, hroute, hinDir, houtDir, hbuf⟩ := hb
  cases d with
  | input =>
    refine ⟨hdir, FMap.wf_insert KeyOrder.text hin _ _, hout, hroute, fun p hp => ?_, houtDir, hbuf⟩
    obtain rfl | hp := FMap.mem_insert hp
    · exact hd
    · exact hinDir p hp
  | output =>
    refine ⟨hdir, hin, FMap.wf_insert KeyOrder.text hout _ _, hroute, hinDir, fun p hp => ?_, hbuf⟩
    obtain rfl | hp := FMap.mem_insert hp
    · exact hd
    · exact houtDir p hp

theorem Binder.wf_registerLeaves {b : Binder} (hb : b.wf) (ls : List Leaf) : (registerLeaves b ls).1.wf :=
  registerLeaves_induct Binder.wf (fun _ _ _ hb _ hd _ => Binder.wf_bindLeaf hb hd) hb

theorem State.Inv.execRegister {s t : State} (h : s.Inv) {ls : List Leaf} (ht : execRegister ls s = .next t) : t.Inv := by
  obtain ⟨_, _, b, ⟨hr, rfl⟩ | ⟨n, hr, rfl⟩⟩ := execRegister_next ht
  · exact (h.setBinder (b := b) (by simpa only [hr] using Binder.wf_registerLeaves h.binder ls)).deliver _
  · exact (h.setBinder (b := b) (by simpa only [hr] using Binder.wf_registerLeaves h.binder ls)).raise _

/-! ## MAP_IN and MAP_OUT -/

/-- A copy of a well-formed frame with a partner may stand in the buffer (10_state.md R37). -/
theorem SyncBuf.wf_snapshot {c : Config} {f : FrameEntry} (hf : f.wf c) {p : Text} (hp : f.syncPartner = some p) :
    (SyncBuf.full f.snapshot).wf := by
  refine ⟨by simp [FrameEntry.snapshot, hp], fun v hv => ?_⟩
  obtain ⟨g, hg, rfl⟩ := List.mem_map.1 hv
  obtain ⟨hsize, hend, hvalue⟩ := hf.1 g hg
  exact ⟨hsize, by simp only; omega, hvalue⟩

theorem State.Inv.mapInFrame {s t : State} (h : s.Inv) {f : FrameEntry} (hf : f.wf s.cfg)
    (ht : mapInFrame f s = .next t) : t.Inv := by
  have ⟨_, _, _, _, _, _, hbuf⟩ := h.binder
  obtain ⟨_, u, hu, rfl⟩ | ⟨p, hp, ⟨_, rfl⟩ | ⟨b, hb, ⟨_, u, hu, rfl⟩ | ⟨_, _, rfl⟩ | ⟨_, _, rfl⟩⟩⟩ := mapInFrame_next ht
  · exact (h.applyViews hu).endMapIn hbuf _
  · exact h.endMapIn (SyncBuf.wf_snapshot hf hp) _
  · exact (h.applyViews hu).endMapIn (b := .empty) trivial _
  · exact h.endMapIn (hb ▸ hbuf) _
  · exact h.endMapIn (SyncBuf.wf_snapshot hf hp) _

theorem State.Inv.execMapIn {s t : State} (h : s.Inv) {hd : Handle} (ht : execMapIn hd s = .next t) : t.Inv := by
  obtain ⟨_, f, hf, ht⟩ := execMapIn_next ht
  exact h.enterRun.mapInFrame (h.frame hf) ht

theorem State.Inv.execMapOut {s t : State} (h : s.Inv) {hd : Handle} (ht : execMapOut hd s = .next t) : t.Inv := by
  obtain ⟨_, f, hf, _, _, rfl⟩ := execMapOut_next ht
  exact ((h.enterRun.setFrame hf (FrameEntry.wf_loadedFrom (h.frame hf) _ _) rfl rfl rfl).record _).deliver _

/-! ## Every step -/

/-- Every operation keeps a safe state safe. -/
theorem State.Inv.exec {s t : State} (h : s.Inv) {i : Instr} (ht : exec i s = .next t) : t.Inv := by
  cases i with
  | load bus src => exact h.execLoad ht
  | loadInit bus src => exact h.execLoadInit ht
  | initFrames bus =>
    obtain ⟨c, _, rfl⟩ := execInitFrames_next ht
    exact h.deliver _
  | decode bus raw => exact h.execDecode ht
  | getTx bus n =>
    obtain ⟨_, c, _, ⟨_, rfl⟩ | ⟨f, _, rfl⟩⟩ := execGetTx_next ht
    · exact h.enterRun.raise _
    · exact h.enterRun.deliver _
  | encode bus n =>
    obtain ⟨_, c, _, ⟨_, rfl⟩ | ⟨f, _, rfl⟩⟩ := execEncode_next ht
    · exact h.enterRun.raise _
    · exact h.enterRun.deliver _
  | bload srcs => exact h.execBload ht
  | register ls => exact h.execRegister ht
  | xcheck =>
    obtain ⟨_, rfl⟩ := execXcheck_next ht
    exact (h.record _).deliver _
  | mapIn hd => exact h.execMapIn ht
  | mapOut hd => exact h.execMapOut ht
  | route =>
    obtain ⟨_, rfl⟩ := execRoute_next ht
    exact h.deliver _

/-- Settles O10, by the three things a step can do; the operations one by one are `State.Inv.exec`. -/
theorem stepKeepsSafeStates : Obligations.StepKeepsSafeStates := by
  intro s t h ht
  obtain ⟨_, rfl⟩ | ⟨c, i, rest, _, _, ht⟩ | ⟨addr, bytes, rest, _, hin, rfl⟩ := step_next ht
  · exact h
  · exact (h.setPending rest).exec ht
  · exact (h.setFieldMem (writeBytes_inside h.fieldMem hin)).setPending rest

end Sys2Proof.Machine
end

section
/-! The run phase keeps the layout (10_state.md R30, 20_memory.md R67): the load operations are refused there, DECODE and
MAP_OUT put an entry of the same layout in place, the others touch nothing of the layout. -/

namespace Sys2Proof.Machine

open Sys2Proof

theorem FrameEntry.layout_decoded (f : FrameEntry) (m : Word) : (f.decoded m).layout = f.layout :=
  FrameEntry.layout_setValues f _ _

theorem FrameEntry.layout_loadedFrom (f : FrameEntry) (b : FMap Text Binding) (m : Memory) :
    (f.loadedFrom b m).layout = f.layout := by
  rw [FrameEntry.loadedFrom_eq]
  exact FrameEntry.layout_setValues f _ _

theorem layout_mapInFrame {s t : State} {f : FrameEntry} (h : mapInFrame f s = .next t) :
    t.layout = s.layout ∧ t.phase = s.phase := by
  obtain ⟨_, u, hu, rfl⟩ | ⟨p, _, ⟨_, rfl⟩ | ⟨b, _, ⟨_, u, hu, rfl⟩ | ⟨_, _, rfl⟩ | ⟨_, _, rfl⟩⟩⟩ := mapInFrame_next h
  · obtain ⟨_, _, rfl⟩ := applyViews_next hu
    exact ⟨rfl, rfl⟩
  · exact ⟨rfl, rfl⟩
  · obtain ⟨_, _, rfl⟩ := applyViews_next hu
    exact ⟨rfl, rfl⟩
  · exact ⟨rfl, rfl⟩
  · exact ⟨rfl, rfl⟩

/-- Every operation that the run phase allows keeps the layout and the phase. -/
theorem layout_exec_of_run {s t : State} (h : s.Inv) (hrun : s.phase = .run) {i : Instr} (ht : exec i s = .next t) :
    t.layout = s.layout ∧ t.phase = .run := by
  cases i with
  | load bus src =>
    obtain ⟨hload, _⟩ := execLoad_next ht
    nomatch hrun.symm.trans hload
  | loadInit bus src =>
    obtain ⟨hload, _⟩ := execLoadInit_next ht
    nomatch hrun.symm.trans hload
  | initFrames bus =>
    obtain ⟨c, _, rfl⟩ := execInitFrames_next ht
    exact ⟨rfl, hrun⟩
  | decode bus raw =>
    obtain rfl | ⟨f, hf, rfl⟩ := execDecode_next_setFrame ht
    · exact ⟨rfl, rfl⟩
    · exact ⟨State.layout_setFrame h.enterRun hf (FrameEntry.layout_decoded f _), by simp⟩
  | getTx bus n =>
    obtain ⟨_, c, _, ⟨_, rfl⟩ | ⟨f, _, rfl⟩⟩ := execGetTx_next ht <;> exact ⟨rfl, rfl⟩
  | encode bus n =>
    obtain ⟨_, c, _, ⟨_, rfl⟩ | ⟨f, _, rfl⟩⟩ := execEncode_next ht <;> exact ⟨rfl, rfl⟩
  | bload srcs =>
    obtain ⟨_, hload, _⟩ := execBload_next ht
    nomatch hrun.symm.trans hload
  | register ls =>
    obtain ⟨_, hload, _⟩ := execRegister_next ht
    nomatch hrun.symm.trans hload
  | xcheck =>
    obtain ⟨_, rfl⟩ := execXcheck_next ht
    exact ⟨rfl, hrun⟩
  | mapIn hd =>
    obtain ⟨_, f, _, ht⟩ := execMapIn_next ht
    exact layout_mapInFrame ht
  | mapOut hd =>
    obtain ⟨_, f, hf, _, _, rfl⟩ := execMapOut_next ht
    exact ⟨State.layout_setFrame h.enterRun hf (FrameEntry.layout_loadedFrom f _ _), by simp⟩
  | route =>
    obtain ⟨_, rfl⟩ := execRoute_next ht
    exact ⟨rfl, hrun⟩

/-- Settles O12, by the three things a step can do; the operations one by one are `layout_exec_of_run`. -/
theorem runPhaseKeepsTheLayout : Obligations.RunPhaseKeepsTheLayout := by
  intro s t h hrun ht
  obtain ⟨_, rfl⟩ | ⟨c, i, rest, _, _, ht⟩ | ⟨addr, bytes, rest, _, _, rfl⟩ := step_next ht
  · exact ⟨rfl, hrun⟩
  · exact layout_exec_of_run (s := { s with pending := rest }) (h.setPending rest) hrun ht
  · exact ⟨rfl, hrun⟩

end Sys2Proof.Machine
end

section
/-! Field memory and the synchronisation buffer (10_state.md R37, R38): no operation but MAP_IN writes either, so what a
frame held when it was buffered is what its pair applies. -/

namespace Sys2Proof.Machine

open Sys2Proof Sys2Proof.Spec

/-! ## Who writes them -/

theorem recordSources_syncBuf {b b' : Binder} {srcs : List (Int × List RouteDesc)} (h : recordSources b srcs = .ok b') :
    b'.syncBuf = b.syncBuf := by
  obtain ⟨_, _, _, _, hbuf⟩ := recordSources_induct (fun _ => True) (fun _ => True) (fun _ _ _ _ _ _ => trivial)
    (fun _ _ _ _ _ _ => trivial) h trivial trivial
  exact hbuf

/-- DECODE leaves the binder and the field memory as they are. -/
theorem execDecode_keeps {bus : Int} {raw : RawFrame} {s t : State} (h : execDecode bus raw s = .next t) :
    KeepsBinder s t := by
  obtain rfl | ⟨f, _, rfl⟩ := execDecode_next_setFrame h
  · exact ⟨rfl, rfl, rfl, rfl⟩
  · exact ⟨by simp, by simp, by simp, by simp⟩

/-- Settles O14, operation by operation. -/
theorem onlyMapInWritesFields : Obligations.OnlyMapInWritesFields := by
  intro i s t hi ht
  cases i with
  | load bus src =>
    obtain ⟨_, c, c', rs, _, _, _, rfl⟩ := execLoad_next ht
    exact ⟨rfl, rfl⟩
  | loadInit bus src =>
    obtain ⟨_, c, _, _, rfl⟩ := execLoadInit_next ht
    exact ⟨rfl, rfl⟩
  | initFrames bus =>
    obtain ⟨c, _, rfl⟩ := execInitFrames_next ht
    exact ⟨rfl, rfl⟩
  | decode bus raw =>
    obtain ⟨hbinder, hmem, _, _⟩ := execDecode_keeps ht
    exact ⟨hmem, by rw [hbinder]⟩
  | getTx bus n =>
    obtain ⟨_, c, _, ⟨_, rfl⟩ | ⟨f, _, rfl⟩⟩ := execGetTx_next ht <;> exact ⟨rfl, rfl⟩
  | encode bus n =>
    obtain ⟨_, c, _, ⟨_, rfl⟩ | ⟨f, _, rfl⟩⟩ := execEncode_next ht <;> exact ⟨rfl, rfl⟩
  | bload srcs =>
    obtain ⟨_, _, b, hb, rfl⟩ := execBload_next ht
    exact ⟨rfl, recordSources_syncBuf hb⟩
  | register ls =>
    obtain ⟨_, _, hbuf⟩ := registerLeaves_keeps s.binder ls
    obtain ⟨_, _, b, ⟨hr, rfl⟩ | ⟨n, hr, rfl⟩⟩ := execRegister_next ht <;> rw [hr] at hbuf <;> exact ⟨rfl, hbuf⟩
  | xcheck =>
    obtain ⟨_, rfl⟩ := execXcheck_next ht
    exact ⟨rfl, rfl⟩
  | mapIn hd => exact absurd rfl (hi hd)
  | mapOut hd =>
    obtain ⟨_, f, _, _, _, rfl⟩ := execMapOut_next ht
    exact ⟨by simp, by simp⟩
  | route =>
    obtain ⟨_, rfl⟩ := execRoute_next ht
    exact ⟨rfl, rfl⟩

/-! ## What a pair applies -/

/-- The copies of a view are the machine's accesses. -/
theorem writes_iff_mem_accessesOf (b : FMap Text Binding) (v : View) (addr n : Nat) (x : Word) :
    Writes b v addr n x ↔ (⟨addr, n, x⟩ : FieldAccess) ∈ accessesOf b v := by
  rw [mem_accessesOf]
  simp only [Writes, FieldAccess.mk.injEq, ceil8]

theorem applyAccesses_append (m : Memory) (as as' : List FieldAccess) :
    applyAccesses m (as ++ as') = applyAccesses (applyAccesses m as) as' :=
  List.foldl_append

/-- A byte that a view spares stays. -/
theorem read_applyAccesses_of_spares {b : FMap Text Binding} {v : View} {a : Nat} (h : Spares b v a) (m : Memory) :
    (applyAccesses m (accessesOf b v)).read a = m.read a :=
  applyAccesses_read_outside m _ fun x hx => h x.addr x.count x.value ((writes_iff_mem_accessesOf ..).2 hx)

/-- Byte `k` of a word, as the number that a copy puts in memory (00_scope.md R14). -/
theorem setWidth_ushiftRight_eq_ofNat (x : Word) (k : Nat) :
    (x >>> (8 * k)).setWidth 8 = BitVec.ofNat 8 (x.toNat / 2 ^ (8 * k)) := by
  apply BitVec.eq_of_toNat_eq
  rw [BitVec.toNat_setWidth, BitVec.toNat_ushiftRight, Nat.shiftRight_eq_div_pow, BitVec.toNat_ofNat]

/-- A copy that no other copy of its view meets is in memory after the view is applied. -/
theorem writtenApart_applyAccesses {m : Memory} (hm : Memory.wf m) (b : FMap Text Binding) (v : View) :
    WrittenApart b v (applyAccesses m (accessesOf b v)) := by
  intro addr n x hw _ hapart k hk
  rw [← setWidth_ushiftRight_eq_ofNat]
  refine applyAccesses_read_inside hm ((writes_iff_mem_accessesOf ..).1 hw) (fun y hy hne => ?_) hk
  exact hapart y.addr y.count y.value ((writes_iff_mem_accessesOf ..).2 hy) fun e => hne (by cases y; cases e; rfl)

/-- MAP_IN of a frame with a partner into an empty buffer. -/
theorem execMapIn_next_of_empty {hd : Handle} {s t : State} {f : FrameEntry} {p : Text} (hf : s.frame? hd = some f)
    (hp : f.syncPartner = some p) (he : s.binder.syncBuf = .empty) (h : execMapIn hd s = .next t) :
    t = s.enterRun.endMapIn (.full f.snapshot) .buffered := by
  obtain ⟨hb, _⟩ := execMapIn_next h
  rw [execMapIn_of_frame hb hf] at h
  simp only [mapInFrame, hp, State.enterRun_binder, he] at h
  exact (Host.Outcome.next.inj h).symm

/-- MAP_IN of the partner of the buffered frame: both views are applied, the buffered one first (43_binder.md R173). -/
theorem execMapIn_next_of_partner {hd : Handle} {s t : State} {f : FrameEntry} {b : Snapshot} (hf : s.frame? hd = some f)
    (hp : f.syncPartner = some b.name) (hfull : s.binder.syncBuf = .full b) (h : execMapIn hd s = .next t) :
    t.result = some (.mapped .appliedPair) ∧
      t.fieldMem = applyAccesses (applyAccesses s.fieldMem (accessesOf s.binder.inBind b.view))
        (accessesOf s.binder.inBind f.view) := by
  obtain ⟨hb, _⟩ := execMapIn_next h
  rw [execMapIn_of_frame hb hf] at h
  simp only [mapInFrame, hp, State.enterRun_binder, hfull, if_true] at h
  obtain ⟨u, hu, rfl⟩ := applyThenEnd_next h
  obtain ⟨_, _, rfl⟩ := applyViews_next hu
  exact ⟨rfl, by simp [applyAccesses_append]⟩

/-- DECODE changes no live entry but the one of its identifier. -/
theorem frame?_execDecode_of_ne {bus : Int} {raw : RawFrame} {s t : State} {j : Handle}
    (h : execDecode bus raw s = .next t) (hj : j ≠ ⟨bus, .inbound raw.busId⟩) : t.frame? j = s.frame? j := by
  obtain rfl | ⟨f, _, rfl⟩ := execDecode_next_setFrame h
  · rfl
  · exact State.frame?_setFrame_of_ne _ _ hj.symm

/-- Settles O60: the buffer holds the first arrival's view, DECODE keeps buffer, memory and the partner's entry, and the
pair applies the buffered view first, so its bytes stand where the partner's view spares them. -/
theorem bufferedValuesSurviveDecode : Obligations.BufferedValuesSurviveDecode := by
  intro s s1 s2 s3 bus raw b f ha hinv _ hb hempty hne hf hfp hbp _ h1 h2 h3
  obtain rfl := execMapIn_next_of_empty hb hbp hempty h1
  obtain ⟨hbinder, hmem, _, _⟩ := execDecode_keeps h2
  have hf2 : s2.frame? ha = some f := (frame?_execDecode_of_ne h2 hne).trans hf
  obtain ⟨hres, hmem3⟩ := execMapIn_next_of_partner (b := b.snapshot) hf2 hfp (by rw [hbinder]; rfl) h3
  refine ⟨hres, fun addr n x hw hn hapart hspare k hk => ?_⟩
  rw [hmem3, hbinder, hmem]
  calc _ = (applyAccesses s.fieldMem (accessesOf s.binder.inBind b.view)).read (addr + k) :=
        read_applyAccesses_of_spares (hspare k hk) _
    _ = _ := writtenApart_applyAccesses hinv.fieldMem.1 _ _ addr n x hw hn hapart k hk

end Sys2Proof.Machine
end

section
/-! What the queries leave alone (20_memory.md R61), and what a step does on the inputs that are no operation: none, an
undecodable command, overlapping calls, a platform write (log 2, 13, 15, 16). -/

namespace Sys2Proof.Machine

open Sys2Proof Sys2Proof.Spec

/-! ## Queries -/

/-- The log, the result and the phase are no part of what `KeepsCodecs` and `KeepsBinder` speak of. -/
theorem keeps_setOutputs (s : State) (log : List Report) (result : Option OpResult) (phase : Phase) :
    KeepsCodecs s { s with log := log, result := result, phase := phase } ∧
      KeepsBinder s { s with log := log, result := result, phase := phase } :=
  ⟨⟨rfl, rfl, rfl⟩, rfl, rfl, rfl, rfl⟩

/-- Settles O18: each of the five ends in a state that differs in log, result and phase only; the other seven are excluded. -/
theorem queriesChangeNoState : Obligations.QueriesChangeNoState := by
  rintro i s t ⟨hload, hdecode, hmapIn, hmapOut⟩ ht
  cases i with
  | load bus src => cases hload
  | loadInit bus src => cases hload
  | initFrames bus =>
    obtain ⟨c, _, rfl⟩ := execInitFrames_next ht
    exact keeps_setOutputs s ..
  | decode bus raw => exact absurd rfl (hdecode bus raw)
  | getTx bus n =>
    obtain ⟨_, c, _, ⟨_, rfl⟩ | ⟨f, _, rfl⟩⟩ := execGetTx_next ht <;> exact keeps_setOutputs s ..
  | encode bus n =>
    obtain ⟨_, c, _, ⟨_, rfl⟩ | ⟨f, _, rfl⟩⟩ := execEncode_next ht <;> exact keeps_setOutputs s ..
  | bload srcs => cases hload
  | register ls => cases hload
  | xcheck =>
    obtain ⟨_, rfl⟩ := execXcheck_next ht
    exact keeps_setOutputs s ..
  | mapIn hd => exact absurd rfl (hmapIn hd)
  | mapOut hd => exact absurd rfl (hmapOut hd)
  | route =>
    obtain ⟨_, rfl⟩ := execRoute_next ht
    exact keeps_setOutputs s ..

/-! ## Which bytes there are -/

theorem hasByte_iff_specHasByte (c : Config) (a : Nat) : c.hasByte a = true ↔ HasByte c a := by
  unfold Config.hasByte HasByte
  cases c.addrType with
  | bits w => simp [AddrType.has, and_assoc]
  | natural => simp [AddrType.has]

/-- The machine's test on a range is the specification's. -/
theorem hasBytes_iff_specHasBytes (c : Config) (addr n : Nat) : c.hasBytes addr n = true ↔ HasBytes c addr n := by
  simp only [hasBytes_iff, hasByte_iff_specHasByte, HasBytes]

/-! ## Inputs that are no operation -/

theorem step_of_pending_nil {s : State} (h : s.pending = []) : step s = .next s := by
  unfold step; rw [h]

theorem step_of_undecodable {s : State} {c : Command} {rest : List Input} {why : Reject}
    (h : s.pending = .command c :: rest) (hc : decode c = .error why) : step s = .refused (.undecodable why) := by
  unfold step; simp only [h, hc]

theorem step_of_overlapping {s : State} {a b : Command} {rest : List Input} (h : s.pending = .overlapping a b :: rest) :
    step s = .refused .concurrentCall := by
  unfold step; rw [h]

theorem step_of_platformWrite {s : State} {addr : Nat} {bs : List Byte} {rest : List Input}
    (h : s.pending = .platformWrite addr bs :: rest) : step s = platformWrite addr bs { s with pending := rest } := by
  unfold step; rw [h]

theorem platformWrite_of_hasBytes {s : State} {addr : Nat} {bs : List Byte} (h : s.cfg.hasBytes addr bs.length = true) :
    platformWrite addr bs s = .next { s with fieldMem := writeBytes s.fieldMem addr bs } :=
  if_pos h

theorem platformWrite_of_outside {s : State} {addr : Nat} {bs : List Byte} (h : ¬ s.cfg.hasBytes addr bs.length = true) :
    platformWrite addr bs s = .fault (.noSuchFieldAddress addr) :=
  if_neg h

/-- Settles O7, input by input; a platform write inside the memory leaves `writeBytes` of it, whose bytes the laws of field
memory give. -/
theorem stepOnOtherInputs : Obligations.StepOnOtherInputs := by
  refine ⟨fun s => step_of_pending_nil, fun s c rest why => step_of_undecodable, fun s a b rest => step_of_overlapping,
    fun s addr bs rest hp hin hwf => ?_, fun s addr bs rest hp hout => ?_⟩
  · rw [step_of_platformWrite hp]
    exact ⟨writeBytes s.fieldMem addr bs, platformWrite_of_hasBytes ((hasBytes_iff_specHasBytes ..).2 hin),
      writeBytes_wf hwf addr bs, fun k hk => writeBytes_read_inside hwf addr bs hk,
      fun a ha => writeBytes_read_outside _ addr bs ha⟩
  · rw [step_of_platformWrite hp]
    exact platformWrite_of_outside fun h => hout ((hasBytes_iff_specHasBytes ..).1 h)

end Sys2Proof.Machine
end

section
/-! Encoding and decoding: the object of every descriptor resolves to the descriptor (40_load.md R103, 30_encoding.md R73 to
R80), and the command of every operation decodes to the operation (R88). -/

namespace Sys2Proof

/-! ## Objects of descriptors -/

@[simp] theorem requiredMember_given {α : Type} (bad : Reject) (v : α) : requiredMember bad (.given v) = .ok v := rfl

@[simp] theorem optionalMember_given {α : Type} (bad : Reject) (dflt v : α) :
    optionalMember bad dflt (.given v) = .ok v := rfl

theorem requiredId_idText (w : Word) : requiredId (.given (idText w)) = .ok w := by simp [requiredId, readId_idText]

theorem readByte_number_toNat (b : Byte) : readByte (.number (b.toNat : Int)) = some b := by
  have hlt := b.isLt
  simp only [readByte, Int.toNat_natCast, BitVec.ofNat_toNat, BitVec.setWidth_eq]
  exact if_pos (by omega)

/-- The members of a frame object, one by one; only the partner needs a premise (30_encoding.md R78). -/
theorem resolveFrame_frameObj {d : FrameDesc} (h : d.syncPartner ≠ some ['n', 'o', 'n', 'e']) :
    resolveFrame (frameObj d) = .ok d := by
  have hanalog := resolveEach_map resolveAnalog analogObj d.analog fun a _ => resolveAnalog_analogObj a
  have hdigital := resolveEach_map resolveDigital digitalObj d.digital fun g _ => resolveDigital_digitalObj g
  simp [resolveFrame, frameObj, requiredId_idText, requiredDir_dirText,
    optionalPartner_partnerMember _ h, hanalog, hdigital, bind, Except.bind, pure, Except.pure]

theorem resolveInit_initObj (d : InitDesc) : resolveInit (initObj d) = .ok d := by
  simp only [resolveInit, initObj, requiredMember_given, requiredId_idText, bind, Except.bind]
  rw [resolveEach_map _ _ _ fun b _ => by simp only [readByte_number_toNat]]
  rfl

/-- BLOAD's object has a name only where BLOAD reads one (43_binder.md R160). -/
theorem resolveRoute_routeObj (d : RouteDesc) : resolveRoute (routeObj d) = .ok d := by
  obtain ⟨route, analog, digital⟩ := d
  have hanalog := resolveEach_map (fun e : AnalogObj => requiredMember .signalName e.name)
    (fun n => { name := .given n, startBit := .absent, bitSize := .absent, byteInverted := .absent }) analog fun _ _ => rfl
  have hdigital := resolveEach_map (fun e : DigitalObj => requiredMember .signalName e.name)
    (fun n => { name := .given n, startBit := .absent }) digital fun _ _ => rfl
  cases route <;>
    simp [resolveRoute, routeObj, routeName, routeInOut, requiredDir_dirText, hanalog, hdigital, bind, Except.bind, pure,
      Except.pure, Except.map]

theorem resolveBus_routeObjs (p : Int × List RouteDesc) : resolveBus (p.1, p.2.map routeObj) = .ok p := by
  have hroutes := resolveEach_map resolveRoute routeObj p.2 fun d _ => resolveRoute_routeObj d
  simp [resolveBus, hroutes, Except.map]

/-! ## Every operation -/

theorem FrameDesc.syncPartner_ne_of_wf {d : FrameDesc} (h : d.wf = true) : d.syncPartner ≠ some ['n', 'o', 'n', 'e'] := by
  obtain ⟨_, hpartner⟩ := (Bool.and_eq_true ..).mp h
  exact of_decide_eq_true hpartner

/-- Settles O2: of the twelve operations only LOAD, LOAD_INIT and BLOAD carry objects, and each object resolves to its
descriptor. -/
theorem encodeThenDecodeIsIdentity : Obligations.EncodeThenDecodeIsIdentity := by
  intro i hwf
  cases i with
  | load bus src =>
    have hsrc := resolveEach_map resolveFrame frameObj src fun d hd =>
      resolveFrame_frameObj (FrameDesc.syncPartner_ne_of_wf (List.all_eq_true.1 hwf d hd))
    simp only [encode, decode_load, decodeLoad, hsrc, Except.map]
  | loadInit bus src =>
    have hsrc := resolveEach_map resolveInit initObj src fun d _ => resolveInit_initObj d
    simp only [encode, decode_loadInit, decodeLoadInit, hsrc, Except.map]
  | bload srcs =>
    have hsrcs := resolveEach_map resolveBus (fun p => (p.1, p.2.map routeObj)) srcs fun p _ => resolveBus_routeObjs p
    simp only [encode, decode_bload, decodeBload, hsrcs, Except.map]
  | initFrames bus => rfl
  | decode bus raw => rfl
  | getTx bus n => rfl
  | encode bus n => rfl
  | register ls => rfl
  | xcheck => rfl
  | mapIn h => rfl
  | mapOut h => rfl
  | route => rfl

/-- Settles O1: each word's code selects its operation, whose operand of zeros resolves by computation. -/
theorem tableWordsDecode : Obligations.TableWordsDecode :=
  ⟨rfl, rfl, rfl, rfl, rfl, rfl, rfl, rfl, rfl, rfl, rfl, rfl, rfl, rfl, rfl, rfl⟩

end Sys2Proof
end

section
/-! Digits (30_encoding.md R76, R80): which characters are digits, which texts read as a number, and the two literals of the
sources that are read so, identifiers and bytes. -/

namespace Sys2Proof

open Sys2Proof.Spec

/-! ## Which characters are digits -/

theorem digitValue_hexChar (d : Fin 16 × Bool) : digitValue (hexChar d) = some d.1.val := by
  revert d; decide

theorem toNat_lt_of_digitValue {c : Char} {v : Nat} (h : digitValue c = some v) : c.toNat < 103 := by
  have hle : ∀ u : Char, c ≤ u → u.toNat < 103 → c.toNat < 103 := fun u hc hu => Nat.lt_of_le_of_lt hc hu
  unfold digitValue at h
  split at h
  · next hc => exact hle '9' hc.2 (by decide)
  split at h
  · next hc => exact hle 'f' hc.2 (by decide)
  split at h
  · next hc => exact hle 'F' hc.2 (by decide)
  · cases h

/-- A character with a digit's value is that hexadecimal digit, in one of the two cases. -/
theorem exists_hexChar_of_digitValue {c : Char} {v : Nat} (h : digitValue c = some v) :
    ∃ d : Fin 16 × Bool, c = hexChar d ∧ d.1.val = v := by
  have key : ∀ n : Fin 103, ∀ v ∈ digitValue (Char.ofNat n), ∃ d : Fin 16 × Bool, Char.ofNat n = hexChar d ∧ d.1.val = v := by
    decide
  have hchar := key ⟨c.toNat, toNat_lt_of_digitValue h⟩ v
  simp only [Char.ofNat_toNat] at hchar
  exact hchar h

/-- Below ten the case of a digit makes no difference. -/
theorem hexChar_of_lt_ten (d : Fin 16) (u : Bool) (h : d.val < 10) : hexChar (d, u) = hexChar (d, false) := by
  revert d u; decide

/-- A character with a value below a base of at most ten is that base's digit. -/
theorem exists_hexChar_castLE {b : Nat} (hb : b ≤ 10) (hb' : b ≤ 16) {c : Char} {v : Nat} (h : digitValue c = some v)
    (hv : v < b) : ∃ d : Fin b, c = hexChar (d.castLE hb', false) := by
  obtain ⟨⟨d, u⟩, rfl, rfl⟩ := exists_hexChar_of_digitValue h
  exact ⟨⟨d.val, hv⟩, hexChar_of_lt_ten d u (Nat.lt_of_lt_of_le hv hb)⟩

/-- No hexadecimal digit is the second character of a hexadecimal mark. -/
theorem hexChar_not_mark (d : Fin 16 × Bool) : hexChar d ≠ 'x' ∧ hexChar d ≠ 'X' := by
  revert d; decide

/-- No decimal digit is the second character of a mark; `b` and `B` are hexadecimal digits. -/
theorem decimalDigit_not_mark (d : Fin 10) : hexChar (d.castLE (by decide), false) ∉ ['b', 'B', 'x', 'X'] := by
  revert d; decide

/-! ## Which texts are numbers -/

section
variable {α : Type} {base : Nat} {ch : α → Char} (hch : ∀ c v, digitValue c = some v → v < base → ∃ d, c = ch d)
include hch

/-- What reads as a number is written in digits. -/
theorem exists_digits_of_readDigits {t : Text} {acc n : Nat} (h : readDigits base acc t = some n) :
    ∃ ds : List α, t = ds.map ch := by
  induction t generalizing acc with
  | nil => exact ⟨[], rfl⟩
  | cons c t ih =>
    unfold readDigits at h
    split at h
    · next v hv =>
      split at h
      · next hlt =>
        obtain ⟨d, rfl⟩ := hch c v hv hlt
        obtain ⟨ds, rfl⟩ := ih h
        exact ⟨d :: ds, rfl⟩
      · cases h
    · cases h

theorem readNumber_eq_none {t : Text} (ht : ∀ ds : List α, t ≠ ds.map ch) : readNumber base t = none := by
  cases t with
  | nil => rfl
  | cons c t =>
    refine Option.eq_none_iff_forall_ne_some.2 fun n hn => ?_
    obtain ⟨ds, hds⟩ := exists_digits_of_readDigits hch hn
    exact ht ds hds

end

/-! ## Identifiers -/

/-- A text is what is left of it after the mark, behind one of the three marks. -/
theorem exists_mark_append_dropHexMark (t : Text) :
    ∃ mark : Text, mark ∈ [[], ['0', 'x'], ['0', 'X']] ∧ t = mark ++ dropHexMark t := by
  unfold dropHexMark
  split
  · exact ⟨['0', 'x'], by simp, rfl⟩
  · exact ⟨['0', 'X'], by simp, rfl⟩
  · exact ⟨[], by simp, rfl⟩

theorem dropHexMark_mark_append {mark : Text} (hm : mark ∈ [[], ['0', 'x'], ['0', 'X']]) (ds : List (Fin 16 × Bool)) :
    dropHexMark (mark ++ ds.map hexChar) = ds.map hexChar := by
  simp only [List.mem_cons, List.not_mem_nil, or_false] at hm
  obtain rfl | rfl | rfl := hm
  · refine dropHexMark_of_no_mark _ fun c hc => ?_
    obtain ⟨d, _, rfl⟩ := List.mem_map.1 hc
    exact hexChar_not_mark d
  · rfl
  · rfl

/-- Settles O3: what stands behind the mark is read as hexadecimal digits, and nothing but digits is. -/
theorem hexIdentifierIsRead : Obligations.HexIdentifierIsRead := by
  refine ⟨fun mark ds hm => ?_, fun t ht => ?_⟩
  · have hnumber := readNumber_map 16 hexChar (fun d => d.1.val) (fun d => d.1.isLt) digitValue_hexChar ds
    unfold readId
    rw [dropHexMark_mark_append hm, hnumber]
    by_cases hds : ds = []
    · simp [hds]
    · simp [hds, numberOf]
  · obtain ⟨mark, hm, hmark⟩ := exists_mark_append_dropHexMark t
    have hnone : readNumber 16 (dropHexMark t) = none := by
      refine readNumber_eq_none (ch := hexChar) (fun c v hv _ => ?_) fun ds hds => ht mark hm ds (hds ▸ hmark)
      obtain ⟨d, hd, _⟩ := exists_hexChar_of_digitValue hv
      exact ⟨d, hd⟩
    unfold readId
    rw [hnone]

/-! ## Byte literals -/

/-- A literal's text that is read as digits of a base is the number they spell, up to 255. -/
theorem readByte_of_digits {α : Type} {base : Nat} {ch : α → Char} {val : α → Nat} (hn : ∀ d, val d < base)
    (hv : ∀ d, digitValue (ch d) = some (val d)) {t : Text} {ds : List α}
    (ht : readLiteralText t = readNumber base (ds.map ch)) :
    readByte (.text t) = if ds ≠ [] ∧ numberOf base (ds.map val) ≤ 255 then
      some (BitVec.ofNat 8 (numberOf base (ds.map val))) else none := by
  unfold readByte
  simp only [ht, readNumber_map base ch val hn hv]
  by_cases hds : ds = []
  · simp [hds]
  · simp [hds, numberOf]

theorem readLiteralText_binary {mark : Char} (hm : mark ∈ ['b', 'B']) (t : Text) :
    readLiteralText ('0' :: mark :: t) = readNumber 2 t := by
  simp only [List.mem_cons, List.not_mem_nil, or_false] at hm
  obtain rfl | rfl := hm <;> rfl

theorem readLiteralText_hexadecimal {mark : Char} (hm : mark ∈ ['x', 'X']) (t : Text) :
    readLiteralText ('0' :: mark :: t) = readNumber 16 t := by
  simp only [List.mem_cons, List.not_mem_nil, or_false] at hm
  obtain rfl | rfl := hm <;> rfl

theorem readLiteralText_of_no_mark {t : Text} (h : ∀ c ∈ t, c ∉ ['b', 'B', 'x', 'X']) :
    readLiteralText t = readNumber 10 t := by
  unfold readLiteralText
  split
  · exact absurd (by simp) (h 'b' (by simp))
  · exact absurd (by simp) (h 'B' (by simp))
  · exact absurd (by simp) (h 'x' (by simp))
  · exact absurd (by simp) (h 'X' (by simp))
  · rfl

theorem readLiteralText_decimal (ds : List (Fin 10)) :
    readLiteralText (ds.map fun d => hexChar (d.castLE (by decide), false)) =
      readNumber 10 (ds.map fun d => hexChar (d.castLE (by decide), false)) := by
  refine readLiteralText_of_no_mark fun c hc => ?_
  obtain ⟨d, _, rfl⟩ := List.mem_map.1 hc
  exact decimalDigit_not_mark d

/-- A text in none of the spellings spells no number: what stands behind its mark, or the whole text, is not digits. -/
theorem readLiteralText_eq_none {t : Text}
    (hbinary : ∀ (mark : Char) (ds : List (Fin 2)), mark ∈ ['b', 'B'] →
      t ≠ '0' :: mark :: ds.map fun d => hexChar (d.castLE (by decide), false))
    (hhex : ∀ (mark : Char) (ds : List (Fin 16 × Bool)), mark ∈ ['x', 'X'] → t ≠ '0' :: mark :: ds.map hexChar)
    (hdecimal : ∀ ds : List (Fin 10), t ≠ ds.map fun d => hexChar (d.castLE (by decide), false)) :
    readLiteralText t = none := by
  have hdigit2 := fun c v => exists_hexChar_castLE (b := 2) (by decide) (by decide) (c := c) (v := v)
  have hdigit10 := fun c v => exists_hexChar_castLE (b := 10) (by decide) (by decide) (c := c) (v := v)
  have hdigit16 : ∀ c v, digitValue c = some v → v < 16 → ∃ d, c = hexChar d := fun c v hv _ =>
    (exists_hexChar_of_digitValue hv).imp fun _ => And.left
  unfold readLiteralText
  split
  · exact readNumber_eq_none hdigit2 fun ds e => hbinary 'b' ds (by simp) (by rw [e])
  · exact readNumber_eq_none hdigit2 fun ds e => hbinary 'B' ds (by simp) (by rw [e])
  · exact readNumber_eq_none hdigit16 fun ds e => hhex 'x' ds (by simp) (by rw [e])
  · exact readNumber_eq_none hdigit16 fun ds e => hhex 'X' ds (by simp) (by rw [e])
  · exact readNumber_eq_none hdigit10 hdecimal

/-- Settles O4, spelling by spelling. -/
theorem byteLiteralIsRead : Obligations.ByteLiteralIsRead := by
  refine ⟨fun mark ds hm => ?_, fun mark ds hm => ?_, fun ds => ?_, fun n => rfl, fun t hbinary hhex hdecimal => ?_, rfl⟩
  · exact readByte_of_digits Fin.isLt (fun d => digitValue_hexChar _) (readLiteralText_binary hm _)
  · exact readByte_of_digits (fun d => d.1.isLt) digitValue_hexChar (readLiteralText_hexadecimal hm _)
  · exact readByte_of_digits Fin.isLt (fun d => digitValue_hexChar _) (readLiteralText_decimal ds)
  · unfold readByte
    simp only [readLiteralText_eq_none hbinary hhex hdecimal]

end Sys2Proof
end

section
/-! What the decoder reads under each code, and which operations the block refuses: codes that are no operation, operations of
an absent option (30_encoding.md R89), and operands that name nothing in the block (log 10, 11, 19). -/

namespace Sys2Proof

/-! ## Each decoder reads its own operation only (30_encoding.md R88) -/

/-- What a mapped result gives is the function's value at some argument. -/
theorem exists_of_map_eq_ok {α β : Type} {e : Except Reject α} {f : α → β} {y : β} (h : e.map f = .ok y) :
    ∃ x, f x = y := by
  cases e with
  | error why => cases h
  | ok x => exact ⟨x, Except.ok.inj h⟩

theorem encode_op_of_decodeLoad {o : Operand} {i : Instr} (h : decodeLoad o = .ok i) : (encode i).op = 0x1 := by
  cases o with
  | schema bus src => obtain ⟨ds, rfl⟩ := exists_of_map_eq_ok h; rfl
  | _ => cases h

theorem encode_op_of_decodeLoadInit {o : Operand} {i : Instr} (h : decodeLoadInit o = .ok i) : (encode i).op = 0x2 := by
  cases o with
  | init bus src => obtain ⟨ds, rfl⟩ := exists_of_map_eq_ok h; rfl
  | _ => cases h

theorem encode_op_of_decodeInitFrames {o : Operand} {i : Instr} (h : decodeInitFrames o = .ok i) :
    (encode i).op = 0x3 := by
  cases o <;> cases h; rfl

theorem encode_op_of_decodeDecode {o : Operand} {i : Instr} (h : decodeDecode o = .ok i) : (encode i).op = 0x4 := by
  cases o <;> cases h; rfl

theorem encode_op_of_decodeGetTx {o : Operand} {i : Instr} (h : decodeGetTx o = .ok i) : (encode i).op = 0x5 := by
  cases o <;> cases h; rfl

theorem encode_op_of_decodeEncode {o : Operand} {i : Instr} (h : decodeEncode o = .ok i) : (encode i).op = 0x6 := by
  cases o <;> cases h; rfl

theorem encode_op_of_decodeBload {o : Operand} {i : Instr} (h : decodeBload o = .ok i) : (encode i).op = 0x8 := by
  cases o with
  | sources srcs => obtain ⟨ds, rfl⟩ := exists_of_map_eq_ok h; rfl
  | _ => cases h

theorem encode_op_of_decodeRegister {o : Operand} {i : Instr} (h : decodeRegister o = .ok i) : (encode i).op = 0x9 := by
  cases o <;> cases h; rfl

theorem encode_op_of_decodeXcheck {o : Operand} {i : Instr} (h : decodeXcheck o = .ok i) : (encode i).op = 0xA := by
  cases o <;> cases h; rfl

theorem encode_op_of_decodeMapIn {o : Operand} {i : Instr} (h : decodeMapIn o = .ok i) : (encode i).op = 0xB := by
  cases o <;> cases h; rfl

theorem encode_op_of_decodeMapOut {o : Operand} {i : Instr} (h : decodeMapOut o = .ok i) : (encode i).op = 0xC := by
  cases o <;> cases h; rfl

theorem encode_op_of_decodeRoute {o : Operand} {i : Instr} (h : decodeRoute o = .ok i) : (encode i).op = 0xD := by
  cases o <;> cases h; rfl

/-- A command decodes only to an operation of its own code. -/
theorem encode_op_of_decode {c : Command} {i : Instr} (h : decode c = .ok i) : (encode i).op = c.op := by
  have same {k : BitVec 4} (hi : (encode i).op = k) (hop : c.op.toNat = k.toNat) : (encode i).op = c.op :=
    hi.trans (BitVec.eq_of_toNat_eq hop.symm)
  unfold decode at h
  split at h
  · next hop => exact same (encode_op_of_decodeLoad h) hop
  · next hop => exact same (encode_op_of_decodeLoadInit h) hop
  · next hop => exact same (encode_op_of_decodeInitFrames h) hop
  · next hop => exact same (encode_op_of_decodeDecode h) hop
  · next hop => exact same (encode_op_of_decodeGetTx h) hop
  · next hop => exact same (encode_op_of_decodeEncode h) hop
  · next hop => exact same (encode_op_of_decodeBload h) hop
  · next hop => exact same (encode_op_of_decodeRegister h) hop
  · next hop => exact same (encode_op_of_decodeXcheck h) hop
  · next hop => exact same (encode_op_of_decodeMapIn h) hop
  · next hop => exact same (encode_op_of_decodeMapOut h) hop
  · next hop => exact same (encode_op_of_decodeRoute h) hop
  · cases h

/-! ## Codes (30_encoding.md R86, R89) -/

/-- No operation has a reserved code. -/
theorem encode_op_not_reserved (i : Instr) : (encode i).op ∉ [0x0#4, 0x7#4, 0xE#4, 0xF#4] := by
  cases i <;> simp [encode]

end Sys2Proof

namespace Sys2Proof.Machine

open Sys2Proof Sys2Proof.Spec

/-! ## A step on a command -/

theorem step_of_decodes {s : State} {c : Command} {rest : List Input} {i : Instr} (h : s.pending = .command c :: rest)
    (hc : decode c = .ok i) : step s = exec i { s with pending := rest } := by
  unfold step; simp only [h, hc]

/-- Settles O6. -/
theorem stepRunsTheDecodedOperation : Obligations.StepRunsTheDecodedOperation := fun _ _ _ _ => step_of_decodes

/-- A step on a command is a refusal where every operation of the command's code is one. -/
theorem step_refused_of_op {s : State} {c : Command} {rest : List Input} (h : s.pending = .command c :: rest)
    (hop : ∀ i, (encode i).op = c.op → ∃ why, exec i { s with pending := rest } = .refused why) :
    ∃ why, step s = .refused why := by
  cases hc : decode c with
  | error why => exact ⟨_, step_of_undecodable h hc⟩
  | ok i =>
    rw [step_of_decodes h hc]
    exact hop i (encode_op_of_decode hc)

/-! ## Absent options (30_encoding.md R89) -/

theorem exec_of_ser_absent {s : State} (h : s.cfg.ser = false) {i : Instr} (hi : (encode i).op ∈ [0x5#4, 0x6#4]) :
    exec i s = .refused (.optionAbsent .ser) := by
  have habsent := Bool.eq_false_iff.1 h
  cases i with
  | getTx bus n => exact if_neg habsent
  | encode bus n => exact if_neg habsent
  | _ => simp [encode] at hi

theorem exec_of_bind_absent {s : State} (h : s.cfg.bind = false) {i : Instr}
    (hi : (encode i).op ∈ [0x8#4, 0x9#4, 0xA#4, 0xB#4, 0xC#4, 0xD#4]) : exec i s = .refused (.optionAbsent .bind) := by
  have habsent := Bool.eq_false_iff.1 h
  cases i with
  | bload srcs => exact if_neg habsent
  | register ls => exact if_neg habsent
  | xcheck => exact if_neg habsent
  | mapIn hd => exact if_neg habsent
  | mapOut hd => exact if_neg habsent
  | route => exact if_neg habsent
  | _ => simp [encode] at hi

/-- Settles O5: a command decodes only to operations of its code, a reserved code has none, and those of an absent option are
refused. -/
theorem reservedCodesAreRefused : Obligations.ReservedCodesAreRefused := by
  intro s c rest hp hcase
  refine step_refused_of_op hp fun i hop => ?_
  rw [← hop] at hcase
  obtain hreserved | ⟨hser, hmem⟩ | ⟨hbind, hmem⟩ := hcase
  · exact absurd hreserved (encode_op_not_reserved i)
  · exact ⟨_, exec_of_ser_absent (s := { s with pending := rest }) hser hmem⟩
  · exact ⟨_, exec_of_bind_absent (s := { s with pending := rest }) hbind hmem⟩

/-! ## Operands that name nothing in the block (log 10, 11, 19) -/

theorem execMapIn_of_no_frame {s : State} {h : Handle} (hb : s.cfg.bind = true) (hf : s.frame? h = none) :
    execMapIn h s = .refused (.noLiveFrame h) := by
  unfold execMapIn
  simp only [hb, hf, if_true]

theorem execMapOut_of_no_frame {s : State} {h : Handle} (hb : s.cfg.bind = true) (hf : s.frame? h = none) :
    execMapOut h s = .refused (.noLiveFrame h) := by
  unfold execMapOut
  simp only [hb, hf, if_true]

/-- A codec operation that answers a next state has found its codec. -/
theorem codec?_of_exec_next {s t : State} {i : Instr} {bus : Int} (hi : codecOf i = some bus) (h : exec i s = .next t) :
    ∃ c, s.codec? bus = some c := by
  cases i with
  | load b src =>
    cases hi
    obtain ⟨_, c, _, _, hc, _⟩ := execLoad_next h
    exact ⟨c, hc⟩
  | loadInit b src =>
    cases hi
    obtain ⟨_, c, hc, _⟩ := execLoadInit_next h
    exact ⟨c, hc⟩
  | initFrames b =>
    cases hi
    obtain ⟨c, hc, _⟩ := execInitFrames_next h
    exact ⟨c, hc⟩
  | decode b raw =>
    cases hi
    obtain ⟨c, hc, _⟩ := execDecode_next h
    exact ⟨c, hc⟩
  | getTx b n =>
    cases hi
    obtain ⟨_, c, hc, _⟩ := execGetTx_next h
    exact ⟨c, hc⟩
  | encode b n =>
    cases hi
    obtain ⟨_, c, hc, _⟩ := execEncode_next h
    exact ⟨c, hc⟩
  | _ => cases hi

/-- A codec operation that answers no next state is refused: it has no fault. -/
theorem exec_refused_of_codecOf {s : State} {i : Instr} {bus : Int} (hi : codecOf i = some bus)
    (hn : ∀ t, exec i s ≠ .next t) : ∃ why, exec i s = .refused why := by
  cases he : exec i s with
  | next t => exact absurd he (hn t)
  | fault r =>
    refine absurd he (exec_ne_fault (fun h => ?_) s r)
    constructor <;> rintro rfl <;> cases hi
  | refused why => exact ⟨why, rfl⟩

/-- Settles O59: MAP_IN and MAP_OUT look their handle up first; a codec operation answers a next state only with its codec,
and DECODE only for an identifier that fits. -/
theorem operandsOutsideTheBlockAreRefused : Obligations.OperandsOutsideTheBlockAreRefused := by
  refine ⟨fun s h hb hf => ⟨execMapIn_of_no_frame hb hf, execMapOut_of_no_frame hb hf⟩, fun s i bus hi hc => ?_,
    fun s bus raw hwide => ?_⟩
  · refine exec_refused_of_codecOf hi fun t ht => ?_
    obtain ⟨c, hsome⟩ := codec?_of_exec_next hi ht
    nomatch hc.symm.trans hsome
  · refine exec_refused_of_codecOf (i := .decode bus raw) rfl fun t ht => ?_
    obtain ⟨_, _, hfits, _⟩ := execDecode_next ht
    exact absurd (of_decide_eq_true hfits) (Nat.not_lt.2 hwide)

end Sys2Proof.Machine
end

section
/-! The spec's formulas for frame objects (40_load.md R102 to R109) and the model's: claimed bits, defects, well-formedness,
keys, entries, events. Then one equation for `loadFrames`, and when it loads a source. -/

namespace Sys2Proof.Machine

open Sys2Proof Sys2Proof.Spec

/-! ## Claimed bits and defects (40_load.md R104 to R107) -/

theorem specClaims_eq (d : FrameDesc) : Spec.claims d = d.claims.map fun r => (r.lo, r.len) := by
  simp [Spec.claims, FrameDesc.claims, Function.comp_def]

theorem forall_mem_specClaims {d : FrameDesc} {P : Nat × Nat → Prop} :
    (∀ r ∈ Spec.claims d, P r) ↔ ∀ r ∈ d.claims, P (r.lo, r.len) := by
  rw [specClaims_eq, List.forall_mem_map]

theorem noBitTwice_iff (d : FrameDesc) : NoBitTwice (Spec.claims d) ↔ claimsOverlap [] d.claims = false := by
  rw [claimsOverlap_eq_false_iff, NoBitTwice, specClaims_eq, List.pairwise_map]
  simp only [Bool.eq_false_iff, ne_eq, BitRange.meets_iff, not_exists, ClaimsBit, List.not_mem_nil, false_implies,
    implies_true, true_and]

/-- Every range of a frame object with sizes of at least 1 has a bit. -/
theorem len_pos_of_mem_claims {d : FrameDesc} (hs : ∀ a ∈ d.analog, 1 ≤ a.size) : ∀ r ∈ d.claims, 1 ≤ r.len := by
  intro r hr
  obtain hr | hr := List.mem_append.1 hr <;> obtain ⟨x, hx, rfl⟩ := List.mem_map.1 hr
  · exact hs x hx
  · exact Nat.le_refl 1

theorem below64_iff {d : FrameDesc} (hs : ∀ a ∈ d.analog, 1 ≤ a.size) :
    Below64 (Spec.claims d) ↔ highestBit d.claims ≤ 63 := by
  rw [Below64, forall_mem_specClaims, highestBit_le_iff]
  refine forall₂_congr fun r hr => ?_
  have hpos := len_pos_of_mem_claims hs r hr
  constructor
  · intro h
    exact h (r.lo + r.len - 1) ⟨by omega, by omega⟩
  · rintro h k ⟨_, hk⟩
    simp only at hk
    omega

theorem frameDefect_of_bitTwice {d : FrameDesc} (h : ¬ NoBitTwice (Spec.claims d)) :
    frameDefect d = some (.schemaOverlap d.busId) := by
  rw [noBitTwice_iff, Bool.not_eq_false] at h
  exact if_pos h

theorem frameDefect_of_noBitTwice {d : FrameDesc} (h : NoBitTwice (Spec.claims d)) :
    frameDefect d = if 63 < highestBit d.claims then some (.schemaTooLarge d.busId) else none := by
  rw [noBitTwice_iff] at h
  exact if_neg (Bool.eq_false_iff.1 h)

theorem frameDefect_of_above63 {d : FrameDesc} (hs : ∀ a ∈ d.analog, 1 ≤ a.size) (h : NoBitTwice (Spec.claims d))
    (h64 : ¬ Below64 (Spec.claims d)) : frameDefect d = some (.schemaTooLarge d.busId) := by
  rw [below64_iff hs] at h64
  rw [frameDefect_of_noBitTwice h, if_pos (Nat.lt_of_not_le h64)]

/-- LOAD finds no defect exactly where no bit is claimed twice and none is above 63. -/
theorem frameDefect_eq_none_iff {d : FrameDesc} (hs : ∀ a ∈ d.analog, 1 ≤ a.size) :
    frameDefect d = none ↔ NoBitTwice (Spec.claims d) ∧ Below64 (Spec.claims d) := by
  by_cases h : NoBitTwice (Spec.claims d)
  · rw [frameDefect_of_noBitTwice h, below64_iff hs]
    simp [h]
  · simp [frameDefect_of_bitTwice h, h]

/-- The report of a frame object with a defect: the overlap test comes first. -/
theorem exists_frameDefect {d : FrameDesc} (hs : ∀ a ∈ d.analog, 1 ≤ a.size)
    (h : ¬ (NoBitTwice (Spec.claims d) ∧ Below64 (Spec.claims d))) :
    ∃ r, frameDefect d = some r ∧ (r = .schemaOverlap d.busId ↔ ¬ NoBitTwice (Spec.claims d)) ∧
      (r = .schemaTooLarge d.busId ↔ NoBitTwice (Spec.claims d) ∧ ¬ Below64 (Spec.claims d)) := by
  by_cases hbit : NoBitTwice (Spec.claims d)
  · have h64 : ¬ Below64 (Spec.claims d) := fun h64 => h ⟨hbit, h64⟩
    exact ⟨_, frameDefect_of_above63 hs hbit h64, by simp [hbit], by simp [hbit, h64]⟩
  · exact ⟨_, frameDefect_of_bitTwice hbit, by simp [hbit], by simp [hbit]⟩

/-! ## Frame objects (40_load.md R102, R109) -/

theorem goodFrame_iff (c : Config) (d : FrameDesc) : GoodFrame c d ↔ (d.wf && idFits c d.busId) = true := by
  simp only [FrameDesc.wf, FrameDesc.partnerOk, AnalogDesc.wf, idFits, Bool.and_eq_true, List.all_eq_true,
    decide_eq_true_eq]
  unfold FrameDesc.signalNames
  tauto

theorem all_wf_iff_goodFrame (c : Config) (src : List FrameDesc) :
    (src.all fun d => d.wf && idFits c d.busId) = true ↔ ∀ d ∈ src, GoodFrame c d := by
  rw [List.all_eq_true]
  exact forall₂_congr fun d _ => (goodFrame_iff c d).symm

theorem handleOf_eq (bus : Int) (d : FrameDesc) : handleOf bus d = ⟨bus, keyOf d⟩ := by
  unfold handleOf keyOf
  cases d.direction <;> rfl

@[simp] theorem handleOf_inj {bus : Int} {d e : FrameDesc} : handleOf bus d = handleOf bus e ↔ keyOf d = keyOf e := by
  simp [handleOf_eq]

theorem frame?_handleOf {s : State} {bus : Int} {c : Codec} (hc : s.codec? bus = some c) (d : FrameDesc) :
    s.frame? (handleOf bus d) = c.frame? (keyOf d) := by
  rw [handleOf_eq, State.frame?_of_codec hc]

/-- The highest claimed bit, folded from either end. -/
theorem highest_eq (d : FrameDesc) : highest (Spec.claims d) = highestBit d.claims := by
  rw [highest, highestBit, specClaims_eq, List.map_map, ← List.foldl_eq_foldr, List.foldl_map]
  rfl

theorem entryOf_eq (d : FrameDesc) : entryOf d = loadedEntry d := by
  rw [entryOf, loadedEntry, highest_eq]

theorem errorsOf_eq (rs : List LoadResult) : errorsOf rs = rs.flatMap LoadResult.reports := by
  induction rs with
  | nil => rfl
  | cons r rs ih =>
    rw [List.flatMap_cons, ← ih]
    cases r <;> rfl

/-! ## One frame object (40_load.md R100, R108, R109) -/

/-- The result of LOAD for a frame object. -/
def loadResult (d : FrameDesc) : LoadResult :=
  match frameDefect d with
  | none => .ok
  | some r => .error r

/-- A codec after `LoadFrame` on an object whose key is free: an object with a defect is skipped. -/
def Codec.loadFrame (c : Codec) (d : FrameDesc) : Codec :=
  match frameDefect d with
  | none => c.setFrame (keyOf d) (loadedEntry d)
  | some _ => c

theorem loadResult_eq_ok_iff {d : FrameDesc} : loadResult d = .ok ↔ frameDefect d = none := by
  unfold loadResult
  cases frameDefect d <;> simp

theorem loadResult_of_defect {d : FrameDesc} {r : Report} (h : frameDefect d = some r) : loadResult d = .error r := by
  simp only [loadResult, h]

theorem Codec.loadFrame_of_defect {c : Codec} {d : FrameDesc} {r : Report} (h : frameDefect d = some r) :
    c.loadFrame d = c := by
  simp only [Codec.loadFrame, h]

theorem Codec.loadFrame_initList (c : Codec) (d : FrameDesc) : (c.loadFrame d).initList = c.initList := by
  unfold Codec.loadFrame
  cases frameDefect d with
  | none => exact Codec.setFrame_initList _ _ _
  | some r => rfl

/-- What a key finds after one object. -/
theorem Codec.frame?_loadFrame (c : Codec) (d : FrameDesc) (k : FrameKey) :
    (c.loadFrame d).frame? k = if frameDefect d = none ∧ keyOf d = k then some (loadedEntry d) else c.frame? k := by
  unfold Codec.loadFrame
  cases hd : frameDefect d with
  | some r => simp
  | none =>
    by_cases hk : keyOf d = k
    · subst hk; simp
    · simp [hk, Codec.frame?_setFrame_of_ne _ _ hk]

/-- `LoadFrame` on the first object, then on the rest. -/
theorem loadFrames_cons (c : Codec) (d : FrameDesc) (ds : List FrameDesc) :
    loadFrames c (d :: ds) = if (c.frame? (keyOf d)).isSome then none
      else (loadFrames (c.loadFrame d) ds).map fun p => (p.1, loadResult d :: p.2) := by
  rw [loadFrames, Codec.holdsKey_eq, Codec.loadFrame, loadResult, Codec.insertEntry_loadedEntry]
  congr 1
  cases frameDefect d with
  | none => cases loadFrames (c.setFrame (keyOf d) (loadedEntry d)) ds <;> rfl
  | some r => cases loadFrames c ds <;> rfl

/-! ## A source (40_load.md R100, R102; log 23) -/

/-- No object of a source has the key of an entry of the codec, or of an object loaded before it. -/
def FreeKeys (c : Codec) (ds : List FrameDesc) : Prop :=
  (∀ d ∈ ds, c.frame? (keyOf d) = none) ∧ ds.Pairwise fun a b => frameDefect a = none → keyOf a ≠ keyOf b

theorem freeKeys_cons {c : Codec} {d : FrameDesc} {ds : List FrameDesc} :
    FreeKeys c (d :: ds) ↔ c.frame? (keyOf d) = none ∧ FreeKeys (c.loadFrame d) ds := by
  have hafter : ∀ e, (c.loadFrame d).frame? (keyOf e) = none ↔
      (frameDefect d = none → keyOf d ≠ keyOf e) ∧ c.frame? (keyOf e) = none := by
    intro e
    rw [Codec.frame?_loadFrame]
    split <;> simp_all
  simp only [FreeKeys, List.forall_mem_cons, List.pairwise_cons, hafter, forall_and]
  tauto

/-- LOAD loads a source exactly where its keys are free; then object by object. -/
theorem loadFrames_eq_some_iff {c : Codec} {ds : List FrameDesc} {p : Codec × List LoadResult} :
    loadFrames c ds = some p ↔ FreeKeys c ds ∧ p = (ds.foldl Codec.loadFrame c, ds.map loadResult) := by
  induction ds generalizing c p with
  | nil => simp [loadFrames, FreeKeys, eq_comm]
  | cons d ds ih =>
    rw [loadFrames_cons, freeKeys_cons]
    cases hk : c.frame? (keyOf d) with
    | some f => simp
    | none =>
      simp only [Option.isSome_none, Bool.false_eq_true, if_false, Option.map_eq_some_iff, ih, true_and, and_assoc,
        exists_and_left, exists_eq_left, List.foldl_cons, List.map_cons]
      exact and_congr_right fun _ => eq_comm

theorem loadFrames_of_freeKeys {c : Codec} {ds : List FrameDesc} (h : FreeKeys c ds) :
    loadFrames c ds = some (ds.foldl Codec.loadFrame c, ds.map loadResult) :=
  loadFrames_eq_some_iff.2 ⟨h, rfl⟩

theorem loadFrames_of_not_freeKeys {c : Codec} {ds : List FrameDesc} (h : ¬ FreeKeys c ds) : loadFrames c ds = none :=
  Option.eq_none_iff_forall_ne_some.2 fun _ hp => h (loadFrames_eq_some_iff.1 hp).1

/-- An object with a defect may stand anywhere among objects whose keys are free, where its own is. -/
theorem FreeKeys.insert_defect {c : Codec} {d : FrameDesc} {r : Report} {pre post : List FrameDesc}
    (h : FreeKeys c (pre ++ post)) (hfree : c.frame? (keyOf d) = none) (hd : frameDefect d = some r)
    (hpre : ∀ e ∈ pre, keyOf e = keyOf d → frameDefect e ≠ none) : FreeKeys c (pre ++ d :: post) := by
  obtain ⟨hall, hapart⟩ := h
  rw [List.pairwise_append] at hapart
  obtain ⟨hpp, hqq, hpq⟩ := hapart
  refine ⟨fun e he => ?_, List.pairwise_append.2
    ⟨hpp, List.pairwise_cons.2 ⟨fun e _ hn => ?_, hqq⟩, fun e he x hx hn => ?_⟩⟩
  · obtain rfl | he := List.mem_cons.1 (List.perm_middle.mem_iff.1 he)
    · exact hfree
    · exact hall e he
  · rw [hd] at hn
    cases hn
  · obtain rfl | hx := List.mem_cons.1 hx
    · exact fun hk => hpre e he hk hn
    · exact hpq e he x hx hn

/-- Loading objects with other keys leaves what a key finds. -/
theorem Codec.frame?_foldl_loadFrame_of_ne {ds : List FrameDesc} {k : FrameKey} (h : ∀ e ∈ ds, keyOf e ≠ k) (c : Codec) :
    (ds.foldl Codec.loadFrame c).frame? k = c.frame? k := by
  induction ds generalizing c with
  | nil => rfl
  | cons e ds ih =>
    obtain ⟨he, hds⟩ := List.forall_mem_cons.1 h
    rw [List.foldl_cons, ih hds, Codec.frame?_loadFrame, if_neg fun hk => he hk.2]

/-- What the key of an object finds after a source of objects with keys of their own. -/
theorem Codec.frame?_foldl_loadFrame {ds : List FrameDesc} (hapart : ds.Pairwise fun a b => keyOf a ≠ keyOf b)
    {d : FrameDesc} (hd : d ∈ ds) (c : Codec) :
    (ds.foldl Codec.loadFrame c).frame? (keyOf d) =
      if frameDefect d = none then some (loadedEntry d) else c.frame? (keyOf d) := by
  obtain ⟨pre, post, rfl⟩ := List.append_of_mem hd
  obtain ⟨_, hcons, hpre⟩ := List.pairwise_append.1 hapart
  have hpost := (List.pairwise_cons.1 hcons).1
  rw [List.foldl_append, List.foldl_cons, Codec.frame?_foldl_loadFrame_of_ne fun e he => (hpost e he).symm,
    Codec.frame?_loadFrame, Codec.frame?_foldl_loadFrame_of_ne fun e he => hpre e he d List.mem_cons_self]
  simp only [and_true]

end Sys2Proof.Machine
end

section
/-! LOAD settled (40_load.md R100 to R109): what it does on a source of good frame objects, and when it refuses one. -/

namespace Sys2Proof.Machine

open Sys2Proof Sys2Proof.Spec

/-- The state LOAD ends in, from the codec and the results it computes. -/
def State.loaded (s : State) (bus : Int) (c : Codec) (rs : List LoadResult) : State :=
  ((s.setCodec bus c).record (rs.flatMap LoadResult.reports)).deliver (.loaded rs)

section

variable {s : State} {bus : Int} {c : Codec} {src : List FrameDesc}

@[simp] theorem State.loaded_result (c : Codec) (rs : List LoadResult) :
    (s.loaded bus c rs).result = some (.loaded rs) := rfl

@[simp] theorem State.loaded_phase (c : Codec) (rs : List LoadResult) : (s.loaded bus c rs).phase = s.phase := rfl

@[simp] theorem State.loaded_log (c : Codec) (rs : List LoadResult) :
    (s.loaded bus c rs).log = s.log ++ errorsOf rs := by
  rw [errorsOf_eq]; rfl

theorem State.loaded_codec? (c : Codec) (rs rs' : List LoadResult) (b : Int) :
    (s.loaded bus c rs).codec? b = (s.loaded bus c rs').codec? b := rfl

theorem State.loaded_keepsBinder (c : Codec) (rs : List LoadResult) : KeepsBinder s (s.loaded bus c rs) :=
  ⟨rfl, rfl, rfl, rfl⟩

theorem State.loaded_frame?_handleOf (c : Codec) (rs : List LoadResult) (d : FrameDesc) :
    (s.loaded bus c rs).frame? (handleOf bus d) = c.frame? (keyOf d) := by
  rw [handleOf_eq]
  exact (State.frame?_setCodec s bus c ⟨bus, keyOf d⟩).trans (if_pos rfl)

/-- A handle finds what it found unless it is on the loaded codec and its key finds something else there. -/
theorem State.loaded_frame?_of_key (hc : s.codec? bus = some c) {c' : Codec} (rs : List LoadResult) {h : Handle}
    (hk : h.bus = bus → c'.frame? h.key = c.frame? h.key) : (s.loaded bus c' rs).frame? h = s.frame? h := by
  refine (State.frame?_setCodec s bus c' h).trans ?_
  split
  · next hb =>
    subst hb
    rw [hk rfl, ← State.frame?_of_codec hc]
  · rfl

theorem State.loaded_keepsInitLists (hc : s.codec? bus = some c) {c' : Codec} (hl : c'.initList = c.initList)
    (rs : List LoadResult) : KeepsInitLists s (s.loaded bus c' rs) := by
  intro b
  show ((s.setCodec bus c').codec? b).map _ = _
  by_cases hb : bus = b
  · subst hb
    simp [hc, hl]
  · rw [State.codec?_setCodec_of_ne _ _ hb]

/-- LOAD of good frame objects whose keys are free. -/
theorem exec_load_of_freeKeys (hp : s.phase = .load) (hc : s.codec? bus = some c) (hgood : ∀ d ∈ src, GoodFrame s.cfg d)
    (hfree : FreeKeys c src) :
    exec (.load bus src) s = .next (s.loaded bus (src.foldl Codec.loadFrame c) (src.map loadResult)) :=
  execLoad_of_loads hp hc ((all_wf_iff_goodFrame _ _).2 hgood) (loadFrames_of_freeKeys hfree)

/-- LOAD of one good frame object whose key is free. -/
theorem exec_load_singleton {d : FrameDesc} (hp : s.phase = .load) (hc : s.codec? bus = some c)
    (hgood : GoodFrame s.cfg d) (hfree : s.frame? (handleOf bus d) = none) :
    exec (.load bus [d]) s = .next (s.loaded bus (c.loadFrame d) [loadResult d]) := by
  rw [frame?_handleOf hc] at hfree
  exact exec_load_of_freeKeys hp hc (List.forall_mem_singleton.2 hgood)
    ⟨List.forall_mem_singleton.2 hfree, List.pairwise_singleton _ _⟩

/-- LOAD completes on nothing else. -/
theorem exec_load_next {t : State} (h : exec (.load bus src) s = .next t) :
    s.phase = .load ∧ (∀ d ∈ src, GoodFrame s.cfg d) ∧ ∃ c, s.codec? bus = some c ∧ FreeKeys c src ∧
      t = s.loaded bus (src.foldl Codec.loadFrame c) (src.map loadResult) := by
  obtain ⟨hp, c, c', rs, hc, hgood, hl, rfl⟩ := execLoad_next h
  obtain ⟨hfree, hpair⟩ := loadFrames_eq_some_iff.1 hl
  cases hpair
  exact ⟨hp, (all_wf_iff_goodFrame _ _).1 hgood, c, hc, hfree, rfl⟩

theorem exec_load_of_malformed (hp : s.phase = .load) (hc : s.codec? bus = some c)
    (h : ¬ ((∀ d ∈ src, GoodFrame s.cfg d) ∧ FreeKeys c src)) : exec (.load bus src) s = .refused .malformedSource := by
  show execLoad bus src s = _
  unfold execLoad
  rw [if_neg (by simp [hp])]
  simp only [hc, all_wf_iff_goodFrame]
  by_cases hgood : ∀ d ∈ src, GoodFrame s.cfg d
  · rw [if_pos hgood, loadFrames_of_not_freeKeys fun hfree => h ⟨hgood, hfree⟩]
  · rw [if_neg hgood]

end

/-- Settles O19: the object has no defect, so its entry is put under its key. -/
theorem loadInsertsTheEntry : Obligations.LoadInsertsTheEntry := by
  intro s bus c d hp hc hgood hfree hbit h64
  have hclean : frameDefect d = none := (frameDefect_eq_none_iff hgood.1).2 ⟨hbit, h64⟩
  have hresult : loadResult d = .ok := loadResult_eq_ok_iff.2 hclean
  refine ⟨_, exec_load_singleton hp hc hgood hfree, by simp [hresult], by simp [hresult, errorsOf], ?_, fun h hne => ?_,
    State.loaded_keepsInitLists hc (Codec.loadFrame_initList c d) _, State.loaded_keepsBinder _ _, rfl⟩
  · rw [State.loaded_frame?_handleOf, Codec.frame?_loadFrame, if_pos ⟨hclean, rfl⟩, entryOf_eq]
  · refine State.loaded_frame?_of_key hc _ fun hb => ?_
    rw [Codec.frame?_loadFrame, if_neg]
    rintro ⟨_, hk⟩
    exact hne (by rw [handleOf_eq, hk, ← hb])

/-- Settles O20: the report is the one of the test that fails first, and the object is skipped. -/
theorem loadReportsTheDefect : Obligations.LoadReportsTheDefect := by
  intro s bus c d hp hc hgood hfree hdefect
  obtain ⟨r, hr, hoverlap, hlarge⟩ := exists_frameDefect hgood.1 hdefect
  have hresult := loadResult_of_defect hr
  have hcodec : c.loadFrame d = c := Codec.loadFrame_of_defect hr
  refine ⟨_, r, exec_load_singleton hp hc hgood hfree, by simp [hresult], by simp [hresult, errorsOf], hoverlap, hlarge,
    fun h => State.loaded_frame?_of_key hc _ fun _ => ?_, State.loaded_keepsInitLists hc ?_ _,
    State.loaded_keepsBinder _ _, rfl⟩ <;> rw [hcodec]

/-- Settles O21: keys of their own are free keys, so LOAD goes object by object; an object's key finds its entry afterwards
exactly where it has no defect. -/
theorem loadCompletes : Obligations.LoadCompletes := by
  intro s bus c src hp hc hsrc hapart
  replace hapart : src.Pairwise fun a b => keyOf a ≠ keyOf b := hapart.imp fun hne hk => hne (handleOf_inj.2 hk)
  have hgood : ∀ d ∈ src, GoodFrame s.cfg d := fun d hd => (hsrc d hd).1
  have hnone : ∀ d ∈ src, c.frame? (keyOf d) = none := fun d hd => frame?_handleOf hc d ▸ (hsrc d hd).2
  have hfree : FreeKeys c src := ⟨hnone, hapart.imp fun {a _} hne (_ : frameDefect a = none) => hne⟩
  obtain ⟨hinit, _, hkeep⟩ := loadFrames_keeps (loadFrames_of_freeKeys hfree)
  refine ⟨_, _, exec_load_of_freeKeys hp hc hgood hfree, rfl, List.length_map _, State.loaded_log _ _, fun h f hf => ?_,
    fun j d hj => ?_, State.loaded_keepsInitLists hc hinit _, State.loaded_keepsBinder _ _⟩
  · obtain ⟨k, hk, hkf⟩ := State.frame?_eq_some hf
    rw [← hf]
    refine State.loaded_frame?_of_key hc _ fun hb => ?_
    rw [hb, hc] at hk
    cases hk
    rw [hkeep _ _ hkf, hkf]
  · have hd : d ∈ src := List.mem_of_getElem? hj
    have hok : (src.map loadResult)[j]? = some .ok ↔ frameDefect d = none := by
      simp [hj, loadResult_eq_ok_iff]
    refine ⟨hok.trans (frameDefect_eq_none_iff (hgood d hd).1), ?_⟩
    rw [State.loaded_frame?_handleOf, Codec.frame?_foldl_loadFrame hapart hd, hnone d hd, entryOf_eq]
    simp only [hok]

/-- Settles O22: an object with a defect leaves the codec as it is, so the keys around it stay free and the objects around it
load as before. -/
theorem loadSkipsAnInvalidFrame : Obligations.LoadSkipsAnInvalidFrame := by
  intro s t bus d pre post rs hgoodD hfreeD hdefect hpre ht hrs
  obtain ⟨hp, hgood, c, hc, hfree, rfl⟩ := exec_load_next ht
  obtain ⟨r, hr, _⟩ := exists_frameDefect hgoodD.1 hdefect
  cases hrs
  have hfree' : FreeKeys c (pre ++ d :: post) := by
    refine hfree.insert_defect (frame?_handleOf hc d ▸ hfreeD) hr fun e he hk hclean => ?_
    have hgoodE := hgood e (List.mem_append_left _ he)
    exact hpre e he (handleOf_inj.2 hk) ((frameDefect_eq_none_iff hgoodE.1).1 hclean)
  have hgood' : ∀ e ∈ pre ++ d :: post, GoodFrame s.cfg e := fun e he => by
    obtain rfl | he := List.mem_cons.1 (List.perm_middle.mem_iff.1 he)
    · exact hgoodD
    · exact hgood e he
  have hcodec : (pre ++ d :: post).foldl Codec.loadFrame c = (pre ++ post).foldl Codec.loadFrame c := by
    rw [List.foldl_append, List.foldl_cons, Codec.loadFrame_of_defect hr, ← List.foldl_append]
  have hresults : (pre ++ d :: post).map loadResult = ((pre ++ post).map loadResult).take pre.length ++
      .error r :: ((pre ++ post).map loadResult).drop pre.length := by
    simp [loadResult_of_defect hr]
  have hexec := exec_load_of_freeKeys hp hc hgood' hfree'
  rw [hcodec] at hexec
  exact ⟨_, r, _, hexec, hresults, rfl, fun b => State.loaded_codec? _ _ _ b, State.loaded_log _ _, State.loaded_log _ _⟩

/-- Settles O23: each way to be malformed is an object that is not good or a key that is not free. -/
theorem malformedLoadIsRefused : Obligations.MalformedLoadIsRefused := by
  intro s bus c src hp hc hbad
  refine exec_load_of_malformed hp hc ?_
  rintro ⟨hgood, hnone, hapart⟩
  obtain ⟨d, hd, hbad⟩ | ⟨pre, e, mid, d, post, rfl, hbit, h64, hk⟩ := hbad
  · obtain ⟨hsize, hnames, hid, _⟩ := hgood d hd
    obtain ⟨a, ha, h0⟩ | hdup | hwide | hheld := hbad
    · have := hsize a ha
      omega
    · exact hdup hnames
    · exact absurd hid (Nat.not_lt.2 hwide)
    · exact hheld ((frame?_handleOf hc d).trans (hnone d hd))
  · have hgoodE := hgood e (by simp)
    have hclean : frameDefect e = none := (frameDefect_eq_none_iff hgoodE.1).2 ⟨hbit, h64⟩
    obtain ⟨_, hcons, _⟩ := List.pairwise_append.1 hapart
    exact (List.pairwise_cons.1 hcons).1 d (by simp) hclean (handleOf_inj.1 hk)

end Sys2Proof.Machine
end

section
/-! Source objects (30_encoding.md R73 to R80, 40_load.md R103): each reader of a member, and each resolver, answers exactly what
the member rules give. -/

namespace Sys2Proof

open Sys2Proof.Spec

/-! ## Members -/

section

variable {α β : Type} {bad : Reject}

theorem bind_eq_ok_iff {x : Except Reject α} {f : α → Except Reject β} {y : β} :
    (x >>= f) = .ok y ↔ ∃ a, x = .ok a ∧ f a = .ok y := by
  cases x <;> simp [bind, Except.bind]

theorem map_eq_ok_iff {x : Except Reject α} {f : α → β} {y : β} : x.map f = .ok y ↔ ∃ a, x = .ok a ∧ f a = y := by
  cases x <;> simp [Except.map]

theorem requiredMember_eq_ok_iff {m : Member α} {v : α} : requiredMember bad m = .ok v ↔ m = .given v := by
  cases m <;> simp [requiredMember]

theorem optionalMember_eq_ok_iff {dflt : α} {m : Member α} {v : α} :
    optionalMember bad dflt m = .ok v ↔ MemberOr dflt m v := by
  cases m <;> simp [optionalMember, MemberOr, eq_comm]

theorem requiredNat_eq_ok_iff {m : Member Int} {n : Nat} : requiredNat bad m = .ok n ↔ m = .given (n : Int) := by
  cases m with
  | absent => simp [requiredNat]
  | mistyped => simp [requiredNat]
  | given k =>
    by_cases hk : 0 ≤ k
    · simp only [requiredNat, if_pos hk, Except.ok.injEq, Member.given.injEq]
      omega
    · simp only [requiredNat, if_neg hk, reduceCtorEq, Member.given.injEq, false_iff]
      omega

end

theorem requiredId_eq_ok_iff {m : Member Text} {w : Word} : requiredId m = .ok w ↔ IdResolves m w := by
  cases m with
  | absent => simp [requiredId, IdResolves]
  | mistyped => simp [requiredId, IdResolves]
  | given t => cases h : readId t <;> simp [requiredId, IdResolves, h]

theorem requiredDir_eq_ok_iff {m : Member Text} {d : Dir} : requiredDir m = .ok d ↔ DirResolves m d := by
  constructor
  · intro h
    unfold requiredDir at h
    split at h
    · split at h
      · next ht => cases h; rw [ht]
      · split at h
        · next ht => cases h; rw [ht]
        · cases h
    · cases h
    · cases h
  · rintro rfl
    exact requiredDir_dirText d

theorem optionalPartner_eq_ok_iff {m : Member Text} {p : Option Text} : optionalPartner m = .ok p ↔ PartnerResolves m p := by
  cases m with
  | absent => cases p <;> simp [optionalPartner, PartnerResolves]
  | mistyped => cases p <;> simp [optionalPartner, PartnerResolves]
  | given t =>
    by_cases ht : t = ['n', 'o', 'n', 'e']
    · subst ht
      cases p <;> simp +contextual [optionalPartner, PartnerResolves, eq_comm]
    · cases p with
      | none => simp [optionalPartner, PartnerResolves, ht]
      | some n =>
        simp only [optionalPartner, PartnerResolves, if_neg ht, Except.ok.injEq, Option.some.injEq, Member.given.injEq]
        exact ⟨fun h => ⟨h, h ▸ ht⟩, And.left⟩

theorem resolveEach_eq_ok_iff_forall₂ {α β : Type} {f : α → Except Reject β} {R : α → β → Prop}
    (h : ∀ x y, f x = .ok y ↔ R x y) {l : List α} {l' : List β} : resolveEach f l = .ok l' ↔ List.Forall₂ R l l' := by
  simp only [resolveEach_eq_ok_iff, h]

/-! ## Objects -/

theorem resolveAnalog_eq_ok_iff (o : AnalogObj) (d : AnalogDesc) : resolveAnalog o = .ok d ↔ AnalogResolves o d := by
  simp only [resolveAnalog, bind_eq_ok_iff, requiredMember_eq_ok_iff, requiredNat_eq_ok_iff, optionalMember_eq_ok_iff]
  constructor
  · rintro ⟨name, hname, startBit, hstart, size, hsize, inverted, hinv, hd⟩
    cases hd
    exact ⟨hname, hstart, hsize, hinv⟩
  · rintro ⟨hname, hstart, hsize, hinv⟩
    exact ⟨_, hname, _, hstart, _, hsize, _, hinv, rfl⟩

theorem resolveDigital_eq_ok_iff (o : DigitalObj) (d : DigitalDesc) : resolveDigital o = .ok d ↔ DigitalResolves o d := by
  simp only [resolveDigital, bind_eq_ok_iff, requiredMember_eq_ok_iff, requiredNat_eq_ok_iff]
  constructor
  · rintro ⟨name, hname, startBit, hstart, hd⟩
    cases hd
    exact ⟨hname, hstart⟩
  · rintro ⟨hname, hstart⟩
    exact ⟨_, hname, _, hstart, rfl⟩

theorem resolveFrame_eq_ok_iff (o : FrameObj) (d : FrameDesc) : resolveFrame o = .ok d ↔ FrameResolves o d := by
  simp only [resolveFrame, bind_eq_ok_iff, requiredMember_eq_ok_iff, requiredId_eq_ok_iff, optionalMember_eq_ok_iff,
    requiredDir_eq_ok_iff, optionalPartner_eq_ok_iff, resolveEach_eq_ok_iff_forall₂ resolveAnalog_eq_ok_iff,
    resolveEach_eq_ok_iff_forall₂ resolveDigital_eq_ok_iff]
  constructor
  · rintro ⟨name, hname, busId, hid, extended, hext, direction, hdir, partner, hpartner, as, has, gs, hgs, analog, hanalog,
      digital, hdigital, hd⟩
    cases hd
    exact ⟨hname, hid, hext, hdir, hpartner, as, gs, has, hgs, hanalog, hdigital⟩
  · rintro ⟨hname, hid, hext, hdir, hpartner, as, gs, has, hgs, hanalog, hdigital⟩
    exact ⟨_, hname, _, hid, _, hext, _, hdir, _, hpartner, as, has, gs, hgs, _, hanalog, _, hdigital, rfl⟩

theorem resolveInit_eq_ok_iff (o : InitObj) (d : InitDesc) : resolveInit o = .ok d ↔ InitResolves o d := by
  have hliteral : ∀ (l : Literal) (b : Byte),
      (match readByte l with | some b => Except.ok b | none => Except.error Reject.byteLiteral) = .ok b ↔
        readByte l = some b := by
    intro l b
    cases readByte l <;> simp
  simp only [resolveInit, bind_eq_ok_iff, requiredMember_eq_ok_iff, requiredId_eq_ok_iff]
  constructor
  · rintro ⟨canBus, hbus, busId, hid, ls, hls, data, hdata, hd⟩
    cases hd
    exact ⟨hbus, hid, ls, hls, (resolveEach_eq_ok_iff_forall₂ hliteral).1 hdata⟩
  · rintro ⟨hbus, hid, ls, hls, hdata⟩
    exact ⟨_, hbus, _, hid, ls, hls, _, (resolveEach_eq_ok_iff_forall₂ hliteral).2 hdata, rfl⟩

/-- What BLOAD reads of a frame object once its route is read: the names of its signals (43_binder.md R160). -/
theorem resolveRoute_signals_eq_ok_iff (o : FrameObj) (r : Except Reject Route) (d : RouteDesc) :
    (do
      let route ← r
      let analogObjs ← optionalMember .signalArray [] o.analog
      let digitalObjs ← optionalMember .signalArray [] o.digital
      let analog ← resolveEach (fun e => requiredMember .signalName e.name) analogObjs
      let digital ← resolveEach (fun e => requiredMember .signalName e.name) digitalObjs
      return { route, analog, digital }) = Except.ok d ↔
    r = .ok d.route ∧ ∃ as gs, MemberOr [] o.analog as ∧ MemberOr [] o.digital gs ∧
      List.Forall₂ (fun (e : AnalogObj) n => e.name = .given n) as d.analog ∧
      List.Forall₂ (fun (e : DigitalObj) n => e.name = .given n) gs d.digital := by
  have hanalog : ∀ (e : AnalogObj) (n : Text), requiredMember .signalName e.name = .ok n ↔ e.name = .given n :=
    fun _ _ => requiredMember_eq_ok_iff
  have hdigital : ∀ (e : DigitalObj) (n : Text), requiredMember .signalName e.name = .ok n ↔ e.name = .given n :=
    fun _ _ => requiredMember_eq_ok_iff
  simp only [bind_eq_ok_iff, optionalMember_eq_ok_iff, resolveEach_eq_ok_iff_forall₂ hanalog,
    resolveEach_eq_ok_iff_forall₂ hdigital]
  constructor
  · rintro ⟨route, hroute, as, has, gs, hgs, analog, han, digital, hdg, hd⟩
    cases hd
    exact ⟨hroute, as, gs, has, hgs, han, hdg⟩
  · rintro ⟨hroute, as, gs, has, hgs, han, hdg⟩
    exact ⟨_, hroute, as, has, gs, hgs, _, han, _, hdg, rfl⟩

/-- BLOAD reads the frame's name of an outbound frame only (43_binder.md R160). -/
theorem resolveRoute_eq_ok_iff (o : FrameObj) (d : RouteDesc) : resolveRoute o = .ok d ↔ RouteResolves o d := by
  obtain ⟨route, analog, digital⟩ := d
  simp only [resolveRoute, bind_eq_ok_iff, requiredDir_eq_ok_iff]
  constructor
  · rintro ⟨dir, hdir, h⟩
    cases dir with
    | input =>
      obtain ⟨hroute, hsignals⟩ := (resolveRoute_signals_eq_ok_iff o _ _).1 h
      cases hroute
      exact ⟨hdir, hsignals⟩
    | output =>
      obtain ⟨hroute, hsignals⟩ := (resolveRoute_signals_eq_ok_iff o _ _).1 h
      obtain ⟨n, hname, hn⟩ := map_eq_ok_iff.1 hroute
      cases hn
      exact ⟨⟨hdir, requiredMember_eq_ok_iff.1 hname⟩, hsignals⟩
  · rintro ⟨hroute, hsignals⟩
    cases route with
    | inbound => exact ⟨.input, hroute, (resolveRoute_signals_eq_ok_iff o _ _).2 ⟨rfl, hsignals⟩⟩
    | outbound n =>
      obtain ⟨hdir, hname⟩ := hroute
      exact ⟨.output, hdir, (resolveRoute_signals_eq_ok_iff o _ _).2
        ⟨map_eq_ok_iff.2 ⟨n, requiredMember_eq_ok_iff.2 hname, rfl⟩, hsignals⟩⟩

theorem resolveBus_eq_ok_iff (p : Int × List FrameObj) (q : Int × List RouteDesc) :
    resolveBus p = .ok q ↔ BusResolves p q := by
  simp only [resolveBus, map_eq_ok_iff, resolveEach_eq_ok_iff_forall₂ resolveRoute_eq_ok_iff]
  constructor
  · rintro ⟨rs, hrs, rfl⟩
    exact ⟨rfl, hrs⟩
  · rintro ⟨hbus, hrs⟩
    exact ⟨q.2, hrs, Prod.ext hbus rfl⟩

end Sys2Proof

namespace Sys2Proof.Machine

open Sys2Proof Sys2Proof.Spec

/-- A step on a command whose operation is made of what the objects of its source give. -/
theorem step_of_source {α β : Type} {f : α → Except Reject β} {R : α → β → Prop} (hf : ∀ x y, f x = .ok y ↔ R x y)
    {make : List β → Instr} {s : State} {c : Command} {rest : List Input} {src : List α}
    (hp : s.pending = .command c :: rest) (hc : decode c = (resolveEach f src).map make) :
    (∀ ds, List.Forall₂ R src ds → step s = exec (make ds) { s with pending := rest }) ∧
      ((¬ ∃ ds, List.Forall₂ R src ds) → ∃ why, step s = .refused (.undecodable why)) := by
  simp only [← resolveEach_eq_ok_iff_forall₂ hf]
  constructor
  · intro ds hds
    exact step_of_decodes hp (by rw [hc, hds]; rfl)
  · intro hnone
    cases hsrc : resolveEach f src with
    | ok ds => exact absurd ⟨ds, hsrc⟩ hnone
    | error why => exact ⟨why, step_of_undecodable hp (by rw [hc, hsrc]; rfl)⟩

/-- Settles O24: the three commands with a source resolve its objects one by one. -/
theorem sourceObjectsResolve : Obligations.SourceObjectsResolve :=
  ⟨fun _ _ _ _ hp => step_of_source resolveFrame_eq_ok_iff hp rfl,
    fun _ _ _ _ hp => step_of_source resolveInit_eq_ok_iff hp rfl,
    fun _ _ _ hp => step_of_source resolveBus_eq_ok_iff hp rfl⟩

end Sys2Proof.Machine
end

section
/-! The byte length of a well-formed entry (10_state.md R27, 40_load.md R113). -/

namespace Sys2Proof.Machine

open Sys2Proof

/-- Ranges below `n` that are apart and not empty are at most `n`: their first bits differ. -/
theorem length_le_of_apart {rs : List BitRange} {n : Nat} (hin : ∀ r ∈ rs, 1 ≤ r.len ∧ r.lo + r.len ≤ n)
    (hapart : rs.Pairwise fun a b => a.meets b = false) : rs.length ≤ n := by
  have hnodup : (rs.map BitRange.lo).Nodup := by
    refine List.pairwise_map.2 (hapart.imp_of_mem fun {a b} ha hb hmeets hlo => ?_)
    have hpos := (hin a ha).1
    have hpos' := (hin b hb).1
    exact Bool.eq_false_iff.1 hmeets ((BitRange.meets_iff a b).2 ⟨a.lo, by omega, by omega⟩)
  have hsub : rs.map BitRange.lo ⊆ List.range n := by
    rintro k hk
    obtain ⟨r, hr, rfl⟩ := List.mem_map.1 hk
    have := hin r hr
    exact List.mem_range.2 (by omega)
  simpa using (hnodup.subperm hsub).length_le

theorem FrameEntry.forall_mem_ranges {f : FrameEntry} {P : BitRange → Prop} :
    (∀ r ∈ f.ranges, P r) ↔ (∀ g ∈ f.an, P ⟨g.startBit, g.size⟩) ∧ ∀ g ∈ f.dg, P ⟨g.startBit, 1⟩ := by
  simp [FrameEntry.ranges, or_imp, forall_and]

theorem FrameEntry.exists_mem_ranges {f : FrameEntry} {P : BitRange → Prop} :
    (∃ r ∈ f.ranges, P r) ↔ (∃ g ∈ f.an, P ⟨g.startBit, g.size⟩) ∨ ∃ g ∈ f.dg, P ⟨g.startBit, 1⟩ := by
  simp [FrameEntry.ranges, or_and_right, exists_or]

theorem FrameEntry.ranges_in_message {c : Config} {f : FrameEntry} (hf : f.wf c) :
    ∀ r ∈ f.ranges, 1 ≤ r.len ∧ r.lo + r.len ≤ 64 := by
  obtain ⟨han, hdg, _⟩ := hf
  refine FrameEntry.forall_mem_ranges.2 ⟨fun g hg => ?_, fun g hg => ?_⟩
  · obtain ⟨hpos, hle, _⟩ := han g hg
    exact ⟨hpos, hle⟩
  · exact ⟨Nat.le_refl 1, Nat.succ_le_succ (hdg g hg)⟩

/-- Settles O25: the byte length holds the highest claimed bit, which is some range's last and below 64. -/
theorem byteLengthIsLeast : Obligations.ByteLengthIsLeast := by
  intro c f hf
  have hin := FrameEntry.ranges_in_message hf
  obtain ⟨_, _, hapart, _, hlen, _⟩ := hf
  have hhigh : highestBit f.ranges ≤ 63 := (highestBit_le_iff _ _).2 fun r hr => by have := hin r hr; omega
  have hcount : f.an.length + f.dg.length ≤ 64 := by
    simpa [FrameEntry.ranges] using length_le_of_apart hin hapart
  have hbelow : ∀ r ∈ f.ranges, r.lo + r.len ≤ 8 * f.byteLength := fun r hr => by
    have := (highestBit_le_iff f.ranges _).1 (Nat.le_refl _) r hr
    omega
  obtain ⟨han, hdg⟩ := FrameEntry.forall_mem_ranges.1 hbelow
  refine ⟨by omega, by omega, hcount, fun g hg k _ hk => Nat.lt_of_lt_of_le hk (han g hg), hdg, fun hsome => ?_⟩
  have hne : f.ranges ≠ [] := by
    simp only [FrameEntry.ranges, ne_eq, List.append_eq_nil_iff, List.map_eq_nil_iff]
    tauto
  obtain ⟨r, hr, hlast⟩ := highestBit_mem f.ranges hne
  have htop : ∃ r ∈ f.ranges, ∃ k, r.lo ≤ k ∧ k < r.lo + r.len ∧ 8 * (f.byteLength - 1) ≤ k := by
    have := hin r hr
    exact ⟨r, hr, highestBit f.ranges, by omega, by omega, by omega⟩
  obtain h | ⟨g, hg, k, hlo, hhi, hk⟩ := FrameEntry.exists_mem_ranges.1 htop
  · exact .inl h
  · simp only at hlo hhi
    exact .inr ⟨g, hg, by omega⟩

end Sys2Proof.Machine
end

section
/-! LOAD_INIT and INIT_FRAMES (40_load.md R110, R112). -/

namespace Sys2Proof

theorem InitDesc.rawFrame_length {d : InitDesc} (h : d.data.length ≤ 8) : d.rawFrame.length.val = d.data.length :=
  Nat.mod_eq_of_lt (Nat.lt_succ_of_le h)

theorem InitDesc.rawFrame_payload (d : InitDesc) {i : Nat} (hi : i < 8) :
    d.rawFrame.payload[i] = if h : i < d.data.length then d.data[i] else 0 := by
  simp only [InitDesc.rawFrame, Vector.getElem_ofFn, List.getD_eq_getElem?_getD]
  split
  · next h => simp [h]
  · next h => simp [Nat.le_of_not_lt h]

end Sys2Proof

namespace Sys2Proof.Machine

open Sys2Proof Sys2Proof.Spec

theorem all_initWf_iff (c : Config) (src : List InitDesc) :
    (src.all fun d => d.wf && idFits c d.busId) = true ↔ ∀ d ∈ src, d.data.length ≤ 8 ∧ d.busId.toNat < 2 ^ c.idW := by
  simp only [List.all_eq_true, Bool.and_eq_true, InitDesc.wf, idFits, decide_eq_true_eq]

theorem execLoadInit_of_not_wf {bus : Int} {src : List InitDesc} {s : State} {c : Codec} (hp : s.phase = .load)
    (hc : s.codec? bus = some c) (h : ¬ (src.all fun d => d.wf && idFits s.cfg d.busId) = true) :
    execLoadInit bus src s = .refused .malformedSource := by
  unfold execLoadInit
  rw [if_neg (by simp [hp])]
  simp only [hc, if_neg h]

/-- Settles O26: the list is made of the raw frames of this bus's objects. -/
theorem loadInitBuildsTheList : Obligations.LoadInitBuildsTheList := by
  intro s bus c src hp hc hsrc
  refine ⟨_, _, execLoadInit_of_wf hp hc ((all_initWf_iff _ _).2 hsrc), rfl, rfl, State.codec?_setCodec_self s bus _, rfl, rfl,
    ⟨rfl, rfl, rfl, rfl⟩, rfl, fun b hb => State.codec?_setCodec_of_ne s _ hb.symm, List.length_map _, fun j d hj => ?_⟩
  have hd : d ∈ src := List.mem_of_mem_filter (List.mem_of_getElem? hj)
  exact ⟨d.rawFrame, by simp [hj], rfl, rfl, InitDesc.rawFrame_length (hsrc d hd).1, fun i hi => d.rawFrame_payload hi⟩

/-- Settles O27: one such object makes the source not well-formed. -/
theorem malformedInitIsRefused : Obligations.MalformedInitIsRefused := by
  intro s bus c src hp hc ⟨d, hd, hbad⟩
  refine execLoadInit_of_not_wf hp hc fun hall => ?_
  obtain ⟨hdata, hid⟩ := (all_initWf_iff _ _).1 hall d hd
  omega

/-- Settles O28. -/
theorem initFramesReturnsTheList : Obligations.InitFramesReturnsTheList := by
  intro s bus c hc
  show execInitFrames bus s = _
  unfold execInitFrames
  simp only [hc, State.deliver]

end Sys2Proof.Machine
end

section
/-! The spec's numbers for DECODE (20_memory.md R53; 41_decode.md R125 to R128) and the machine's words: the message, the byte
reversal, the byte inversion, the two kinds of values. -/

namespace Sys2Proof

open Sys2Proof.Spec

/-! ## The byte reversal -/

theorem revBytes_lt (n v : Nat) : revBytes n v < 2 ^ (8 * n) := by
  induction n generalizing v with
  | zero => exact Nat.one_pos
  | succ n ih =>
    have hlow := ih (v / 256)
    have htop : v % 256 * 2 ^ (8 * n) ≤ 255 * 2 ^ (8 * n) := Nat.mul_le_mul_right _ (by omega)
    rw [revBytes, show 8 * (n + 1) = 8 * n + 8 by omega, Nat.pow_add]
    omega

/-- Bit `k` of the reversal of `n` bytes is a bit of the opposite byte. -/
theorem testBit_revBytes (n v k : Nat) :
    (revBytes n v).testBit k = (decide (k < 8 * n) && v.testBit (8 * (n - 1 - k / 8) + k % 8)) := by
  induction n generalizing v with
  | zero => simp [revBytes]
  | succ n ih =>
    rw [revBytes, Nat.mul_comm, Nat.testBit_two_pow_mul_add _ (revBytes_lt n _)]
    split
    · next hk =>
      rw [ih, show (256 : Nat) = 2 ^ 8 from rfl, Nat.testBit_div_two_pow,
        show 8 * (n - 1 - k / 8) + k % 8 + 8 = 8 * (n + 1 - 1 - k / 8) + k % 8 by omega]
      simp [hk, show k < 8 * (n + 1) by omega]
    · next hk =>
      rw [show (256 : Nat) = 2 ^ 8 from rfl, Nat.testBit_mod_two_pow]
      by_cases hlast : k < 8 * (n + 1)
      · rw [show 8 * (n + 1 - 1 - k / 8) + k % 8 = k - 8 * n by omega]
        simp [hlast, show k - 8 * n < 8 by omega]
      · simp [hlast, show ¬ k - 8 * n < 8 by omega]

theorem bswap64_toNat (v : Word) : (bswap64 v).toNat = revBytes 8 v.toNat := by
  apply Nat.eq_of_testBit_eq
  intro k
  rw [BitVec.testBit_toNat, testBit_revBytes, BitVec.testBit_toNat]
  by_cases hk : k < 64
  · rw [bswap64_getLsbD v k hk]
    simp [hk]
  · simp [BitVec.getLsbD_of_ge _ k (Nat.le_of_not_lt hk), hk]

/-! ## The byte inversion -/

theorem inv_toNat (v : Word) (s : Nat) : (inv v s).toNat = revBytes 8 v.toNat / 2 ^ (64 - s) := by
  rw [inv, shr, BitVec.toNat_ushiftRight, Nat.shiftRight_eq_div_pow, bswap64_toNat]

/-- The closed form (41_decode.md R128): the bytes of `v` above its low `ceil8(s)` are shifted out. -/
theorem inv_toNat_eq_revBytes (v : Word) {s : Nat} (h : s ≤ 64) :
    (inv v s).toNat =
      revBytes ((s + 7) / 8) (v.toNat % 2 ^ (8 * ((s + 7) / 8))) / 2 ^ (8 * ((s + 7) / 8) - s) := by
  apply Nat.eq_of_testBit_eq
  intro k
  rw [BitVec.testBit_toNat, inv_getLsbD v s k h, Nat.testBit_div_two_pow, testBit_revBytes, Nat.testBit_mod_two_pow,
    BitVec.testBit_toNat]
  by_cases hk : k < s
  · rw [show 8 * ((s + 7) / 8 - 1 - (k + (8 * ((s + 7) / 8) - s)) / 8) + (k + (8 * ((s + 7) / 8) - s)) % 8 =
      8 * (7 - (64 - s + k) / 8) + (64 - s + k) % 8 by omega]
    simp [hk, show k + (8 * ((s + 7) / 8) - s) < 8 * ((s + 7) / 8) by omega,
      show 8 * (7 - (64 - s + k) / 8) + (64 - s + k) % 8 < 8 * ((s + 7) / 8) by omega]
  · simp [hk, show ¬ k + (8 * ((s + 7) / 8) - s) < 8 * ((s + 7) / 8) by omega]

/-- For a whole number of bytes the inversion undoes itself on values of that many bytes (41_decode.md R128 (a)). -/
theorem inv_inv_of_lt {v : Word} {s : Nat} (h : s ≤ 64) (h8 : s % 8 = 0) (hv : v.toNat < 2 ^ s) :
    inv (inv v s) s = v := by
  apply BitVec.eq_of_getLsbD_eq
  intro k _
  rw [inv_getLsbD _ s k h]
  by_cases hk : k < s
  · have hopp : 8 * (7 - (64 - s + k) / 8) + (64 - s + k) % 8 < s := by omega
    rw [inv_getLsbD _ s _ h]
    simp only [hk, hopp, decide_true, Bool.true_and]
    congr 1
    omega
  · simp [hk, getLsbD_of_toNat_lt v s hv k (Nat.le_of_not_lt hk)]

/-- Settles O32: the closed form is `inv_toNat_eq_revBytes`, and the dependence on the low bytes is read off it. -/
theorem invClosedForm : Obligations.InvClosedForm := by
  intro v s _ h
  refine ⟨inv_toNat_eq_revBytes v h, inv_lt v s, fun w hw => ?_, fun h8 hv => inv_inv_of_lt h h8 hv⟩
  apply BitVec.eq_of_toNat_eq
  rw [inv_toNat_eq_revBytes w h, inv_toNat_eq_revBytes v h, hw]

/-! ## The message and its fields -/

theorem message_toNat (p : Vector Byte 8) : (message p).toNat = messageNat p := by
  simp only [message, append_toNat, messageNat]
  omega

theorem testBit_messageNat (p : Vector Byte 8) (k : Nat) : (messageNat p).testBit k = (message p).getLsbD k := by
  rw [← message_toNat, BitVec.testBit_toNat]

theorem digitalValue_eq_digitalBit (m : Word) (a : Nat) : digitalValue m a = digitalBit m.toNat a := by
  rw [digitalValue, digitalBit, ← BitVec.testBit_toNat, Nat.testBit_eq_decide_div_mod_eq]

theorem analogValue_toNat (m : Word) (a s : Nat) (i : Bool) : (analogValue m a s i).toNat = analogNat m.toNat a s i := by
  cases i with
  | false => exact extractField_toNat m a s
  | true =>
    show (inv (extractField m a s) s).toNat = revBytes 8 (m.toNat / 2 ^ a % 2 ^ s) / 2 ^ (64 - s)
    rw [inv_toNat, extractField_toNat]

theorem analogValue_eq_ofNat (m : Word) (a s : Nat) (i : Bool) :
    analogValue m a s i = BitVec.ofNat 64 (analogNat m.toNat a s i) := by
  rw [← analogValue_toNat, BitVec.ofNat_toNat, BitVec.setWidth_eq]

/-- An analog value depends on the message bits of its own range (41_decode.md R133 (a)). -/
theorem analogValue_congr {m m' : Word} {a s : Nat} (h : ∀ k, a ≤ k → k < a + s → m.getLsbD k = m'.getLsbD k) (i : Bool) :
    analogValue m a s i = analogValue m' a s i := by
  rw [analogValue, analogValue, extractField_congr h]

end Sys2Proof
end

section
/-! DECODE (41_decode.md R120 to R135): what it answers for an unknown and for a known identifier, the values it leaves in the
entry, and DECODE repeated. -/

namespace Sys2Proof.Machine

open Sys2Proof Sys2Proof.Spec

/-! ## Decoded entries -/

theorem FrameEntry.decoded_an_eq_some_iff {f : FrameEntry} {m : Word} {j : Nat} {g : AnalogSig} :
    (f.decoded m).an[j]? = some g ↔
      ∃ g₀, f.an[j]? = some g₀ ∧ { g₀ with value := analogValue m g₀.startBit g₀.size g₀.inverted } = g := by
  simp [FrameEntry.decoded]

theorem FrameEntry.decoded_dg_eq_some_iff {f : FrameEntry} {m : Word} {j : Nat} {g : DigitalSig} :
    (f.decoded m).dg[j]? = some g ↔ ∃ g₀, f.dg[j]? = some g₀ ∧ { g₀ with value := digitalValue m g₀.startBit } = g := by
  simp [FrameEntry.decoded]

/-- The values of a decoded entry, in the spec's numbers (41_decode.md R125 to R127). -/
theorem FrameEntry.decoded_message (f : FrameEntry) (p : Vector Byte 8) :
    f.decoded (message p) = { f with
      an := f.an.map (fun g => { g with
        value := BitVec.ofNat 64 (analogNat (messageNat p) g.startBit g.size g.inverted) }),
      dg := f.dg.map (fun g => { g with value := digitalBit (messageNat p) g.startBit }) } := by
  simp only [FrameEntry.decoded, analogValue_eq_ofNat, digitalValue_eq_digitalBit, message_toNat]

/-- The registers' old values do not matter. -/
theorem FrameEntry.decoded_decoded (f : FrameEntry) (m m' : Word) : (f.decoded m).decoded m' = f.decoded m' := by
  simp [FrameEntry.decoded, Function.comp_def]

/-! ## What DECODE answers -/

section

variable {s t : State} {bus : Int} {raw : RawFrame} {f : FrameEntry}

theorem idFits_iff {c : Config} {id : Word} : idFits c id = true ↔ id.toNat < 2 ^ c.idW := decide_eq_true_iff

theorem execDecode_of_unknown {c : Codec} (hc : s.codec? bus = some c) (hi : idFits s.cfg raw.busId = true)
    (hf : s.frame? ⟨bus, .inbound raw.busId⟩ = none) :
    execDecode bus raw s = .next (s.enterRun.raise (.unknownFrameId raw.busId)) := by
  have hget : c.inTable.get? raw.busId = none := (State.frame?_of_codec hc _).symm.trans hf
  unfold execDecode
  simp only [hc, hi, hget, if_true]

/-- DECODE of a known identifier, once it completes. -/
theorem execDecode_next_of_frame (hf : s.frame? ⟨bus, .inbound raw.busId⟩ = some f) (h : execDecode bus raw s = .next t) :
    t = (s.enterRun.setFrame ⟨bus, .inbound raw.busId⟩ (f.decoded (message raw.payload))).deliver
      (.frame ⟨bus, .inbound raw.busId⟩) := by
  obtain ⟨_, _, hi, _⟩ := execDecode_next h
  rw [execDecode_of_frame hi hf] at h
  exact (Host.Outcome.next.inj h).symm

/-- DECODE leaves the decoded entry under its identifier. -/
theorem frame?_deliver_setFrame_enterRun (hf : s.frame? ⟨bus, .inbound raw.busId⟩ = some f) (g : FrameEntry) (r : OpResult) :
    ((s.enterRun.setFrame ⟨bus, .inbound raw.busId⟩ g).deliver r).frame? ⟨bus, .inbound raw.busId⟩ = some g :=
  State.frame?_setFrame_self (s := s.enterRun) hf g

/-- DECODE makes no entry: one that stands after it stood before, with other values. -/
theorem exists_frame?_of_execDecode_next (h : execDecode bus raw s = .next t)
    (hf : t.frame? ⟨bus, .inbound raw.busId⟩ = some f) :
    ∃ f₀, s.frame? ⟨bus, .inbound raw.busId⟩ = some f₀ ∧ f = f₀.decoded (message raw.payload) := by
  cases hs : s.frame? ⟨bus, .inbound raw.busId⟩ with
  | none =>
    obtain ⟨c, hc, hi, _⟩ := execDecode_next h
    rw [execDecode_of_unknown hc hi hs] at h
    cases h
    cases hs.symm.trans hf
  | some f₀ =>
    obtain rfl := execDecode_next_of_frame hs h
    rw [frame?_deliver_setFrame_enterRun hs] at hf
    exact ⟨f₀, rfl, (Option.some.inj hf).symm⟩

end

/-! ## An entry put in place twice -/

theorem Codec.setFrame_setFrame (c : Codec) (k : FrameKey) (f g : FrameEntry) :
    (c.setFrame k f).setFrame k g = c.setFrame k g := by
  cases k <;> simp [Codec.setFrame, FMap.insert_insert]

theorem State.setCodec_setCodec (s : State) (bus : Int) (c d : Codec) :
    (s.setCodec bus c).setCodec bus d = s.setCodec bus d := by
  simp [State.setCodec, FMap.insert_insert]

theorem State.setFrame_setFrame (s : State) (h : Handle) (f g : FrameEntry) :
    (s.setFrame h f).setFrame h g = s.setFrame h g := by
  cases hc : s.codec? h.bus with
  | none =>
    have hstay (e : FrameEntry) : s.setFrame h e = s := by
      unfold State.setFrame
      simp only [hc]
    simp only [hstay]
  | some c =>
    have hset (e : FrameEntry) : s.setFrame h e = s.setCodec h.bus (c.setFrame h.key e) := State.setFrame_of_codec hc h.key e
    rw [hset, hset, State.setFrame_of_codec (State.codec?_setCodec_self s h.bus _) h.key, Codec.setFrame_setFrame,
      State.setCodec_setCodec]

/-- The result is apart from the entries. -/
theorem State.setFrame_deliver (s : State) (h : Handle) (r : OpResult) (g : FrameEntry) :
    (s.deliver r).setFrame h g = (s.setFrame h g).deliver r := by
  unfold State.setFrame
  rw [show (s.deliver r).codec? h.bus = s.codec? h.bus from rfl]
  split <;> rfl

theorem State.deliver_deliver (s : State) (r r' : OpResult) : (s.deliver r).deliver r' = s.deliver r' := rfl

theorem State.enterRun_of_run {s : State} (h : s.phase = .run) : s.enterRun = s := by
  unfold State.enterRun
  rw [← h]

/-! ## The statements -/

/-- Settles O34: the meaning of DECODE names neither member. -/
theorem decodeIgnoresLengthAndFlag : Obligations.DecodeIgnoresLengthAndFlag := by
  intro s bus raw n e
  rfl

/-- Settles O29: what raising the error changes is result and log. -/
theorem decodeOfUnknownId : Obligations.DecodeOfUnknownId := fun _ _ _ _ hc hid hf =>
  execDecode_of_unknown hc (idFits_iff.2 hid) hf

/-- Settles O30: the entry put in place holds the spec's numbers, by `FrameEntry.decoded_message`. -/
theorem decodeWritesEverySignal : Obligations.DecodeWritesEverySignal := by
  intro s bus raw f hid hf
  have ht := execDecode_of_frame (idFits_iff.2 hid) hf
  refine ⟨_, ht, rfl, by simp, ?_, fun h hh => frame?_execDecode_of_ne ht hh, fun b => ?_, execDecode_keeps ht, by simp⟩
  · rw [← FrameEntry.decoded_message]
    exact frame?_deliver_setFrame_enterRun hf _ _
  · show ((s.enterRun.setFrame _ _).codec? b).map _ = _
    rw [State.codec?_setFrame, Option.map_map]
    congr 1
    funext c
    simp only [Function.comp_apply]
    split <;> simp

/-- Settles O31: the entry is a decoded one, and every decoded value is in range. -/
theorem decodedValuesAreInRange : Obligations.DecodedValuesAreInRange := by
  intro s t bus raw f h hf g hg
  obtain ⟨f₀, _, rfl⟩ := exists_frame?_of_execDecode_next h hf
  obtain ⟨g₀, _, rfl⟩ := List.mem_map.1 hg
  exact analogValue_lt _ _ _ _

/-- Settles O33: both entries are decoded from the same one, from two messages that agree on the signal's range. -/
theorem decodeDependsOnOwnBits : Obligations.DecodeDependsOnOwnBits := by
  intro s t t' bus raw raw' f f' hid h h' hf hf'
  obtain ⟨f₀, hf₀, rfl⟩ := exists_frame?_of_execDecode_next h hf
  obtain ⟨f₁, hf₁, rfl⟩ := exists_frame?_of_execDecode_next h' (hid ▸ hf')
  obtain rfl : f₀ = f₁ := Option.some.inj (hf₀.symm.trans (hid ▸ hf₁))
  refine ⟨fun j g g' hg hg' hbits => ?_, fun j g g' hg hg' hbit => ?_⟩
  · obtain ⟨g₀, hg₀, rfl⟩ := FrameEntry.decoded_an_eq_some_iff.1 hg
    obtain ⟨g₁, hg₁, rfl⟩ := FrameEntry.decoded_an_eq_some_iff.1 hg'
    obtain rfl : g₀ = g₁ := Option.some.inj (hg₀.symm.trans hg₁)
    simp only [testBit_messageNat] at hbits
    rw [analogValue_congr hbits]
  · obtain ⟨g₀, hg₀, rfl⟩ := FrameEntry.decoded_dg_eq_some_iff.1 hg
    obtain ⟨g₁, hg₁, rfl⟩ := FrameEntry.decoded_dg_eq_some_iff.1 hg'
    obtain rfl : g₀ = g₁ := Option.some.inj (hg₀.symm.trans hg₁)
    simp only [testBit_messageNat] at hbit
    rw [digitalValue, digitalValue, hbit]

/-- Settles O35: the second DECODE finds the decoded entry and puts the same entry in place again. -/
theorem decodeTwiceIsDecodeOnce : Obligations.DecodeTwiceIsDecodeOnce := by
  intro s t bus raw f hf h
  obtain ⟨_, _, hi, _⟩ := execDecode_next h
  obtain rfl := execDecode_next_of_frame hf h
  refine (execDecode_of_frame (by simpa using hi) (frame?_deliver_setFrame_enterRun hf _ _)).trans ?_
  rw [State.enterRun_of_run (by simp), FrameEntry.decoded_decoded, State.setFrame_deliver, State.setFrame_setFrame,
    State.deliver_deliver]

end Sys2Proof.Machine
end

section
/-! Each bit of a well-formed entry's message belongs to one signal at most (10_state.md R26), and so a message with one
signal's bits set decodes to that signal alone (41_decode.md R133 (c)). -/

namespace Sys2Proof.Machine

open Sys2Proof Sys2Proof.Spec

/-! ## Whose bit it is -/

/-- Ranges that are apart share no bit. -/
theorem index_eq_of_apart {rs : List BitRange} (hapart : rs.Pairwise fun a b => a.meets b = false) {i j k : Nat}
    {r r' : BitRange} (hi : rs[i]? = some r) (hj : rs[j]? = some r') (hr : r.lo ≤ k ∧ k < r.lo + r.len)
    (hr' : r'.lo ≤ k ∧ k < r'.lo + r'.len) : i = j := by
  obtain ⟨hil, rfl⟩ := List.getElem?_eq_some_iff.1 hi
  obtain ⟨hjl, rfl⟩ := List.getElem?_eq_some_iff.1 hj
  rw [List.pairwise_iff_getElem] at hapart
  rcases Nat.lt_trichotomy i j with h | h | h
  · exact absurd ((BitRange.meets_iff _ _).2 ⟨k, hr, hr'⟩) (Bool.eq_false_iff.1 (hapart i j hil hjl h))
  · exact h
  · exact absurd ((BitRange.meets_iff _ _).2 ⟨k, hr', hr⟩) (Bool.eq_false_iff.1 (hapart j i hjl hil h))

section

variable {c : Config} {f : FrameEntry} {i j k : Nat}

theorem FrameEntry.ranges_apart (hf : f.wf c) : f.ranges.Pairwise fun a b => a.meets b = false :=
  let ⟨_, _, hapart, _⟩ := hf
  hapart

theorem FrameEntry.ranges_getElem?_an {g : AnalogSig} (hg : f.an[i]? = some g) :
    f.ranges[i]? = some ⟨g.startBit, g.size⟩ := by
  have hi : i < f.an.length := (List.getElem?_eq_some_iff.1 hg).1
  rw [FrameEntry.ranges, List.getElem?_append_left (by simpa using hi), List.getElem?_map, hg, Option.map_some]

theorem FrameEntry.ranges_getElem?_dg {g : DigitalSig} (hg : f.dg[i]? = some g) :
    f.ranges[f.an.length + i]? = some ⟨g.startBit, 1⟩ := by
  rw [FrameEntry.ranges, List.getElem?_append_right (by simp), List.length_map, Nat.add_sub_cancel_left, List.getElem?_map, hg,
    Option.map_some]

/-- A bit is in one analog field at most. -/
theorem FrameEntry.an_index_eq (hf : f.wf c) {g g' : AnalogSig} (hg : f.an[i]? = some g) (hg' : f.an[j]? = some g')
    (hk : g.startBit ≤ k ∧ k < g.startBit + g.size) (hk' : g'.startBit ≤ k ∧ k < g'.startBit + g'.size) : i = j :=
  index_eq_of_apart (ranges_apart hf) (ranges_getElem?_an hg) (ranges_getElem?_an hg') hk hk'

/-- A bit is one digital signal's at most. -/
theorem FrameEntry.dg_index_eq (hf : f.wf c) {g g' : DigitalSig} (hg : f.dg[i]? = some g) (hg' : f.dg[j]? = some g')
    (h : g.startBit = g'.startBit) : i = j :=
  Nat.add_left_cancel (index_eq_of_apart (k := g.startBit) (ranges_apart hf) (ranges_getElem?_dg hg) (ranges_getElem?_dg hg')
    ⟨Nat.le_refl _, Nat.lt_succ_self _⟩ (h ▸ ⟨Nat.le_refl _, Nat.lt_succ_self _⟩))

/-- No digital signal's bit is in an analog field. -/
theorem FrameEntry.an_dg_apart (hf : f.wf c) {g : AnalogSig} {g' : DigitalSig} (hg : g ∈ f.an) (hg' : g' ∈ f.dg) :
    ¬ (g.startBit ≤ g'.startBit ∧ g'.startBit < g.startBit + g.size) := by
  intro hk
  obtain ⟨i, hi, rfl⟩ := List.getElem_of_mem hg
  obtain ⟨j, hj⟩ := List.getElem?_of_mem hg'
  have heq := index_eq_of_apart (ranges_apart hf) (ranges_getElem?_an (List.getElem?_eq_getElem hi)) (ranges_getElem?_dg hj) hk
    ⟨Nat.le_refl _, Nat.lt_succ_self _⟩
  omega

end

end Sys2Proof.Machine

namespace Sys2Proof

open Sys2Proof.Spec

/-! ## A message with one range of bits set -/

/-- The message has exactly the bits of a range set. -/
def SetsOnly (m : Word) (a s : Nat) : Prop := ∀ k, m.getLsbD k = (decide (a ≤ k) && decide (k < a + s))

theorem setsOnly_of_messageNat {p : Vector Byte 8} {a s : Nat} (h : messageNat p = (2 ^ s - 1) * 2 ^ a) :
    SetsOnly (message p) a s := by
  intro k
  rw [← testBit_messageNat, h, Nat.testBit_mul_two_pow, Nat.testBit_two_pow_sub_one]
  by_cases hk : a ≤ k
  · simp [hk, Nat.sub_lt_iff_lt_add' hk]
  · simp [hk]

variable {m : Word} {a s a' s' : Nat}

theorem digitalValue_of_setsOnly (h : SetsOnly m a s) (b : Nat) :
    digitalValue m b = (decide (a ≤ b) && decide (b < a + s)) := h b

/-- The field whose bits are set is all ones. -/
theorem extractField_of_setsOnly (h : SetsOnly m a s) : extractField m a s = mask s := by
  apply BitVec.eq_of_getLsbD_eq
  intro k hk
  rw [extractField_getLsbD, mask_getLsbD, h]
  by_cases hks : k < s <;> simp [hks, hk]

/-- A field with none of the set bits is 0. -/
theorem extractField_eq_zero_of_setsOnly (h : SetsOnly m a s) (hapart : ∀ k, a ≤ k → k < a + s → ¬ (a' ≤ k ∧ k < a' + s')) :
    extractField m a' s' = 0 := by
  apply BitVec.eq_of_getLsbD_eq
  intro k hk
  rw [extractField_getLsbD, h]
  by_cases hset : a ≤ a' + k ∧ a' + k < a + s
  · have hout : ¬ k < s' := fun hk => hapart (a' + k) hset.1 hset.2 ⟨by omega, by omega⟩
    simp [hout]
  · rw [← Bool.decide_and, decide_eq_false hset]
    simp

theorem inv_zero (s : Nat) : inv 0 s = 0 := by
  simp [inv, shr, bswap64, byteAt]

theorem mask_toNat {s : Nat} (h : s ≤ 64) : (mask s).toNat = 2 ^ s - 1 := by
  have hpow : 2 ^ s ≤ 2 ^ 64 := Nat.pow_le_pow_right (by omega) h
  rw [mask, BitVec.toNat_ofNat, Nat.mod_eq_of_lt (by omega)]

/-- A whole number of bytes of ones reversed is the same. -/
theorem inv_mask {s : Nat} (h : s ≤ 64) (h8 : s % 8 = 0) : inv (mask s) s = mask s := by
  apply BitVec.eq_of_getLsbD_eq
  intro k hk
  rw [inv_getLsbD _ s k h, mask_getLsbD, mask_getLsbD]
  by_cases hks : k < s
  · have hopp : 8 * (7 - (64 - s + k) / 8) + (64 - s + k) % 8 < s := by omega
    simp [hks, hk, hopp, Nat.lt_of_lt_of_le hopp h]
  · simp [hks]

/-- Ones of another width lose the low bits of their top byte: bit `s % 8 - 1` of the inversion is 0 (90_conflicts.md C1). -/
theorem inv_mask_lt {s : Nat} (h : s ≤ 64) (h8 : s % 8 ≠ 0) : (inv (mask s) s).toNat < 2 ^ s - 1 := by
  have hbit : (inv (mask s) s).toNat.testBit (s % 8 - 1) = false := by
    rw [BitVec.testBit_toNat, inv_getLsbD _ s _ h, mask_getLsbD,
      decide_eq_false (show ¬ 8 * (7 - (64 - s + (s % 8 - 1)) / 8) + (64 - s + (s % 8 - 1)) % 8 < s by omega)]
    simp
  have hne : (inv (mask s) s).toNat ≠ 2 ^ s - 1 := by
    intro heq
    rw [heq, Nat.testBit_two_pow_sub_one] at hbit
    exact of_decide_eq_false hbit (by omega)
  have hlt := inv_lt (mask s) s
  omega

/-- The same in the spec's numbers. -/
theorem revBytes_ones_lt {s : Nat} (h : s ≤ 64) (h8 : s % 8 ≠ 0) :
    revBytes 8 (2 ^ s - 1) / 2 ^ (64 - s) < 2 ^ s - 1 := by
  rw [← mask_toNat h, ← inv_toNat, mask_toNat h]
  exact inv_mask_lt h h8

/-- The value of the signal whose bits are set (41_decode.md R132, R133 (c)). -/
theorem analogValue_of_setsOnly (h : SetsOnly m a s) (hs : s ≤ 64) (i : Bool) :
    (analogValue m a s i).toNat =
      if i ∧ s % 8 ≠ 0 then revBytes 8 (2 ^ s - 1) / 2 ^ (64 - s) else 2 ^ s - 1 := by
  rw [analogValue, extractField_of_setsOnly h]
  cases i with
  | false => simpa using mask_toNat hs
  | true =>
    by_cases h8 : s % 8 = 0
    · simpa [h8, inv_mask hs h8] using mask_toNat hs
    · simp [h8, inv_toNat, mask_toNat hs]

/-- The value of every other analog signal. -/
theorem analogValue_eq_zero_of_setsOnly (h : SetsOnly m a s)
    (hapart : ∀ k, a ≤ k → k < a + s → ¬ (a' ≤ k ∧ k < a' + s')) (i : Bool) : analogValue m a' s' i = 0 := by
  rw [analogValue, extractField_eq_zero_of_setsOnly h hapart, inv_zero, ite_self]

end Sys2Proof

namespace Sys2Proof.Machine

open Sys2Proof Sys2Proof.Spec

/-! ## Bit isolation -/

/-- A known identifier of a safe state fits `ID_W`. -/
theorem State.Inv.idFits_of_frame {s : State} (h : s.Inv) {bus : Int} {id : Word} {f : FrameEntry}
    (hf : s.frame? ⟨bus, .inbound id⟩ = some f) : idFits s.cfg id = true := by
  obtain ⟨c, hc, hk⟩ := State.frame?_eq_some hf
  obtain ⟨_, _, hin, _⟩ := h.codec hc
  obtain ⟨hid, _, _, _, _, _, _, hfits, _⟩ := hin _ (FMap.mem_of_get? hk)
  simp only at hid hfits
  exact idFits_iff.2 (hid ▸ hfits)

/-- In a safe state DECODE of a known identifier completes and leaves the decoded entry. -/
theorem exec_decode_of_inv {s : State} (h : s.Inv) {bus : Int} {raw : RawFrame} {f : FrameEntry}
    (hf : s.frame? ⟨bus, .inbound raw.busId⟩ = some f) :
    ∃ t, exec (.decode bus raw) s = .next t ∧
      t.frame? ⟨bus, .inbound raw.busId⟩ = some (f.decoded (message raw.payload)) :=
  ⟨_, execDecode_of_frame (h.idFits_of_frame hf) hf, frame?_deliver_setFrame_enterRun hf _ _⟩

section

variable {c : Config} {f : FrameEntry} {m : Word} {i j : Nat}

/-- A message with one analog field's bits set, in the analog registers. -/
theorem decoded_an_of_setsOnly_an (hf : f.wf c) {g g' : AnalogSig} (hg : f.an[j]? = some g)
    (hm : SetsOnly m g.startBit g.size) (hg' : (f.decoded m).an[i]? = some g') :
    g'.value.toNat = if i = j then
        if g.inverted ∧ g.size % 8 ≠ 0 then revBytes 8 (2 ^ g.size - 1) / 2 ^ (64 - g.size) else 2 ^ g.size - 1
      else 0 := by
  obtain ⟨g₀, hg₀, rfl⟩ := FrameEntry.decoded_an_eq_some_iff.1 hg'
  split
  · next hij =>
    subst hij
    obtain rfl : g = g₀ := Option.some.inj (hg.symm.trans hg₀)
    obtain ⟨han, _⟩ := hf
    obtain ⟨_, hle, _⟩ := han g (List.mem_of_getElem? hg)
    exact analogValue_of_setsOnly hm (by omega) _
  · next hij =>
    have hapart : ∀ k, g.startBit ≤ k → k < g.startBit + g.size → ¬ (g₀.startBit ≤ k ∧ k < g₀.startBit + g₀.size) :=
      fun k hlo hhi hk => hij (FrameEntry.an_index_eq hf hg₀ hg hk ⟨hlo, hhi⟩)
    simp [analogValue_eq_zero_of_setsOnly hm hapart]

/-- A message with one analog field's bits set, in the digital registers. -/
theorem decoded_dg_of_setsOnly_an (hf : f.wf c) {g : AnalogSig} (hg : g ∈ f.an) (hm : SetsOnly m g.startBit g.size)
    {g' : DigitalSig} (hg' : g' ∈ (f.decoded m).dg) : g'.value = false := by
  obtain ⟨g₀, hg₀, rfl⟩ := List.mem_map.1 hg'
  have := FrameEntry.an_dg_apart hf hg hg₀
  simpa [digitalValue_of_setsOnly hm] using this

/-- A message with one digital signal's bit set, in the analog registers. -/
theorem decoded_an_of_setsOnly_dg (hf : f.wf c) {g : DigitalSig} (hg : g ∈ f.dg) (hm : SetsOnly m g.startBit 1)
    {g' : AnalogSig} (hg' : g' ∈ (f.decoded m).an) : g'.value = 0 := by
  obtain ⟨g₀, hg₀, rfl⟩ := List.mem_map.1 hg'
  refine analogValue_eq_zero_of_setsOnly hm (fun k hlo hhi => ?_) _
  obtain rfl : k = g.startBit := by omega
  exact FrameEntry.an_dg_apart hf hg₀ hg

/-- A message with one digital signal's bit set, in the digital registers. -/
theorem decoded_dg_of_setsOnly_dg (hf : f.wf c) {g g' : DigitalSig} (hg : f.dg[j]? = some g)
    (hm : SetsOnly m g.startBit 1) (hg' : (f.decoded m).dg[i]? = some g') : g'.value = decide (i = j) := by
  obtain ⟨g₀, hg₀, rfl⟩ := FrameEntry.decoded_dg_eq_some_iff.1 hg'
  have hbit : g.startBit = g₀.startBit ↔ i = j :=
    ⟨fun h => FrameEntry.dg_index_eq hf hg₀ hg h.symm, fun h => by
      subst h
      rw [Option.some.inj (hg.symm.trans hg₀)]⟩
  simp only [digitalValue_of_setsOnly hm, ← hbit, ← Bool.decide_and]
  exact decide_eq_decide.2 (by omega)

end

/-- Settles O36: a signal's bits are no other signal's, so only the registers of that signal are not 0 or false. -/
theorem bitIsolation : Obligations.BitIsolation := by
  refine ⟨fun s bus raw f hinv hf => ?_, fun n _ h64 h8 => revBytes_ones_lt h64 h8⟩
  have hwf := hinv.frame hf
  obtain ⟨t, ht, hdec⟩ := exec_decode_of_inv hinv hf
  refine ⟨fun j g hg hm => ?_, fun j g hg hm => ?_⟩
  · have honly := setsOnly_of_messageNat hm
    exact ⟨t, _, ht, hdec, fun i g' => decoded_an_of_setsOnly_an hwf hg honly,
      fun g' => decoded_dg_of_setsOnly_an hwf (List.mem_of_getElem? hg) honly⟩
  · have honly : SetsOnly (message raw.payload) g.startBit 1 := setsOnly_of_messageNat (by simpa using hm)
    exact ⟨t, _, ht, hdec, fun g' => decoded_an_of_setsOnly_dg hwf (List.mem_of_getElem? hg) honly,
      fun i g' => decoded_dg_of_setsOnly_dg hwf hg honly⟩

end Sys2Proof.Machine
end

section
/-! The round trip (41_decode.md R134, 42_encode.md R152): in the accumulator of an entry whose values fit their sizes the bits
of a signal's range are what that signal put there, so DECODE reads back every value. -/

namespace Sys2Proof.Machine

open Sys2Proof Sys2Proof.Spec

/-! ## Bits of the accumulator (42_encode.md R144) -/

theorem getLsbD_foldl_or {α : Type} (w : α → Word) (l : List α) (init : Word) (k : Nat) :
    (l.foldl (fun acc x => acc ||| w x) init).getLsbD k = (init.getLsbD k || l.any fun x => (w x).getLsbD k) := by
  induction l generalizing init with
  | nil => simp
  | cons x l ih => rw [List.foldl_cons, ih, BitVec.getLsbD_or, List.any_cons, Bool.or_assoc]

theorem FrameEntry.accumulator_getLsbD (f : FrameEntry) (k : Nat) :
    f.accumulator.getLsbD k =
      ((f.an.any fun g => (analogInsert g.value g.startBit g.size g.inverted).getLsbD k) ||
        f.dg.any fun g => (digitalInsert g.value g.startBit).getLsbD k) := by
  rw [FrameEntry.accumulator, getLsbD_foldl_or, getLsbD_foldl_or]
  simp

/-! ## Exact signals -/

/-- The field of an analog signal on the wire (42_encode.md R145): its value, inverted where the signal is. -/
def AnalogSig.wire (g : AnalogSig) : Word := if g.inverted then inv g.value g.size else g.value

theorem AnalogSig.wire_lt {g : AnalogSig} (hg : Exact g) : g.wire.toNat < 2 ^ g.size := by
  obtain ⟨hlt, _⟩ := hg
  unfold AnalogSig.wire
  split
  · exact inv_lt _ _
  · exact hlt

theorem analogInsert_getLsbD (g : AnalogSig) (k : Nat) :
    (analogInsert g.value g.startBit g.size g.inverted).getLsbD k =
      (decide (k < 64) && decide (g.startBit ≤ k) && g.wire.getLsbD (k - g.startBit)) :=
  shl64_getLsbD g.wire g.startBit k

/-- A value that fits its size stays in its range of bits. -/
theorem analogInsert_in_range {g : AnalogSig} (hg : Exact g) {k : Nat}
    (h : (analogInsert g.value g.startBit g.size g.inverted).getLsbD k = true) :
    g.startBit ≤ k ∧ k < g.startBit + g.size := by
  simp only [analogInsert_getLsbD, Bool.and_eq_true, decide_eq_true_eq] at h
  obtain ⟨⟨_, hlo⟩, hbit⟩ := h
  refine ⟨hlo, ?_⟩
  by_contra hhi
  rw [getLsbD_of_toNat_lt _ _ (AnalogSig.wire_lt hg) _ (by omega)] at hbit
  cases hbit

/-- Reading the field of an exact signal gives back its value (41_decode.md R128 (a)). -/
theorem inv_wire {g : AnalogSig} (hg : Exact g) (hs : g.size ≤ 64) :
    (if g.inverted then inv g.wire g.size else g.wire) = g.value := by
  obtain ⟨hlt, h8⟩ := hg
  unfold AnalogSig.wire
  split
  · next hinv => exact inv_inv_of_lt hs (h8 hinv) hlt
  · rfl

/-! ## One signal's bits -/

theorem any_eq_of_unique {α : Type} {p : α → Bool} {l : List α} {x : α} (hx : x ∈ l) (h : ∀ y ∈ l, p y = true → y = x) :
    l.any p = p x := by
  rw [Bool.eq_iff_iff, List.any_eq_true]
  constructor
  · rintro ⟨y, hy, hp⟩
    exact h y hy hp ▸ hp
  · exact fun hp => ⟨x, hx, hp⟩

section

variable {c : Config} {f : FrameEntry} (hf : f.wf c)

include hf

theorem FrameEntry.an_eq_of_common_bit {g g' : AnalogSig} (hg : g ∈ f.an) (hg' : g' ∈ f.an) {k : Nat}
    (hk : g.startBit ≤ k ∧ k < g.startBit + g.size) (hk' : g'.startBit ≤ k ∧ k < g'.startBit + g'.size) : g = g' := by
  obtain ⟨i, hi⟩ := List.getElem?_of_mem hg
  obtain ⟨j, hj⟩ := List.getElem?_of_mem hg'
  obtain rfl := FrameEntry.an_index_eq hf hi hj hk hk'
  exact Option.some.inj (hi.symm.trans hj)

theorem FrameEntry.dg_eq_of_startBit_eq {g g' : DigitalSig} (hg : g ∈ f.dg) (hg' : g' ∈ f.dg)
    (h : g.startBit = g'.startBit) : g = g' := by
  obtain ⟨i, hi⟩ := List.getElem?_of_mem hg
  obtain ⟨j, hj⟩ := List.getElem?_of_mem hg'
  obtain rfl := FrameEntry.dg_index_eq hf hi hj h
  exact Option.some.inj (hi.symm.trans hj)

variable (hex : ∀ g ∈ f.an, Exact g)

include hex

/-- A bit of an analog field in the accumulator is the field's own. -/
theorem accumulator_getLsbD_of_an {g : AnalogSig} (hg : g ∈ f.an) {k : Nat} (hk : k < g.size) :
    f.accumulator.getLsbD (g.startBit + k) = g.wire.getLsbD k := by
  have hown : (f.an.any fun x => (analogInsert x.value x.startBit x.size x.inverted).getLsbD (g.startBit + k)) =
      (analogInsert g.value g.startBit g.size g.inverted).getLsbD (g.startBit + k) :=
    any_eq_of_unique hg fun x hx hbit =>
      FrameEntry.an_eq_of_common_bit hf hx hg (analogInsert_in_range (hex x hx) hbit) ⟨by omega, by omega⟩
  have hdigital : (f.dg.any fun x => (digitalInsert x.value x.startBit).getLsbD (g.startBit + k)) = false := by
    refine List.any_eq_false.2 fun x hx hbit => FrameEntry.an_dg_apart hf hg hx ?_
    simp only [digitalInsert_getLsbD, Bool.and_eq_true, decide_eq_true_eq] at hbit
    omega
  obtain ⟨han, _⟩ := hf
  obtain ⟨_, hle, _⟩ := han g hg
  rw [FrameEntry.accumulator_getLsbD, hown, hdigital, Bool.or_false, analogInsert_getLsbD, Nat.add_sub_cancel_left]
  simp [show g.startBit + k < 64 by omega]

/-- The bit of a digital signal in the accumulator is the signal's value. -/
theorem accumulator_getLsbD_of_dg {g : DigitalSig} (hg : g ∈ f.dg) : f.accumulator.getLsbD g.startBit = g.value := by
  have hanalog : (f.an.any fun x => (analogInsert x.value x.startBit x.size x.inverted).getLsbD g.startBit) = false :=
    List.any_eq_false.2 fun x hx hbit => FrameEntry.an_dg_apart hf hx hg (analogInsert_in_range (hex x hx) hbit)
  have hown : (f.dg.any fun x => (digitalInsert x.value x.startBit).getLsbD g.startBit) =
      (digitalInsert g.value g.startBit).getLsbD g.startBit := by
    refine any_eq_of_unique hg fun x hx hbit => FrameEntry.dg_eq_of_startBit_eq hf hx hg ?_
    simp only [digitalInsert_getLsbD, Bool.and_eq_true, decide_eq_true_eq] at hbit
    omega
  obtain ⟨_, hdg, _⟩ := hf
  have hle := hdg g hg
  rw [FrameEntry.accumulator_getLsbD, hanalog, hown, Bool.false_or, digitalInsert_getLsbD]
  simp [show g.startBit < 64 by omega]

/-! ## What DECODE reads of an encoded entry -/

/-- The payload holds every claimed bit (10_state.md R27), so each analog signal reads back. -/
theorem analogValue_of_encoded {g : AnalogSig} (hg : g ∈ f.an) :
    analogValue (message (payloadOf f.accumulator f.byteLength)) g.startBit g.size g.inverted = g.value := by
  obtain ⟨_, _, _, hclaimed, _⟩ := byteLengthIsLeast c f hf
  have hle : g.startBit + g.size ≤ 64 := by
    obtain ⟨han, _⟩ := hf
    obtain ⟨_, hle, _⟩ := han g hg
    exact hle
  have hfield : extractField (message (payloadOf f.accumulator f.byteLength)) g.startBit g.size = g.wire := by
    apply BitVec.eq_of_getLsbD_eq
    intro k _
    rw [extractField_getLsbD]
    by_cases hk : k < g.size
    · rw [message_payloadOf_getLsbD _ _ _ (by omega), accumulator_getLsbD_of_an hf hex hg hk]
      simp [hk, hclaimed g hg (g.startBit + k) (by omega) (by omega)]
    · simp [hk, getLsbD_of_toNat_lt _ _ (AnalogSig.wire_lt (hex g hg)) k (Nat.le_of_not_lt hk)]
  rw [analogValue, hfield]
  exact inv_wire (hex g hg) (by omega)

theorem digitalValue_of_encoded {g : DigitalSig} (hg : g ∈ f.dg) :
    digitalValue (message (payloadOf f.accumulator f.byteLength)) g.startBit = g.value := by
  obtain ⟨_, hlen, _, _, hclaimed, _⟩ := byteLengthIsLeast c f hf
  have hbelow := hclaimed g hg
  rw [digitalValue, message_payloadOf_getLsbD _ _ _ (by omega), accumulator_getLsbD_of_dg hf hex hg]
  simp [hbelow]

end

/-! ## Entries with the same signals -/

/-- What DECODE writes depends on the layout of the signals only. -/
theorem decoded_values_of_sameSignals {f f' : FrameEntry} (h : sameSignals f f') (m : Word) :
    (f'.decoded m).an.map AnalogSig.value = f.an.map (fun g => analogValue m g.startBit g.size g.inverted) ∧
      (f'.decoded m).dg.map DigitalSig.value = f.dg.map fun g => digitalValue m g.startBit := by
  obtain ⟨han, hdg⟩ := h
  constructor
  · simpa [FrameEntry.decoded, Function.comp_def] using
      (congrArg (List.map fun x => analogValue m x.2.1 x.2.2.1 x.2.2.2) han).symm
  · simpa [FrameEntry.decoded, Function.comp_def] using (congrArg (List.map fun x => digitalValue m x.2) hdg).symm

/-- Settles O42: ENCODE changes no entry, and DECODE of its payload reads back each signal of the outbound entry. -/
theorem decodeOfEncodeIsIdentity : Obligations.DecodeOfEncodeIsIdentity := by
  intro s bus bus' n id f f' hinv hser hf hf' hsame hex
  have hwf := hinv.frame hf
  obtain ⟨t', ht', hdec⟩ := exec_decode_of_inv (raw := { f.encoded s.cfg.effBit with busId := id })
    (hinv.enterRun.deliver (.raw (f.encoded s.cfg.effBit))) hf'
  obtain ⟨han, hdg⟩ := decoded_values_of_sameSignals hsame (message (payloadOf f.accumulator f.byteLength))
  refine ⟨_, _, t', _, execEncode_of_frame hser hf, rfl, ht', hdec, han.trans ?_, hdg.trans ?_⟩
  · exact List.map_congr_left fun g hg => analogValue_of_encoded hwf hex hg
  · exact List.map_congr_left fun g hg => digitalValue_of_encoded hwf hex hg

end Sys2Proof.Machine
end

section
/-! GET_TX and ENCODE (42_encode.md R140 to R151): what they answer for an unknown and for a known name, and the encoded
frame bit by bit. -/

namespace Sys2Proof.Machine

open Sys2Proof Sys2Proof.Spec

/-! ## What GET_TX and ENCODE answer -/

section

variable {s : State} {bus : Int} {n : Text}

theorem execGetTx_of_frame {f : FrameEntry} (hs : s.cfg.ser = true) (hf : s.frame? ⟨bus, .outbound n⟩ = some f) :
    execGetTx bus n s = .next (s.enterRun.deliver (.frame ⟨bus, .outbound n⟩)) := by
  obtain ⟨c, hc, hk⟩ := State.frame?_eq_some hf
  have hget : c.outTable.get? n = some f := hk
  unfold execGetTx
  simp only [hs, hc, hget, if_true]

theorem execGetTx_of_unknown {c : Codec} (hs : s.cfg.ser = true) (hc : s.codec? bus = some c)
    (hf : s.frame? ⟨bus, .outbound n⟩ = none) : execGetTx bus n s = .next (s.enterRun.raise (.unknownFrameName n)) := by
  have hget : c.outTable.get? n = none := (State.frame?_of_codec hc _).symm.trans hf
  unfold execGetTx
  simp only [hs, hc, hget, if_true]

theorem execEncode_of_unknown {c : Codec} (hs : s.cfg.ser = true) (hc : s.codec? bus = some c)
    (hf : s.frame? ⟨bus, .outbound n⟩ = none) : execEncode bus n s = .next (s.enterRun.raise (.unknownFrameName n)) := by
  have hget : c.outTable.get? n = none := (State.frame?_of_codec hc _).symm.trans hf
  unfold execEncode
  simp only [hs, hc, hget, if_true]

/-- ENCODE of a known name, once it completes. -/
theorem execEncode_next_of_frame {t : State} {f : FrameEntry} (hf : s.frame? ⟨bus, .outbound n⟩ = some f)
    (h : execEncode bus n s = .next t) :
    s.cfg.ser = true ∧ t = s.enterRun.deliver (.raw (f.encoded s.cfg.effBit)) := by
  obtain ⟨hs, _⟩ := execEncode_next h
  exact ⟨hs, Host.Outcome.next.inj (h.symm.trans (execEncode_of_frame hs hf))⟩

end

/-! ## Bits of the encoded frame -/

/-- The identifier with its marker bit (42_encode.md R143). -/
theorem markedId_getLsbD (e : Nat) (id : Word) (x : Bool) {k : Nat} (hk : k < 64) :
    (markedId e id x).getLsbD k = (id.getLsbD k || (x && decide (k = e))) := by
  rw [markedId, BitVec.getLsbD_or]
  cases x with
  | false => simp
  | true =>
    have hmark : (BitVec.twoPow 64 e).getLsbD k = decide (k = e) := by
      rw [BitVec.getLsbD_twoPow, Bool.eq_iff_iff]
      simp only [Bool.and_eq_true, decide_eq_true_eq]
      omega
    simp [hmark]

/-- The field on the wire in the spec's numbers (41_decode.md R127, R128). -/
theorem AnalogSig.wire_eq_ofNat (g : AnalogSig) :
    g.wire = if g.inverted then BitVec.ofNat 64 (revBytes 8 g.value.toNat / 2 ^ (64 - g.size)) else g.value := by
  rw [AnalogSig.wire, ← inv_toNat, BitVec.ofNat_toNat, BitVec.setWidth_eq]

theorem analogInsert_getLsbD_eq_analogBitAt (g : AnalogSig) {k : Nat} (hk : k < 64) :
    (analogInsert g.value g.startBit g.size g.inverted).getLsbD k = analogBitAt g k := by
  rw [analogInsert_getLsbD, AnalogSig.wire_eq_ofNat, analogBitAt]
  simp [hk]

theorem digitalInsert_getLsbD_of_lt (v : Bool) (a : Nat) {k : Nat} (hk : k < 64) :
    (digitalInsert v a).getLsbD k = (v && decide (a = k)) := by
  rw [digitalInsert_getLsbD]
  simp [hk, eq_comm]

/-- A bit of the message is what some signal contributes there (42_encode.md R145, R146, R149). -/
theorem FrameEntry.accumulator_getLsbD_of_lt (f : FrameEntry) {k : Nat} (hk : k < 64) :
    f.accumulator.getLsbD k =
      ((f.an.any fun g => analogBitAt g k) || f.dg.any fun g => g.value && decide (g.startBit = k)) := by
  simp only [FrameEntry.accumulator_getLsbD, analogInsert_getLsbD_eq_analogBitAt _ hk, digitalInsert_getLsbD_of_lt _ _ hk]

/-- The order of the signals is not in the accumulator (42_encode.md R147). -/
theorem FrameEntry.accumulator_eq_of_perm {f f' : FrameEntry} (han : f'.an.Perm f.an) (hdg : f'.dg.Perm f.dg) :
    f'.accumulator = f.accumulator := by
  apply BitVec.eq_of_getLsbD_eq
  intro k _
  rw [FrameEntry.accumulator_getLsbD, FrameEntry.accumulator_getLsbD, han.any_eq, hdg.any_eq]

/-- On the wire an inverted value is in range whatever it was (41_decode.md R128 (c)). -/
theorem AnalogSig.wire_lt_of_fits {g : AnalogSig} (hg : g.inverted = false → g.value.toNat < 2 ^ g.size) :
    g.wire.toNat < 2 ^ g.size := by
  unfold AnalogSig.wire
  split
  · exact inv_lt _ _
  · next hinv => exact hg (by simpa using hinv)

/-- A field that fits its size contributes nothing outside its range. -/
theorem analogInsert_getLsbD_of_outside {g : AnalogSig} (hg : g.wire.toNat < 2 ^ g.size) {k : Nat}
    (hk : ¬ (g.startBit ≤ k ∧ k < g.startBit + g.size)) :
    (analogInsert g.value g.startBit g.size g.inverted).getLsbD k = false := by
  rw [analogInsert_getLsbD]
  by_cases hlo : g.startBit ≤ k
  · simp [getLsbD_of_toNat_lt _ _ hg (k - g.startBit) (by omega)]
  · simp [hlo]

/-- A bit that no signal claims is 0 in the accumulator (42_encode.md R151). -/
theorem FrameEntry.accumulator_getLsbD_of_unclaimed {f : FrameEntry} {k : Nat}
    (hfit : ∀ g ∈ f.an, g.inverted = false → g.value.toNat < 2 ^ g.size)
    (han : ∀ g ∈ f.an, ¬ (g.startBit ≤ k ∧ k < g.startBit + g.size)) (hdg : ∀ g ∈ f.dg, g.startBit ≠ k) :
    f.accumulator.getLsbD k = false := by
  rw [FrameEntry.accumulator_getLsbD, Bool.or_eq_false_iff]
  constructor
  · refine List.any_eq_false.2 fun g hg => Bool.eq_false_iff.1 ?_
    exact analogInsert_getLsbD_of_outside (AnalogSig.wire_lt_of_fits (hfit g hg)) (han g hg)
  · refine List.any_eq_false.2 fun g hg => ?_
    simp [digitalInsert_getLsbD, (hdg g hg).symm]

/-- The length is not cut to the range of its member (42_encode.md R148). -/
theorem FrameEntry.encoded_length {f : FrameEntry} (h : f.byteLength ≤ 8) (e : Nat) :
    (f.encoded e).length.val = f.byteLength :=
  Nat.mod_eq_of_lt (Nat.lt_succ_of_le h)

/-- Bit `j` of byte `i` of the payload (42_encode.md R148). -/
theorem FrameEntry.encoded_payload_getLsbD (f : FrameEntry) (e : Nat) {i j : Nat} (hi : i < 8) (hj : j < 8) :
    (f.encoded e).payload[i].getLsbD j = (decide (i < f.byteLength) && f.accumulator.getLsbD (8 * i + j)) := by
  show (payloadOf f.accumulator f.byteLength)[i].getLsbD j = _
  rw [getElem_payloadOf _ _ _ hi]
  split
  · next hlen =>
    rw [byteAt_getLsbD]
    simp [hlen, hj]
  · next hlen => simp [hlen]

/-! ## The statements -/

/-- Settles O37: raising the error changes result and log only. -/
theorem unknownOutboundName : Obligations.UnknownOutboundName := by
  rintro s bus n c i (rfl | rfl) hser hc hf
  · exact execGetTx_of_unknown hser hc hf
  · exact execEncode_of_unknown hser hc hf

/-- Settles O38. -/
theorem getTxReturnsTheLiveEntry : Obligations.GetTxReturnsTheLiveEntry := fun _ _ _ _ hser hf =>
  execGetTx_of_frame hser hf

/-- Settles O39: the payload's bits are the accumulator's below `byteLength`, which a safe state bounds by 8. -/
theorem encodeBuildsTheFrame : Obligations.EncodeBuildsTheFrame := by
  intro s bus n f hinv hser hf
  obtain ⟨_, hlen, _⟩ := byteLengthIsLeast _ f (hinv.frame hf)
  refine ⟨_, execEncode_of_frame hser hf, rfl, FrameEntry.encoded_length hlen _,
    fun k hk => markedId_getLsbD _ _ _ hk, fun i hi j hj => ?_⟩
  rw [FrameEntry.encoded_payload_getLsbD f _ hi hj, FrameEntry.accumulator_getLsbD_of_lt f (by omega)]

/-- Settles O40: the two entries have one accumulator, and ENCODE reads the signals nowhere else. -/
theorem encodeOrderDoesNotMatter : Obligations.EncodeOrderDoesNotMatter := by
  intro s s' t bus n f f' hcfg hf hf' hid hext hlen han hdg h
  obtain ⟨hser, rfl⟩ := execEncode_next_of_frame hf h
  refine ⟨_, execEncode_of_frame (hcfg ▸ hser) hf', ?_⟩
  have hencoded : f'.encoded s'.cfg.effBit = f.encoded s.cfg.effBit := by
    rw [FrameEntry.encoded, FrameEntry.encoded, hid, hext, hlen, hcfg, FrameEntry.accumulator_eq_of_perm han hdg]
  rw [State.deliver_result, State.deliver_result, hencoded]

/-- Settles O41: the message of the payload is the accumulator below `byteLength`, zero elsewhere. -/
theorem unusedBitsAreZero : Obligations.UnusedBitsAreZero := by
  intro s t bus n f r hf h hr hfit k hk han hdg
  obtain ⟨_, rfl⟩ := execEncode_next_of_frame hf h
  obtain rfl : f.encoded s.cfg.effBit = r := by simpa using hr
  rw [testBit_messageNat, FrameEntry.encoded, message_payloadOf_getLsbD _ _ _ hk,
    FrameEntry.accumulator_getLsbD_of_unclaimed hfit han hdg, Bool.and_false]

end Sys2Proof.Machine
end

section
/-! BLOAD (43_binder.md R160, R162): the registry and the routing table each take the pairs of the sources, in order, and a
pair that does not agree with what stands ends the walk. -/

namespace Sys2Proof.Machine

open Sys2Proof Sys2Proof.Spec

/-! ## A table that takes pairs -/

section

variable {V : Type} {m m' m'' : FMap Text V} {l l' : List (Text × V)}

/-- The pairs agree with each other and with a table, and the table `m'` holds them and what `m` held. -/
def Takes (m : FMap Text V) (l : List (Text × V)) (m' : FMap Text V) : Prop :=
  Agrees m l ∧ ∀ n v, m'.get? n = some v ↔ (n, v) ∈ l ∨ m.get? n = some v

theorem takes_nil (m : FMap Text V) : Takes m [] m := by simp [Takes, Agrees]

theorem agrees_singleton_iff {n : Text} {v : V} : Agrees m [(n, v)] ↔ ∀ w, m.get? n = some w → w = v := by
  simp [Agrees]

theorem agrees_of_append (h : Agrees m (l ++ l')) : Agrees m l :=
  let ⟨hpairs, htable⟩ := h
  ⟨fun p hp q hq => hpairs p (List.mem_append_left _ hp) q (List.mem_append_left _ hq),
    fun p hp => htable p (List.mem_append_left _ hp)⟩

/-- Agreeing with a table and the pairs it is to take is agreeing with the table that took them. -/
theorem Takes.agrees_append_iff (h : Takes m l m') : Agrees m (l ++ l') ↔ Agrees m' l' := by
  obtain ⟨⟨hpairs, htable⟩, hget⟩ := h
  constructor
  · rintro ⟨hpairs', htable'⟩
    refine ⟨fun p hp q hq => hpairs' p (List.mem_append_right _ hp) q (List.mem_append_right _ hq), fun p hp v hv => ?_⟩
    obtain hmem | hold := (hget p.1 v).1 hv
    · exact hpairs' (p.1, v) (List.mem_append_left _ hmem) p (List.mem_append_right _ hp) rfl
    · exact htable' p (List.mem_append_right _ hp) v hold
  · rintro ⟨hpairs', htable'⟩
    have hcross : ∀ p ∈ l, ∀ q ∈ l', p.1 = q.1 → p.2 = q.2 := fun p hp q hq e =>
      htable' q hq p.2 (e ▸ (hget p.1 p.2).2 (.inl hp))
    refine ⟨fun p hp q hq e => ?_, fun p hp v hv => ?_⟩
    · obtain hp | hp := List.mem_append.1 hp <;> obtain hq | hq := List.mem_append.1 hq
      · exact hpairs p hp q hq e
      · exact hcross p hp q hq e
      · exact (hcross q hq p hp e.symm).symm
      · exact hpairs' p hp q hq e
    · obtain hp | hp := List.mem_append.1 hp
      · exact htable p hp v hv
      · exact htable' p hp v ((hget p.1 v).2 (.inr hv))

theorem Takes.append (h : Takes m l m') (h' : Takes m' l' m'') : Takes m (l ++ l') m'' := by
  obtain ⟨hagrees', hget'⟩ := h'
  refine ⟨h.agrees_append_iff.2 hagrees', fun n v => ?_⟩
  rw [hget', h.2, List.mem_append, ← or_assoc, or_comm (a := (n, v) ∈ l')]

variable [DecidableEq V]

theorem takes_singleton {n : Text} {v : V} (h : m.agree n v = some m') : Takes m [(n, v)] m' := by
  obtain ⟨hold, hget⟩ := FMap.agree_eq_some h
  refine ⟨agrees_singleton_iff.2 hold, fun j w => ?_⟩
  rw [hget, List.mem_singleton, Prod.mk.injEq]
  split
  · next e =>
    subst e
    exact ⟨fun hw => .inl ⟨rfl, (Option.some.inj hw).symm⟩,
      fun hw => hw.elim (fun ⟨_, e⟩ => congrArg some e.symm) fun hw => congrArg some (hold w hw).symm⟩
  · next e => exact ⟨.inr, fun hw => hw.resolve_left fun ⟨hj, _⟩ => e hj.symm⟩

theorem not_agrees_singleton {n : Text} {v : V} (h : m.agree n v = none) : ¬ Agrees m [(n, v)] := fun hagrees =>
  let ⟨w, hw, hne⟩ := FMap.agree_eq_none h
  hne (agrees_singleton_iff.1 hagrees w hw)

end

/-! ## The walk over the sources -/

/-- What BLOAD's walk is to answer for pairs of signal name and direction and of frame name and bus: a binder whose tables
took them, or a conflict where they do not agree. -/
def Binder.Answers (b : Binder) (ds : List (Text × Dir)) (rs : List (Text × Int)) : Except Text Binder → Prop
  | .ok b' => Takes b.dirReg ds b'.dirReg ∧ Takes b.routing rs b'.routing
  | .error _ => ¬ (Agrees b.dirReg ds ∧ Agrees b.routing rs)

section

variable {b b' : Binder} {ds ds' : List (Text × Dir)} {rs rs' : List (Text × Int)}

theorem Binder.Answers.append (h : b.Answers ds rs (.ok b')) {e : Except Text Binder} (h' : b'.Answers ds' rs' e) :
    b.Answers (ds ++ ds') (rs ++ rs') e := by
  obtain ⟨hds, hrs⟩ := h
  cases e with
  | ok b'' => exact ⟨hds.append h'.1, hrs.append h'.2⟩
  | error n => exact fun ⟨hds', hrs'⟩ => h' ⟨hds.agrees_append_iff.1 hds', hrs.agrees_append_iff.1 hrs'⟩

theorem Binder.Answers.error_append {n : Text} (h : b.Answers ds rs (.error n)) :
    b.Answers (ds ++ ds') (rs ++ rs') (.error n) := fun ⟨hds, hrs⟩ =>
  h ⟨agrees_of_append hds, agrees_of_append hrs⟩

end

theorem recordDirs_ok {dir : Dir} {r r' : FMap Text Dir} {ns : List Text} (h : recordDirs dir r ns = .ok r') :
    Takes r (ns.map fun n => (n, dir)) r' := by
  induction ns generalizing r with
  | nil => cases h; exact takes_nil _
  | cons n ns ih =>
    unfold recordDirs at h
    split at h
    · next r1 h1 => exact (takes_singleton h1).append (ih h)
    · cases h

theorem recordDirs_error {dir : Dir} {r : FMap Text Dir} {ns : List Text} {n : Text} (h : recordDirs dir r ns = .error n) :
    ¬ Agrees r (ns.map fun n => (n, dir)) := by
  induction ns generalizing r with
  | nil => cases h
  | cons n ns ih =>
    unfold recordDirs at h
    split at h
    · next r1 h1 => exact fun hagrees => ih h ((takes_singleton h1).agrees_append_iff.1 hagrees)
    · next h1 => exact fun hagrees => not_agrees_singleton h1 (agrees_of_append (l := [_]) hagrees)

theorem recordRoute_ok {bus : Int} {r r' : FMap Text Int} {d : RouteDesc} (h : recordRoute bus r d.route = .ok r') :
    Takes r (routes [(bus, [d])]) r' := by
  obtain ⟨route, as, gs⟩ := d
  cases route with
  | inbound => cases h; exact takes_nil _
  | outbound n =>
    simp only [recordRoute] at h
    split at h
    · next r1 h1 => cases h; exact takes_singleton h1
    · cases h

theorem recordRoute_error {bus : Int} {r : FMap Text Int} {d : RouteDesc} {n : Text}
    (h : recordRoute bus r d.route = .error n) : ¬ Agrees r (routes [(bus, [d])]) := by
  obtain ⟨route, as, gs⟩ := d
  cases route with
  | inbound => cases h
  | outbound n =>
    simp only [recordRoute] at h
    split at h
    · cases h
    · next h1 => exact not_agrees_singleton h1

theorem dirs_frame (bus : Int) (d : RouteDesc) :
    dirs [(bus, [d])] = (d.analog ++ d.digital).map fun n => (n, routeDir d) := by
  obtain ⟨route, as, gs⟩ := d
  cases route <;> simp [dirs, routeDir]

/-- One frame object (43_binder.md R160). -/
theorem recordFrame_answers (bus : Int) (b : Binder) (d : RouteDesc) :
    b.Answers (dirs [(bus, [d])]) (routes [(bus, [d])]) (recordFrame bus b d) := by
  unfold recordFrame
  split
  · next hr => exact fun ⟨_, hagrees⟩ => recordRoute_error hr hagrees
  · next routing hr =>
    split
    · next hd => exact fun ⟨hagrees, _⟩ => recordDirs_error hd (dirs_frame bus d ▸ hagrees)
    · next dirReg hd => exact ⟨dirs_frame bus d ▸ recordDirs_ok hd, recordRoute_ok hr⟩

theorem recordFrames_answers (bus : Int) (b : Binder) (ds : List RouteDesc) :
    b.Answers (dirs [(bus, ds)]) (routes [(bus, ds)]) (recordFrames bus b ds) := by
  induction ds generalizing b with
  | nil => exact ⟨takes_nil _, takes_nil _⟩
  | cons d ds ih =>
    have hdirs : dirs [(bus, d :: ds)] = dirs [(bus, [d])] ++ dirs [(bus, ds)] := by simp [dirs]
    have hroutes : routes [(bus, d :: ds)] = routes [(bus, [d])] ++ routes [(bus, ds)] := by simp [routes]
    have hd := recordFrame_answers bus b d
    rw [hdirs, hroutes, recordFrames]
    split
    · next he => exact (he ▸ hd).error_append
    · next b' he => exact (he ▸ hd).append (ih b')

/-- The sources of all buses: BLOAD records their pairs, or finds that they do not agree (43_binder.md R160, R162). -/
theorem recordSources_answers (b : Binder) (srcs : List (Int × List RouteDesc)) :
    b.Answers (dirs srcs) (routes srcs) (recordSources b srcs) := by
  induction srcs generalizing b with
  | nil => exact ⟨takes_nil _, takes_nil _⟩
  | cons p ps ih =>
    have hdirs : dirs (p :: ps) = dirs [p] ++ dirs ps := by simp [dirs]
    have hroutes : routes (p :: ps) = routes [p] ++ routes ps := by simp [routes]
    have hp := recordFrames_answers p.1 b p.2
    rw [hdirs, hroutes, recordSources]
    split
    · next he => exact (he ▸ hp).error_append
    · next b' he => exact (he ▸ hp).append (ih b')

/-! ## The statements -/

/-- BLOAD writes the registry and the routes only. -/
theorem recordSources_keeps {b b' : Binder} {srcs : List (Int × List RouteDesc)} (h : recordSources b srcs = .ok b') :
    b'.inBind = b.inBind ∧ b'.outBind = b.outBind ∧ b'.syncBuf = b.syncBuf := by
  obtain ⟨_, _, hkeeps⟩ := recordSources_induct (fun _ => True) (fun _ => True) (fun _ _ _ _ _ _ => trivial)
    (fun _ _ _ _ _ _ => trivial) h trivial trivial
  exact hkeeps

theorem execBload_of_conflict {srcs : List (Int × List RouteDesc)} {s : State} {n : Text} (hb : s.cfg.bind = true)
    (hp : s.phase = .load) (hr : recordSources s.binder srcs = .error n) :
    execBload srcs s = .refused (.conflictingName n) := by
  unfold execBload
  rw [hb, hp, hr]
  rfl

/-- Settles O43: sources that agree meet no conflict, so both tables took the pairs. -/
theorem bloadRecordsTheSources : Obligations.BloadRecordsTheSources := by
  intro s srcs hb hp hdirs hroutes
  have hanswers := recordSources_answers s.binder srcs
  cases hr : recordSources s.binder srcs with
  | error n => exact absurd ⟨hdirs, hroutes⟩ (hr ▸ hanswers)
  | ok b =>
    obtain ⟨⟨_, hdirReg⟩, _, hrouting⟩ : Binder.Answers _ _ _ (.ok b) := hr ▸ hanswers
    obtain ⟨hin, hout, hbuf⟩ := recordSources_keeps hr
    exact ⟨_, execBload_of_agrees hb hp hr, rfl, rfl, hdirReg, hrouting, hin, hout, hbuf, rfl, ⟨rfl, rfl, rfl⟩, rfl⟩

/-- Settles O44: tables that took the pairs would show that the pairs agree. -/
theorem bloadRefusesConflicts : Obligations.BloadRefusesConflicts := by
  intro s srcs hb hp hconflict
  have hanswers := recordSources_answers s.binder srcs
  cases hr : recordSources s.binder srcs with
  | error n => exact ⟨n, execBload_of_conflict hb hp hr⟩
  | ok b =>
    obtain ⟨⟨hdirs, _⟩, hroutes, _⟩ : Binder.Answers _ _ _ (.ok b) := hr ▸ hanswers
    exact absurd ⟨hdirs, hroutes⟩ hconflict

end Sys2Proof.Machine
end

section
/-! REGISTER (43_binder.md R165 to R169): the two binding tables as one table per direction, what a walk over fresh leaves
binds, and where a walk stops. -/

namespace Sys2Proof.Machine

open Sys2Proof Sys2Proof.Spec

/-! ## The binding table of a direction -/

/-- The table in which REGISTER binds a leaf of a direction (43_binder.md R165). -/
def Binder.table (b : Binder) : Dir → FMap Text Binding
  | .input => b.inBind
  | .output => b.outBind

/-- The binding a leaf comes with (43_binder.md R165; log 12). -/
def bindingOf (l : Leaf) : Binding := ⟨l.addr, l.bytes, l.kind⟩

theorem Binder.get?_table_bindLeaf (b : Binder) (d e : Dir) (l : Leaf) (n : Text) :
    ((b.bindLeaf d l).table e).get? n = if d = e ∧ l.name = n then some (bindingOf l) else (b.table e).get? n := by
  cases d <;> cases e <;> simp [Binder.bindLeaf, Binder.table, FMap.get?_insert, bindingOf]

/-- Binding a leaf leaves the bindings of every other name. -/
theorem Binder.get?_table_bindLeaf_of_ne (b : Binder) (d e : Dir) {l : Leaf} {n : Text} (h : l.name ≠ n) :
    ((b.bindLeaf d l).table e).get? n = (b.table e).get? n := by
  rw [Binder.get?_table_bindLeaf, if_neg fun ⟨_, e⟩ => h e]

theorem Binder.bound_eq_true_iff {b : Binder} {n : Text} : b.bound n = true ↔ ∃ d, (b.table d).get? n ≠ none := by
  rw [Binder.bound, Bool.or_eq_true, Option.isSome_iff_ne_none, Option.isSome_iff_ne_none]
  exact ⟨fun h => h.elim (⟨.input, ·⟩) (⟨.output, ·⟩), fun ⟨d, h⟩ => by cases d; exacts [.inl h, .inr h]⟩

theorem Binder.bound_eq_false_iff {b : Binder} {n : Text} : b.bound n = false ↔ ∀ d, (b.table d).get? n = none := by
  rw [← Bool.not_eq_true, Binder.bound_eq_true_iff]
  simp

/-! ## The walk over the leaves, leaf by leaf -/

section

variable {b : Binder} {l : Leaf}

theorem registerLeaves_of_unknown (hl : b.dirReg.get? l.name = none) (ls : List Leaf) :
    registerLeaves b (l :: ls) = registerLeaves b ls := by
  simp only [registerLeaves, hl]

theorem registerLeaves_of_unbound {d : Dir} (hd : b.dirReg.get? l.name = some d) (hl : b.bound l.name = false)
    (ls : List Leaf) : registerLeaves b (l :: ls) = registerLeaves (b.bindLeaf d l) ls := by
  simp [registerLeaves, hd, hl]

/-- A known leaf whose name is bound ends the walk (43_binder.md R166). -/
theorem registerLeaves_of_bound (hknown : b.dirReg.get? l.name ≠ none) (hl : b.bound l.name = true) (ls : List Leaf) :
    registerLeaves b (l :: ls) = (b, some l.name) := by
  obtain ⟨d, hd⟩ := Option.ne_none_iff_exists'.1 hknown
  simp only [registerLeaves, hd, hl, if_true]

/-- A walk without a duplicate goes on with the leaves after it. -/
theorem registerLeaves_append {b' : Binder} {ls : List Leaf} (h : registerLeaves b ls = (b', none)) (ls' : List Leaf) :
    registerLeaves b (ls ++ ls') = registerLeaves b' ls' := by
  induction ls generalizing b with
  | nil => cases h; rfl
  | cons l ls ih =>
    rw [List.cons_append]
    cases hd : b.dirReg.get? l.name with
    | none =>
      rw [registerLeaves_of_unknown hd] at h ⊢
      exact ih h
    | some d =>
      cases hl : b.bound l.name with
      | true =>
        rw [registerLeaves_of_bound (by simp [hd]) hl] at h
        cases h
      | false =>
        rw [registerLeaves_of_unbound hd hl] at h ⊢
        exact ih h

end

/-! ## The walk over fresh leaves -/

/-- The leaves whose names the registry knows are bound nowhere yet and occur once. -/
def Binder.Fresh (b : Binder) (ls : List Leaf) : Prop :=
  (∀ l ∈ ls, b.dirReg.get? l.name ≠ none → b.bound l.name = false) ∧
    ls.Pairwise fun l l' => b.dirReg.get? l.name ≠ none → l.name ≠ l'.name

theorem freshLeaves_iff (s : State) (ls : List Leaf) : FreshLeaves s ls ↔ s.binder.Fresh ls := by
  simp [Binder.Fresh, Binder.bound]

/-- A binder in which a walk bound the leaves of known names: each in the table of its direction, every other binding as it
was. -/
def Binder.Binds (b : Binder) (ls : List Leaf) (b' : Binder) : Prop :=
  (∀ l ∈ ls, ∀ d, b.dirReg.get? l.name = some d → (b'.table d).get? l.name = some (bindingOf l)) ∧
    ∀ d n, (b.dirReg.get? n = some d → ∀ l ∈ ls, l.name ≠ n) → (b'.table d).get? n = (b.table d).get? n

section

variable {b : Binder} {l : Leaf} {ls : List Leaf}

theorem Binder.Fresh.tail (h : b.Fresh (l :: ls)) : b.Fresh ls :=
  ⟨fun l' hl' => h.1 l' (List.mem_cons_of_mem _ hl'), (List.pairwise_cons.1 h.2).2⟩

/-- The leaves after a bound one are fresh still: their names are others. -/
theorem Binder.Fresh.bindLeaf (h : b.Fresh (l :: ls)) {d : Dir} (hd : b.dirReg.get? l.name = some d) :
    (b.bindLeaf d l).Fresh ls := by
  obtain ⟨hhead, htail⟩ := List.pairwise_cons.1 h.2
  refine ⟨fun l' hl' hknown => ?_, by simpa using htail⟩
  rw [Binder.bindLeaf_dirReg] at hknown
  have hne : l.name ≠ l'.name := hhead l' hl' (by simp [hd])
  have hunbound := Binder.bound_eq_false_iff.1 (h.1 l' (List.mem_cons_of_mem _ hl') hknown)
  exact Binder.bound_eq_false_iff.2 fun e => (Binder.get?_table_bindLeaf_of_ne b d e hne).trans (hunbound e)

/-- A leaf of an unknown name is passed over (43_binder.md R167). -/
theorem Binder.Binds.cons_of_unknown {b' : Binder} (h : b.Binds ls b') (hl : b.dirReg.get? l.name = none) :
    b.Binds (l :: ls) b' := by
  refine ⟨fun l' hl' d hd => ?_, fun d n hn => h.2 d n fun hd l' hl' => hn hd l' (List.mem_cons_of_mem _ hl')⟩
  obtain rfl | hl' := List.mem_cons.1 hl'
  · nomatch hl.symm.trans hd
  · exact h.1 l' hl' d hd

theorem Binder.Binds.cons_of_known {b' : Binder} {d : Dir} (h : (b.bindLeaf d l).Binds ls b')
    (hd : b.dirReg.get? l.name = some d) (hne : ∀ l' ∈ ls, l.name ≠ l'.name) : b.Binds (l :: ls) b' := by
  obtain ⟨hnew, hold⟩ := h
  simp only [Binder.bindLeaf_dirReg] at hnew hold
  refine ⟨fun l' hl' e he => ?_, fun e n hn => ?_⟩
  · obtain rfl | hl' := List.mem_cons.1 hl'
    · obtain rfl : d = e := Option.some.inj (hd.symm.trans he)
      rw [hold d _ fun _ l'' hl'' => (hne l'' hl'').symm, Binder.get?_table_bindLeaf, if_pos ⟨rfl, rfl⟩]
    · exact hnew l' hl' e he
  · rw [hold e n fun he l' hl' => hn he l' (List.mem_cons_of_mem _ hl'), Binder.get?_table_bindLeaf,
      if_neg fun ⟨hde, hln⟩ => hn (hln ▸ hde ▸ hd) l List.mem_cons_self hln]

/-- Fresh leaves meet no duplicate (43_binder.md R165, R167). -/
theorem registerLeaves_of_fresh (h : b.Fresh ls) : ∃ b', registerLeaves b ls = (b', none) ∧ b.Binds ls b' := by
  induction ls generalizing b with
  | nil => exact ⟨b, rfl, by simp [Binder.Binds]⟩
  | cons l ls ih =>
    cases hd : b.dirReg.get? l.name with
    | none =>
      obtain ⟨b', hr, hbinds⟩ := ih h.tail
      exact ⟨b', (registerLeaves_of_unknown hd ls).trans hr, hbinds.cons_of_unknown hd⟩
    | some d =>
      have hknown : b.dirReg.get? l.name ≠ none := by simp [hd]
      have hunbound : b.bound l.name = false := h.1 l List.mem_cons_self hknown
      obtain ⟨b', hr, hbinds⟩ := ih (h.bindLeaf hd)
      exact ⟨b', (registerLeaves_of_unbound hd hunbound ls).trans hr,
        hbinds.cons_of_known hd fun l' hl' => (List.pairwise_cons.1 h.2).1 l' hl' hknown⟩

/-- What was bound before fresh leaves were is bound as it was. -/
theorem Binder.Binds.get?_of_some {b' : Binder} (h : b.Binds ls b') (hfresh : b.Fresh ls) {d : Dir} {n : Text} {bd : Binding}
    (hn : (b.table d).get? n = some bd) : (b'.table d).get? n = some bd := by
  refine (h.2 d n fun hd l hl e => ?_).trans hn
  have hunbound := Binder.bound_eq_false_iff.1 (hfresh.1 l hl (by simp [e, hd])) d
  simp [e, hn] at hunbound

end

/-! ## The statements -/

/-- Settles O45: fresh leaves are all bound, and the mapping is read off the binder they leave. -/
theorem registerBindsKnownLeaves : Obligations.RegisterBindsKnownLeaves := by
  intro s ls hb hp hfresh
  obtain ⟨b, hr, hnew, hold⟩ := registerLeaves_of_fresh ((freshLeaves_iff s ls).1 hfresh)
  obtain ⟨hdir, hroute, hbuf⟩ := registerLeaves_keeps s.binder ls
  simp only [hr] at hdir hroute hbuf
  refine ⟨_, b.diag, execRegister_of_binds hb hp hr, rfl, rfl, fun l hl => hnew l hl .input, fun l hl => hnew l hl .output,
    hold .input, hold .output, fun n => ?_, hdir, hroute, hbuf, rfl, ⟨rfl, rfl, rfl⟩, rfl⟩
  rw [Binder.diag, FMap.get?_map (fun n _ => b.bound n), hdir]
  rfl

/-- Settles O46: the leaves before the duplicate are fresh and all bound; its name is bound among them or stays bound. -/
theorem registerStopsAtADuplicate : Obligations.RegisterStopsAtADuplicate := by
  intro s before after l hb hp hfresh hknown hdup
  have hfresh := (freshLeaves_iff s before).1 hfresh
  obtain ⟨b, hr, hbinds⟩ := registerLeaves_of_fresh hfresh
  obtain ⟨hdir, _, _⟩ := registerLeaves_keeps s.binder before
  simp only [hr] at hdir
  have hstays : ∀ d bd, (s.binder.table d).get? l.name = some bd → (b.table d).get? l.name = some bd :=
    fun _ _ => hbinds.get?_of_some hfresh
  have hkeepsBound : ∀ d, (s.binder.table d).get? l.name ≠ none → (b.table d).get? l.name ≠ none := fun d hd => by
    obtain ⟨bd, hbd⟩ := Option.ne_none_iff_exists'.1 hd
    simp [hstays d bd hbd]
  have hbound : b.bound l.name = true := by
    refine Binder.bound_eq_true_iff.2 ?_
    obtain hin | hout | ⟨l', hl', hname⟩ := hdup
    · exact ⟨.input, hkeepsBound .input hin⟩
    · exact ⟨.output, hkeepsBound .output hout⟩
    · obtain ⟨d, hd⟩ := Option.ne_none_iff_exists'.1 hknown
      have hnew := hbinds.1 l' hl' d (hname ▸ hd)
      rw [hname] at hnew
      exact ⟨d, by simp [hnew]⟩
  have hstop : registerLeaves s.binder (before ++ l :: after) = (b, some l.name) :=
    (registerLeaves_append hr _).trans (registerLeaves_of_bound (hdir ▸ hknown) hbound after)
  exact ⟨_, _, execRegister_of_duplicate hb hp hstop, execRegister_of_binds hb hp hr, rfl, rfl, rfl, hstays .input,
    hstays .output, rfl, ⟨rfl, rfl, rfl⟩, rfl⟩

end Sys2Proof.Machine
end

section
/-! XCHECK and ROUTE (43_binder.md R170, R185). -/

namespace Sys2Proof.Machine

open Sys2Proof Sys2Proof.Spec

theorem Binder.mem_unmapped (b : Binder) (n : Text) :
    n ∈ b.unmapped ↔ b.dirReg.get? n ≠ none ∧ b.inBind.get? n = none ∧ b.outBind.get? n = none := by
  have hkey : n ∈ b.dirReg.map Prod.fst ↔ b.dirReg.get? n ≠ none := by rw [ne_eq, FMap.get?_eq_none_iff, not_not]
  rw [Binder.unmapped, List.mem_filter, hkey]
  simp [Binder.bound]

/-- Settles O47: the reported names are filtered from the registry's keys, which rise in a safe state. -/
theorem xcheckReportsUnboundNames : Obligations.XcheckReportsUnboundNames := fun s hb =>
  ⟨s.binder.unmapped, if_pos hb, s.binder.mem_unmapped, fun h =>
    let ⟨hdir, _⟩ := h.binder
    (FMap.nodup_keys KeyOrder.text hdir).filter _⟩

/-- Settles O48. -/
theorem routeReturnsTheTable : Obligations.RouteReturnsTheTable := fun _ hb => if_pos hb

end Sys2Proof.Machine
end

section
/-! MAP_IN (43_binder.md R171 to R179, R184): the branches of its decision tree as equations, what `Apply` does with
views whose copies fit their fields and the memory, and the laws of the synchronisation buffer. -/

namespace Sys2Proof.Machine

open Sys2Proof Sys2Proof.Spec

/-! ## Views in the specification's words -/

/-- The machine's test on the width of the copies is the specification's. -/
theorem tooWide_eq_none_iff_narrow (b : FMap Text Binding) (v : View) : tooWide b v = none ↔ Narrow b v :=
  tooWide_eq_none_iff b v

theorem exists_tooWide_of_not_narrow {b : FMap Text Binding} {v : View} (h : ¬ Narrow b v) : ∃ n, tooWide b v = some n :=
  Option.ne_none_iff_exists'.1 fun hnone => h ((tooWide_eq_none_iff_narrow b v).1 hnone)

/-- The machine's test on the addresses of the copies is the specification's. -/
theorem outsideMemory_eq_none_iff_inMemory (c : Config) (b : FMap Text Binding) (v : View) :
    outsideMemory c (accessesOf b v) = none ↔ InMemory c b v := by
  simp only [outsideMemory_eq_none_iff, hasBytes_iff_specHasBytes]
  exact ⟨fun h addr n x hw => h ⟨addr, n, x⟩ ((writes_iff_mem_accessesOf ..).1 hw),
    fun h x hx => h x.addr x.count x.value ((writes_iff_mem_accessesOf ..).2 hx)⟩

theorem FrameEntry.view_eq_viewOf (f : FrameEntry) : f.view = viewOf f := rfl

theorem missesOf_eq_misses (b : FMap Text Binding) (v : View) : missesOf b v = misses b v := by
  simp [missesOf, misses, List.filter_map, Function.comp_def]

/-! ## `Apply` -/

section

variable {s : State} {vs : List View}

/-- `Apply` of views whose copies fit (43_binder.md R176, R177). -/
theorem applyViews_of_narrow (hnarrow : ∀ v ∈ vs, Narrow s.binder.inBind v)
    (hmem : ∀ v ∈ vs, InMemory s.cfg s.binder.inBind v) :
    applyViews s vs = .next { s with
      fieldMem := applyAccesses s.fieldMem (vs.flatMap (accessesOf s.binder.inBind))
      log := s.log ++ vs.flatMap (misses s.binder.inBind) } := by
  have hwide : vs.findSome? (tooWide s.binder.inBind) = none :=
    List.findSome?_eq_none_iff.2 fun v hv => (tooWide_eq_none_iff_narrow ..).2 (hnarrow v hv)
  have hinside : outsideMemory s.cfg (vs.flatMap (accessesOf s.binder.inBind)) = none := by
    refine (outsideMemory_eq_none_iff ..).2 fun x hx => ?_
    obtain ⟨v, hv, hx⟩ := List.mem_flatMap.1 hx
    exact (outsideMemory_eq_none_iff ..).1 ((outsideMemory_eq_none_iff_inMemory ..).2 (hmem v hv)) x hx
  rw [applyViews_of_fits hwide hinside, funext (missesOf_eq_misses s.binder.inBind)]

theorem applyThenEnd_of_narrow (hnarrow : ∀ v ∈ vs, Narrow s.binder.inBind v)
    (hmem : ∀ v ∈ vs, InMemory s.cfg s.binder.inBind v) (buf : SyncBuf) (o : MapOutcome) :
    applyThenEnd s vs buf o = .next (State.endMapIn { s with
      fieldMem := applyAccesses s.fieldMem (vs.flatMap (accessesOf s.binder.inBind))
      log := s.log ++ vs.flatMap (misses s.binder.inBind) } buf o) := by
  rw [applyThenEnd, applyViews_of_narrow hnarrow hmem]

/-- A copy wider than its field stops `Apply` before anything is written (43_binder.md R179; log 20). -/
theorem applyThenEnd_of_wide {v : View} (hv : v ∈ vs) (h : ¬ Narrow s.binder.inBind v) (buf : SyncBuf) (o : MapOutcome) :
    ∃ n, applyThenEnd s vs buf o = .refused (.fieldTooNarrow n) := by
  cases hfirst : vs.findSome? (tooWide s.binder.inBind) with
  | none => exact absurd ((tooWide_eq_none_iff_narrow ..).1 (List.findSome?_eq_none_iff.1 hfirst v hv)) h
  | some n => exact ⟨n, by simp only [applyThenEnd, applyViews, hfirst]⟩

end

/-! ## The decision tree (43_binder.md R172) -/

section

variable {s : State} {h : Handle} {f : FrameEntry} (hb : s.cfg.bind = true) (hf : s.frame? h = some f)
include hb hf

theorem exec_mapIn_of_no_partner (hp : f.syncPartner = none) :
    exec (.mapIn h) s = applyThenEnd s.enterRun [viewOf f] s.binder.syncBuf .applied := by
  refine (execMapIn_of_frame hb hf).trans ?_
  simp only [mapInFrame, hp, FrameEntry.view_eq_viewOf, State.enterRun_binder]

theorem exec_mapIn_of_empty {p : Text} (hp : f.syncPartner = some p) (hbuf : s.binder.syncBuf = .empty) :
    exec (.mapIn h) s = .next (s.enterRun.endMapIn (.full f.snapshot) .buffered) := by
  refine (execMapIn_of_frame hb hf).trans ?_
  simp only [mapInFrame, hp, State.enterRun_binder, hbuf]

theorem exec_mapIn_of_pair {b : Snapshot} (hp : f.syncPartner = some b.name) (hbuf : s.binder.syncBuf = .full b) :
    exec (.mapIn h) s = applyThenEnd s.enterRun [b.view, viewOf f] .empty .appliedPair := by
  refine (execMapIn_of_frame hb hf).trans ?_
  simp only [mapInFrame, hp, State.enterRun_binder, hbuf, if_true, FrameEntry.view_eq_viewOf]

theorem exec_mapIn_of_duplicate {p : Text} {b : Snapshot} (hp : f.syncPartner = some p) (hbuf : s.binder.syncBuf = .full b)
    (hpartner : b.name ≠ p) (hname : b.name = f.name) :
    exec (.mapIn h) s = .next (s.enterRun.endMapIn (.full b) .duplicateDiscarded) := by
  refine (execMapIn_of_frame hb hf).trans ?_
  simp only [mapInFrame, hp, State.enterRun_binder, hbuf, if_neg hpartner, if_pos hname]

theorem exec_mapIn_of_unrelated {p : Text} {b : Snapshot} (hp : f.syncPartner = some p) (hbuf : s.binder.syncBuf = .full b)
    (hpartner : b.name ≠ p) (hname : b.name ≠ f.name) :
    exec (.mapIn h) s = .next (s.enterRun.endMapIn (.full f.snapshot) .replaced) := by
  refine (execMapIn_of_frame hb hf).trans ?_
  simp only [mapInFrame, hp, State.enterRun_binder, hbuf, if_neg hpartner, if_neg hname]

end

/-- The copy that stands in the buffer (43_binder.md R171). -/
theorem snapshot_of_partner {f : FrameEntry} {p : Text} (hp : f.syncPartner = some p) :
    f.snapshot = ⟨f.name, some p, viewOf f⟩ := by
  rw [← hp]
  rfl

/-! ## The branches that write no field -/

/-- Settles O50. -/
theorem mapInBuffers : Obligations.MapInBuffers := by
  intro s h f p hb hf hp hbuf
  rw [exec_mapIn_of_empty hb hf hp hbuf, snapshot_of_partner hp]
  rfl

/-- Settles O52: the buffer is put back as it was. -/
theorem mapInDiscardsADuplicate : Obligations.MapInDiscardsADuplicate := by
  intro s h f p b hb hf hp hbuf hpartner hname
  rw [exec_mapIn_of_duplicate hb hf hp hbuf hpartner hname, ← hbuf]
  rfl

/-- Settles O53. -/
theorem mapInReplaces : Obligations.MapInReplaces := by
  intro s h f p b hb hf hp hbuf hpartner hname
  rw [exec_mapIn_of_unrelated hb hf hp hbuf hpartner hname, snapshot_of_partner hp]
  rfl

/-- Settles O56: each arrival finds the frame before it in the slot, which is neither its partner nor itself. -/
theorem oneSlotLosesInterleavedPairs : Obligations.OneSlotLosesInterleavedPairs := by
  intro s ha hb hc hd a b c d hbind hempty hfa hfb hfc hfd hnames hpa hpb hpc hpd
  simp only [List.nodup_cons, List.mem_cons, List.not_mem_nil, or_false, not_or] at hnames
  obtain ⟨⟨hab, hac, had⟩, ⟨hbc, hbd⟩, hcd, _⟩ := hnames
  exact ⟨_, _, _, _, mapInBuffers s ha a _ hbind hfa hpa hempty,
    mapInReplaces _ hc c _ _ hbind hfc hpc rfl had hac,
    mapInReplaces _ hb b _ _ hbind hfb hpb rfl (Ne.symm hac) (Ne.symm hbc),
    mapInReplaces _ hd d _ _ hbind hfd hpd rfl hbc hbd, rfl, rfl, rfl, rfl, rfl, rfl⟩

/-! ## The branches that apply -/

/-- Settles O49. -/
theorem mapInApplies : Obligations.MapInApplies := by
  intro s h f hinv hb hf hp hnarrow hmem
  refine ⟨_, (exec_mapIn_of_no_partner hb hf hp).trans
    (applyThenEnd_of_narrow (by simpa using hnarrow) (by simpa using hmem) _ _), rfl, by simp, rfl, ⟨rfl, rfl, rfl⟩, rfl, ?_⟩
  simp only [State.endMapIn_fieldMem, List.flatMap_singleton, State.enterRun_binder, State.enterRun_fieldMem]
  exact ⟨fun a ha => read_applyAccesses_of_spares ha _, writtenApart_applyAccesses hinv.fieldMem.1 _ _⟩

/-- Settles O51: the buffered view is applied first, and the memory it leaves is the witness. -/
theorem mapInAppliesThePair : Obligations.MapInAppliesThePair := by
  intro s h f b hinv hb hf hbuf hp hnarrow hnarrow' hmem hmem'
  have hwf : Memory.wf s.fieldMem := hinv.fieldMem.1
  refine ⟨_, (exec_mapIn_of_pair hb hf hp hbuf).trans
    (applyThenEnd_of_narrow (by simpa using ⟨hnarrow, hnarrow'⟩) (by simpa using ⟨hmem, hmem'⟩) _ _), rfl, by simp, rfl,
    ⟨rfl, rfl, rfl⟩, rfl, ?_⟩
  simp only [State.endMapIn_fieldMem, List.flatMap_cons, List.flatMap_nil, List.append_nil, applyAccesses_append,
    State.enterRun_binder, State.enterRun_fieldMem]
  exact ⟨fun a ha ha' => (read_applyAccesses_of_spares ha' _).trans (read_applyAccesses_of_spares ha _),
    writtenApart_applyAccesses (applyAccesses_wf hwf _) _ _,
    _, writtenApart_applyAccesses hwf _ _, fun a ha => read_applyAccesses_of_spares ha _⟩

/-- Settles O55: the buffered copy is what the duplicate leaves and what A's arrival applies; O51 says the third step. -/
theorem syncPairing : Obligations.SyncPairing := by
  intro s ha hb a b hinv hbind hfa hfb hne hpa hpb hempty hnarrowA hnarrowB hmemA hmemB
  have h1 := exec_mapIn_of_empty hbind hfb hpb hempty
  have h2 := exec_mapIn_of_duplicate (s := s.enterRun.endMapIn (.full b.snapshot) .buffered) hbind hfb hpb rfl hne.symm rfl
  obtain ⟨t, h3, hresult, _, hbinder, _, _, hspared, hapart, hbuffered⟩ :=
    mapInAppliesThePair _ ha a b.snapshot ((hinv.exec h1).exec h2) hbind hfa rfl hpa hnarrowB hnarrowA hmemB hmemA
  exact ⟨_, _, t, h1, h2, h3, rfl, rfl, rfl, rfl, rfl, hresult, by rw [hbinder], hapart, hbuffered,
    fun x hxa hxb => hspared x hxb hxa⟩

/-! ## Refusals -/

theorem execMapOut_of_wide {h : Handle} {s : State} {f : FrameEntry} {n : Text} (hb : s.cfg.bind = true)
    (hf : s.frame? h = some f) (hwide : tooWide s.binder.outBind f.view = some n) :
    execMapOut h s = .refused (.fieldTooNarrow n) := by
  unfold execMapOut mapOutFrame
  simp only [hb, hf, if_true, State.enterRun_binder, hwide]

/-- Settles O54: MAP_IN applies the view alone or as one of two, MAP_OUT tests it itself. -/
theorem wideCopiesAreRefused : Obligations.WideCopiesAreRefused := by
  refine fun s h f hb hf => ⟨fun hp hwide => ?_, fun b hbuf hp hwide => ?_, fun hwide => ?_⟩
  · rw [exec_mapIn_of_no_partner hb hf hp]
    exact applyThenEnd_of_wide (s := s.enterRun) List.mem_cons_self hwide _ _
  · rw [exec_mapIn_of_pair hb hf hp hbuf]
    by_cases hbuffered : Narrow s.binder.inBind b.view
    · exact applyThenEnd_of_wide (s := s.enterRun) (v := viewOf f) (by simp)
        (fun harriving => hwide ⟨hbuffered, harriving⟩) _ _
    · exact applyThenEnd_of_wide (s := s.enterRun) (v := b.view) (by simp) hbuffered _ _
  · obtain ⟨n, hn⟩ := exists_tooWide_of_not_narrow hwide
    exact ⟨n, execMapOut_of_wide hb hf hn⟩

end Sys2Proof.Machine
end

section
/-! MAP_OUT (43_binder.md R180 to R183) in the specification's numbers. -/

namespace Sys2Proof.Machine

open Sys2Proof Sys2Proof.Spec

/-- A bound analog register becomes the number in the field's bytes, as nothing stands above them (43_binder.md R181). -/
theorem replaceLow_memRead {g : AnalogSig} (hg : g.wf) (m : Memory) (addr : Nat) :
    replaceLow g.value (ceil8 g.size) (memRead m addr (ceil8 g.size)) =
      BitVec.ofNat 64 (bytesNat m addr ((g.size + 7) / 8)) := by
  obtain ⟨_, hend, hvalue⟩ := hg
  have hnumber := memRead_toNat m addr (ceil8_le g.size (by omega))
  rw [replaceLow_of_lt _ _ _ hvalue, ← ceil8, ← hnumber, BitVec.ofNat_toNat, BitVec.setWidth_eq]

/-- A bound digital register becomes whether the field's first byte is not zero (43_binder.md R180). -/
theorem memRead_one_ne_zero_iff (m : Memory) (addr : Nat) : memRead m addr 1 ≠ 0 ↔ m.read addr ≠ (0 : Byte) := by
  rw [ne_eq, ne_eq, ← BitVec.toNat_inj, ← BitVec.toNat_inj, memRead_toNat m addr (by omega)]
  simp [bytesNat]

/-- MAP_OUT's entry of a loaded frame, in the specification's numbers. -/
theorem FrameEntry.loadedFrom_of_wf {c : Config} {f : FrameEntry} (hf : f.wf c) (b : FMap Text Binding) (m : Memory) :
    f.loadedFrom b m = { f with
      an := f.an.map (fun g => match b.get? g.name with
        | some bd => { g with value := BitVec.ofNat 64 (bytesNat m bd.addr ((g.size + 7) / 8)) }
        | none => g),
      dg := f.dg.map (fun g => match b.get? g.name with
        | some bd => { g with value := decide (m.read bd.addr ≠ (0 : Byte)) }
        | none => g) } := by
  obtain ⟨han, _⟩ := hf
  unfold FrameEntry.loadedFrom
  congr 1
  · refine List.map_congr_left fun g hg => ?_
    cases b.get? g.name with
    | none => rfl
    | some bd => simp only [replaceLow_memRead (han g hg)]
  · refine List.map_congr_left fun g _ => ?_
    cases b.get? g.name with
    | none => rfl
    | some bd => simp only [memRead_one_ne_zero_iff]

/-- An entry put in place leaves every initialisation list. -/
theorem keepsInitLists_setFrame (s : State) (h : Handle) (f : FrameEntry) : KeepsInitLists s (s.setFrame h f) := by
  intro bus
  rw [State.codec?_setFrame]
  cases s.codec? bus with
  | none => rfl
  | some c =>
    simp only [Option.map_some]
    split
    · rw [Codec.setFrame_initList]
    · rfl

/-- Settles O57: a safe state's entry is well-formed, so `FrameEntry.loadedFrom_of_wf` gives the entry put in place. -/
theorem mapOutLoadsTheRegisters : Obligations.MapOutLoadsTheRegisters := by
  intro s h f hinv hb hf hnarrow hmem
  refine ⟨_, execMapOut_of_fits hb hf ((tooWide_eq_none_iff_narrow ..).2 hnarrow)
    ((outsideMemory_eq_none_iff_inMemory ..).2 hmem), rfl, ?_, ?_, fun j hj => ?_, ?_, ?_, ?_⟩
  · simp [missesOf_eq_misses, FrameEntry.view_eq_viewOf]
  · exact (State.frame?_setFrame_self (s := s.enterRun) hf _).trans
      (congrArg some (FrameEntry.loadedFrom_of_wf (hinv.frame hf) _ _))
  · exact State.frame?_setFrame_of_ne s.enterRun _ hj.symm
  · exact keepsInitLists_setFrame s.enterRun h _
  · simp [KeepsBinder]
  · simp

end Sys2Proof.Machine
end

section
/-! What every operation keeps and where it ends (60_exceptions.md R193, R204; 00_scope.md R10): the log only grows, the
parameters stay, the phase is the run phase after a run operation, and REGISTER alone binds. -/

namespace Sys2Proof.Machine

open Sys2Proof Sys2Proof.Spec

/-! ## One walk over the twelve operations -/

/-- What an operation that completes from `s` in `t` does to the parameters, the log, the phase and the binding tables. -/
structure Completes (i : Instr) (s t : State) : Prop where
  cfg : t.cfg = s.cfg
  log : ∃ rs, t.log = s.log ++ rs
  phase : t.phase = if isRunOp i then .run else s.phase
  bindings : (∀ ls, i ≠ .register ls) → t.binder.inBind = s.binder.inBind ∧ t.binder.outBind = s.binder.outBind

/-- A log that stays as it is has no event appended. -/
theorem exists_append_of_eq {α : Type} {l l' : List α} (h : l' = l) : ∃ rs, l' = l ++ rs :=
  ⟨[], by rw [h, List.append_nil]⟩

theorem mapInFrame_log {f : FrameEntry} {s t : State} (h : mapInFrame f s = .next t) : ∃ rs, t.log = s.log ++ rs := by
  obtain ⟨_, u, hu, rfl⟩ | ⟨p, _, ⟨_, rfl⟩ | ⟨b, _, ⟨_, u, hu, rfl⟩ | ⟨_, _, rfl⟩ | ⟨_, _, rfl⟩⟩⟩ := mapInFrame_next h
  · obtain ⟨_, _, rfl⟩ := applyViews_next hu
    exact ⟨_, rfl⟩
  · exact exists_append_of_eq rfl
  · obtain ⟨_, _, rfl⟩ := applyViews_next hu
    exact ⟨_, rfl⟩
  · exact exists_append_of_eq rfl
  · exact exists_append_of_eq rfl

theorem exec_completes {i : Instr} {s t : State} (ht : exec i s = .next t) : Completes i s t := by
  cases i with
  | load bus src =>
    obtain ⟨_, c, c', rs, _, _, _, rfl⟩ := execLoad_next ht
    exact ⟨rfl, ⟨_, rfl⟩, rfl, fun _ => ⟨rfl, rfl⟩⟩
  | loadInit bus src =>
    obtain ⟨_, c, _, _, rfl⟩ := execLoadInit_next ht
    exact ⟨rfl, exists_append_of_eq rfl, rfl, fun _ => ⟨rfl, rfl⟩⟩
  | initFrames bus =>
    obtain ⟨c, _, rfl⟩ := execInitFrames_next ht
    exact ⟨rfl, exists_append_of_eq rfl, rfl, fun _ => ⟨rfl, rfl⟩⟩
  | decode bus raw =>
    obtain ⟨c, _, _, ⟨_, rfl⟩ | ⟨f, _, rfl⟩⟩ := execDecode_next ht
    · exact ⟨rfl, ⟨_, rfl⟩, rfl, fun _ => ⟨rfl, rfl⟩⟩
    · exact ⟨rfl, exists_append_of_eq rfl, rfl, fun _ => ⟨rfl, rfl⟩⟩
  | getTx bus n =>
    obtain ⟨_, c, _, ⟨_, rfl⟩ | ⟨f, _, rfl⟩⟩ := execGetTx_next ht
    · exact ⟨rfl, ⟨_, rfl⟩, rfl, fun _ => ⟨rfl, rfl⟩⟩
    · exact ⟨rfl, exists_append_of_eq rfl, rfl, fun _ => ⟨rfl, rfl⟩⟩
  | encode bus n =>
    obtain ⟨_, c, _, ⟨_, rfl⟩ | ⟨f, _, rfl⟩⟩ := execEncode_next ht
    · exact ⟨rfl, ⟨_, rfl⟩, rfl, fun _ => ⟨rfl, rfl⟩⟩
    · exact ⟨rfl, exists_append_of_eq rfl, rfl, fun _ => ⟨rfl, rfl⟩⟩
  | bload srcs =>
    obtain ⟨_, _, b, hb, rfl⟩ := execBload_next ht
    obtain ⟨hin, hout, _⟩ := recordSources_keeps hb
    exact ⟨rfl, exists_append_of_eq rfl, rfl, fun _ => ⟨hin, hout⟩⟩
  | register ls =>
    obtain ⟨_, _, b, ⟨_, rfl⟩ | ⟨n, _, rfl⟩⟩ := execRegister_next ht
    · exact ⟨rfl, exists_append_of_eq rfl, rfl, fun hi => absurd rfl (hi ls)⟩
    · exact ⟨rfl, ⟨_, rfl⟩, rfl, fun hi => absurd rfl (hi ls)⟩
  | xcheck =>
    obtain ⟨_, rfl⟩ := execXcheck_next ht
    exact ⟨rfl, ⟨_, rfl⟩, rfl, fun _ => ⟨rfl, rfl⟩⟩
  | mapIn hd =>
    obtain ⟨_, f, _, hmap⟩ := execMapIn_next ht
    obtain ⟨hlayout, hphase⟩ := layout_mapInFrame hmap
    exact ⟨congrArg Layout.cfg hlayout, mapInFrame_log (s := s.enterRun) hmap, hphase,
      fun _ => ⟨congrArg Layout.inBind hlayout, congrArg Layout.outBind hlayout⟩⟩
  | mapOut hd =>
    obtain ⟨_, f, _, _, _, rfl⟩ := execMapOut_next ht
    exact ⟨by simp, ⟨missesOf s.binder.outBind f.view, by simp⟩, by simp [isRunOp], fun _ => by simp⟩
  | route =>
    obtain ⟨_, rfl⟩ := execRoute_next ht
    exact ⟨rfl, exists_append_of_eq rfl, rfl, fun _ => ⟨rfl, rfl⟩⟩

/-! ## The log, the parameters and the phase -/

/-- Settles O13, by the three things a step can do; the operations are `exec_completes`. -/
theorem logOnlyGrows : Obligations.LogOnlyGrows := by
  intro s t ht
  obtain ⟨_, rfl⟩ | ⟨c, i, rest, _, _, ht⟩ | ⟨addr, bytes, rest, _, _, rfl⟩ := step_next ht
  · exact ⟨exists_append_of_eq rfl, rfl⟩
  · have h := exec_completes ht
    exact ⟨h.log, h.cfg⟩
  · exact ⟨exists_append_of_eq rfl, rfl⟩

theorem execBload_of_run {srcs : List (Int × List RouteDesc)} {s : State} (hb : s.cfg.bind = true) (hp : s.phase = .run) :
    execBload srcs s = .refused .runPhase :=
  (if_pos hb).trans (if_pos hp)

theorem execRegister_of_run {ls : List Leaf} {s : State} (hb : s.cfg.bind = true) (hp : s.phase = .run) :
    execRegister ls s = .refused .runPhase :=
  (if_pos hb).trans (if_pos hp)

/-- A load operation in the run phase is refused, one of the binder's also where there is no binder. -/
theorem exec_refused_of_run {i : Instr} {s : State} (hi : isLoadOp i = true) (hp : s.phase = .run) :
    ∃ why, exec i s = .refused why := by
  cases i with
  | load bus src => exact ⟨_, if_pos hp⟩
  | loadInit bus src => exact ⟨_, if_pos hp⟩
  | bload srcs =>
    cases hb : s.cfg.bind with
    | false => exact ⟨_, exec_of_bind_absent hb (by simp [encode])⟩
    | true => exact ⟨_, execBload_of_run hb hp⟩
  | register ls =>
    cases hb : s.cfg.bind with
    | false => exact ⟨_, exec_of_bind_absent hb (by simp [encode])⟩
    | true => exact ⟨_, execRegister_of_run hb hp⟩
  | _ => cases hi

/-- Settles O15. -/
theorem phaseRules : Obligations.PhaseRules :=
  ⟨fun _ _ => rfl, fun _ _ => exec_refused_of_run, fun _ _ _ ht => (exec_completes ht).phase⟩

end Sys2Proof.Machine
end

section
/-! Codecs share no state (60_exceptions.md R208): a codec operation writes its own codec only, and reads no other. -/

namespace Sys2Proof.Machine

open Sys2Proof Sys2Proof.Spec

/-- A codec put in place of another leaves the binder's state and every other codec. -/
theorem keepsBinder_setCodec (s : State) (bus : Int) (c : Codec) :
    KeepsBinder s (s.setCodec bus c) ∧ ∀ b, b ≠ bus → (s.setCodec bus c).codec? b = s.codec? b :=
  ⟨⟨rfl, rfl, rfl, rfl⟩, fun _ hb => State.codec?_setCodec_of_ne s c hb.symm⟩

/-- Settles O16: LOAD, LOAD_INIT and DECODE of a known identifier put their codec in place, the others put none; events, results
and the phase are no part of what the statement speaks of. -/
theorem codecOperationsStayInTheirCodec : Obligations.CodecOperationsStayInTheirCodec := by
  intro i bus s t hi ht
  cases i with
  | load b src =>
    cases hi
    obtain ⟨_, c, c', rs, _, _, _, rfl⟩ := execLoad_next ht
    exact keepsBinder_setCodec s bus c'
  | loadInit b src =>
    cases hi
    obtain ⟨_, c, _, _, rfl⟩ := execLoadInit_next ht
    exact keepsBinder_setCodec s bus _
  | initFrames b =>
    obtain ⟨c, _, rfl⟩ := execInitFrames_next ht
    exact ⟨⟨rfl, rfl, rfl, rfl⟩, fun _ _ => rfl⟩
  | decode b raw =>
    cases hi
    obtain ⟨c, _, _, ⟨_, rfl⟩ | ⟨f, _, rfl⟩⟩ := execDecode_next ht
    · exact ⟨⟨rfl, rfl, rfl, rfl⟩, fun _ _ => rfl⟩
    · exact keepsBinder_setCodec s bus _
  | getTx b n =>
    obtain ⟨_, c, _, ⟨_, rfl⟩ | ⟨f, _, rfl⟩⟩ := execGetTx_next ht <;>
      exact ⟨⟨rfl, rfl, rfl, rfl⟩, fun _ _ => rfl⟩
  | encode b n =>
    obtain ⟨_, c, _, ⟨_, rfl⟩ | ⟨f, _, rfl⟩⟩ := execEncode_next ht <;>
      exact ⟨⟨rfl, rfl, rfl, rfl⟩, fun _ _ => rfl⟩
  | _ => cases hi

end Sys2Proof.Machine
end

section
/-! What a codec operation reads (60_exceptions.md R208): the parameters, the phase and its own codec. -/

namespace Sys2Proof.Machine

open Sys2Proof Sys2Proof.Spec

/-- Two states are alike for the codec of a bus: the same parameters, the same phase, the same codec. -/
structure AlikeAt (bus : Int) (s s' : State) : Prop where
  cfg : s'.cfg = s.cfg
  phase : s'.phase = s.phase
  codec : s'.codec? bus = s.codec? bus

section

variable {bus : Int} {s s' : State}

theorem AlikeAt.setCodec (h : AlikeAt bus s s') (c : Codec) : AlikeAt bus (s.setCodec bus c) (s'.setCodec bus c) :=
  ⟨h.cfg, h.phase, (State.codec?_setCodec_self s' bus c).trans (State.codec?_setCodec_self s bus c).symm⟩

theorem AlikeAt.enterRun (h : AlikeAt bus s s') : AlikeAt bus s.enterRun s'.enterRun := ⟨h.cfg, rfl, h.codec⟩

/-- What was logged and what was delivered is no part of it. -/
theorem AlikeAt.record (h : AlikeAt bus s s') (rs rs' : List Report) : AlikeAt bus (s.record rs) (s'.record rs') :=
  ⟨h.cfg, h.phase, h.codec⟩

theorem AlikeAt.deliver (h : AlikeAt bus s s') (r r' : OpResult) : AlikeAt bus (s.deliver r) (s'.deliver r') :=
  ⟨h.cfg, h.phase, h.codec⟩

theorem AlikeAt.raise (h : AlikeAt bus s s') (r r' : Report) : AlikeAt bus (s.raise r) (s'.raise r') :=
  (h.record [r] [r']).deliver (.error r) (.error r')

/-- An operation of the codec that completes in one completes in the other, with the same result, and the two are alike
after it. -/
theorem AlikeAt.exec (h : AlikeAt bus s s') {i : Instr} (hi : codecOf i = some bus) {t : State} (ht : exec i s = .next t) :
    ∃ t', exec i s' = .next t' ∧ t'.result = t.result ∧ AlikeAt bus t t' := by
  cases i with
  | load b src =>
    cases hi
    obtain ⟨hp, c, c', rs, hc, hwf, hl, rfl⟩ := execLoad_next ht
    exact ⟨_, execLoad_of_loads (h.phase.trans hp) (h.codec.trans hc) (h.cfg ▸ hwf) hl, rfl,
      ((h.setCodec c').record _ _).deliver _ _⟩
  | loadInit b src =>
    cases hi
    obtain ⟨hp, c, hc, hwf, rfl⟩ := execLoadInit_next ht
    exact ⟨_, execLoadInit_of_wf (h.phase.trans hp) (h.codec.trans hc) (h.cfg ▸ hwf), rfl, (h.setCodec _).deliver _ _⟩
  | initFrames b =>
    cases hi
    obtain ⟨c, hc, rfl⟩ := execInitFrames_next ht
    exact ⟨_, initFramesReturnsTheList s' bus c (h.codec.trans hc), rfl, h.deliver _ _⟩
  | decode b raw =>
    cases hi
    obtain ⟨c, hc, hid, hcase⟩ := execDecode_next ht
    have hc' := h.codec.trans hc
    obtain ⟨hf, rfl⟩ | ⟨f, hf, rfl⟩ := hcase
    · exact ⟨_, execDecode_of_unknown hc' (h.cfg ▸ hid) ((State.frame?_of_codec hc' _).trans hf), rfl, h.enterRun.raise _ _⟩
    · exact ⟨_, execDecode_of_known hc' (h.cfg ▸ hid) hf, rfl, (h.enterRun.setCodec _).deliver _ _⟩
  | getTx b n =>
    cases hi
    obtain ⟨hser, c, hc, hcase⟩ := execGetTx_next ht
    have hc' := h.codec.trans hc
    obtain ⟨hf, rfl⟩ | ⟨f, hf, rfl⟩ := hcase
    · exact ⟨_, execGetTx_of_unknown (h.cfg ▸ hser) hc' ((State.frame?_of_codec hc' _).trans hf), rfl, h.enterRun.raise _ _⟩
    · exact ⟨_, execGetTx_of_frame (h.cfg ▸ hser) ((State.frame?_of_codec hc' _).trans hf), rfl, h.enterRun.deliver _ _⟩
  | encode b n =>
    cases hi
    obtain ⟨hser, c, hc, hcase⟩ := execEncode_next ht
    have hc' := h.codec.trans hc
    obtain ⟨hf, rfl⟩ | ⟨f, hf, rfl⟩ := hcase
    · exact ⟨_, execEncode_of_unknown (h.cfg ▸ hser) hc' ((State.frame?_of_codec hc' _).trans hf), rfl, h.enterRun.raise _ _⟩
    · exact ⟨_, execEncode_of_known (h.cfg ▸ hser) hc' hf, by simp [h.cfg], h.enterRun.deliver _ _⟩
  | _ => cases hi

end

/-- Settles O17. -/
theorem codecOperationsSeeTheirCodecOnly : Obligations.CodecOperationsSeeTheirCodecOnly := by
  intro i bus s s' t hi hcfg hphase hcodec ht
  obtain ⟨t', ht', hresult, halike⟩ := AlikeAt.exec ⟨hcfg, hphase, hcodec⟩ hi ht
  exact ⟨t', ht', hresult, halike.codec, halike.phase⟩

end Sys2Proof.Machine
end

section
/-! Which operations fault, and where (60_exceptions.md R198, R200; 43_binder.md R176, R180; log 13): a copy of MAP_IN or
MAP_OUT that leaves the field memory, which no copy does while every bound field lies in it. -/

namespace Sys2Proof.Machine

open Sys2Proof Sys2Proof.Spec

/-! ## Copies that leave the memory -/

theorem leavesMemory_of_mem {c : Config} {b : FMap Text Binding} {v : View} {a : FieldAccess} (ha : a ∈ accessesOf b v)
    (hout : c.hasBytes a.addr a.count = false) : LeavesMemory c b v (.noSuchFieldAddress a.addr) := by
  refine ⟨a.addr, a.count, a.value, (writes_iff_mem_accessesOf ..).2 ha, ?_, rfl⟩
  rw [← hasBytes_iff_specHasBytes, hout]
  exact Bool.false_ne_true

/-- A copy within its field stays in the memory where the fields do. -/
theorem not_leavesMemory_of_narrow {c : Config} {b : FMap Text Binding} {v : View} {r : Fault}
    (hfields : ∀ n bd, b.get? n = some bd → bd.bytes = bd.kind.bytes ∧ HasBytes c bd.addr bd.bytes) (hnarrow : Narrow b v) :
    ¬ LeavesMemory c b v r := by
  have hinside : InMemory c b v := (outsideMemory_eq_none_iff_inMemory ..).1
    (accesses_inside (fun n bd hn => ⟨(hfields n bd hn).1, (hasBytes_iff_specHasBytes ..).2 (hfields n bd hn).2⟩)
      ((tooWide_eq_none_iff_narrow ..).2 hnarrow))
  rintro ⟨addr, n, x, hw, hout, _⟩
  exact hout (hinside addr n x hw)

theorem exists_outsideMemory_of_not_inMemory {c : Config} {b : FMap Text Binding} {v : View} {as : List FieldAccess}
    (has : accessesOf b v ⊆ as) (h : ¬ InMemory c b v) : ∃ a, outsideMemory c as = some a := by
  refine Option.ne_none_iff_exists'.1 fun hnone => h ((outsideMemory_eq_none_iff_inMemory ..).1 ?_)
  exact (outsideMemory_eq_none_iff ..).2 fun x hx => (outsideMemory_eq_none_iff ..).1 hnone x (has hx)

/-! ## `Apply` and the operations that copy -/

section

variable {s : State} {vs : List View}

/-- `Apply` tests the widths of all copies before the first address (log 20). -/
theorem applyViews_fault_leaves {r : Fault} (h : applyViews s vs = .fault r) :
    ∃ v ∈ vs, Narrow s.binder.inBind v ∧ LeavesMemory s.cfg s.binder.inBind v r := by
  obtain ⟨a, ha, hout, rfl⟩ := applyViews_fault h
  obtain ⟨v, hv, ha⟩ := List.mem_flatMap.1 ha
  refine ⟨v, hv, by_contra fun hwide => ?_, leavesMemory_of_mem ha hout⟩
  obtain ⟨n, hn⟩ := applyThenEnd_of_wide hv hwide s.binder.syncBuf .applied
  nomatch hn.symm.trans (applyThenEnd_fault.2 h)

theorem applyThenEnd_fault_of_not_inMemory (hnarrow : ∀ v ∈ vs, Narrow s.binder.inBind v) {v : View} (hv : v ∈ vs)
    (hout : ¬ InMemory s.cfg s.binder.inBind v) (buf : SyncBuf) (o : MapOutcome) :
    ∃ addr, applyThenEnd s vs buf o = .fault (.noSuchFieldAddress addr) := by
  obtain ⟨a, ha⟩ := exists_outsideMemory_of_not_inMemory (fun _ ha => List.mem_flatMap.2 ⟨v, hv, ha⟩) hout
  have hwide : vs.findSome? (tooWide s.binder.inBind) = none :=
    List.findSome?_eq_none_iff.2 fun v hv => (tooWide_eq_none_iff_narrow ..).2 (hnarrow v hv)
  exact ⟨a.addr, applyThenEnd_fault.2 (applyViews_of_outside hwide ha)⟩

end

section

variable {s : State} {h : Handle} {r : Fault}

/-- MAP_IN faults on a copy of the frame or, for a pair, of the buffered one. -/
theorem exec_mapIn_fault (he : exec (.mapIn h) s = .fault r) :
    ∃ f, s.frame? h = some f ∧
      ∃ v, (v = viewOf f ∨ ∃ b, s.binder.syncBuf = .full b ∧ f.syncPartner = some b.name ∧ v = b.view) ∧
        Narrow s.binder.inBind v ∧ LeavesMemory s.cfg s.binder.inBind v r := by
  obtain ⟨_, f, hf, ⟨_, happly⟩ | ⟨b, hbuf, hp, happly⟩⟩ := execMapIn_fault he
  · obtain ⟨v, hv, hfault⟩ := applyViews_fault_leaves happly
    exact ⟨f, hf, v, .inl (List.mem_singleton.1 hv), hfault⟩
  · obtain ⟨v, hv, hfault⟩ := applyViews_fault_leaves happly
    refine ⟨f, hf, v, ?_, hfault⟩
    obtain rfl | hv := List.mem_cons.1 hv
    · exact .inr ⟨b, hbuf, hp, rfl⟩
    · exact .inl (List.mem_singleton.1 hv)

/-- MAP_OUT faults on a copy of its frame. -/
theorem exec_mapOut_fault (he : exec (.mapOut h) s = .fault r) :
    ∃ f, s.frame? h = some f ∧ Narrow s.binder.outBind (viewOf f) ∧ LeavesMemory s.cfg s.binder.outBind (viewOf f) r := by
  obtain ⟨hb, f, hf, a, ha, hout, rfl⟩ := execMapOut_fault he
  refine ⟨f, hf, by_contra fun hwide => ?_, leavesMemory_of_mem ha hout⟩
  obtain ⟨n, hn⟩ := exists_tooWide_of_not_narrow hwide
  nomatch (execMapOut_of_wide hb hf hn).symm.trans he

theorem exec_mapOut_fault_of_not_inMemory {f : FrameEntry} (hb : s.cfg.bind = true) (hf : s.frame? h = some f)
    (hnarrow : Narrow s.binder.outBind (viewOf f)) (hout : ¬ InMemory s.cfg s.binder.outBind (viewOf f)) :
    ∃ addr, exec (.mapOut h) s = .fault (.noSuchFieldAddress addr) := by
  obtain ⟨a, ha⟩ := exists_outsideMemory_of_not_inMemory (List.Subset.refl _) hout
  exact ⟨a.addr, execMapOut_of_outside hb hf ((tooWide_eq_none_iff_narrow ..).2 hnarrow) ha⟩

end

/-- With the fields in the memory nothing faults. -/
theorem exec_ne_fault_of_fieldsInMemory {s : State} (hfields : FieldsInMemory s) (i : Instr) (r : Fault) :
    exec i s ≠ .fault r := by
  intro he
  cases i with
  | mapIn h =>
    obtain ⟨f, _, v, _, hnarrow, hleaves⟩ := exec_mapIn_fault he
    exact not_leavesMemory_of_narrow (fun n bd hn => hfields n bd (.inl hn)) hnarrow hleaves
  | mapOut h =>
    obtain ⟨f, _, hnarrow, hleaves⟩ := exec_mapOut_fault he
    exact not_leavesMemory_of_narrow (fun n bd hn => hfields n bd (.inr hn)) hnarrow hleaves
  | _ => exact exec_ne_fault (by simp) s r he

/-! ## Fields that stay in the memory -/

/-- Every field bound in a table of the binder has its kind's width and lies in the memory. -/
def Binder.FieldsIn (c : Config) (b : Binder) : Prop :=
  ∀ d n bd, (b.table d).get? n = some bd → bd.bytes = bd.kind.bytes ∧ HasBytes c bd.addr bd.bytes

theorem fieldsInMemory_iff (s : State) : FieldsInMemory s ↔ s.binder.FieldsIn s.cfg := by
  refine ⟨fun h d n bd hbd => h n bd ?_, fun h n bd hbd => ?_⟩
  · cases d
    · exact .inl hbd
    · exact .inr hbd
  · obtain hin | hout := hbd
    · exact h .input n bd hin
    · exact h .output n bd hout

theorem Binder.FieldsIn.registerLeaves {c : Config} {b : Binder} (h : b.FieldsIn c) {ls : List Leaf} (hls : GoodLeaves c ls) :
    (registerLeaves b ls).1.FieldsIn c := by
  refine registerLeaves_induct (Binder.FieldsIn c) (fun b l d hb hl _ _ e n bd hbd => ?_) h
  rw [Binder.get?_table_bindLeaf] at hbd
  split at hbd
  · cases hbd
    exact hls l hl
  · exact hb e n bd hbd

/-- An operation that completes keeps the fields in the memory, REGISTER where its leaves are (log 12). -/
theorem fieldsInMemory_exec {s t : State} {i : Instr} (hfields : FieldsInMemory s)
    (hleaves : ∀ ls, i = .register ls → GoodLeaves s.cfg ls) (ht : exec i s = .next t) : FieldsInMemory t := by
  by_cases hi : ∃ ls, i = .register ls
  · obtain ⟨ls, rfl⟩ := hi
    have hafter := ((fieldsInMemory_iff s).1 hfields).registerLeaves (hleaves ls rfl)
    rw [fieldsInMemory_iff]
    obtain ⟨_, _, b, ⟨hr, rfl⟩ | ⟨n, hr, rfl⟩⟩ := execRegister_next ht <;> rw [hr] at hafter <;> exact hafter
  · have hkept := exec_completes ht
    obtain ⟨hin, hout⟩ := hkept.bindings (not_exists.1 hi)
    intro n bd hbd
    rw [hin, hout] at hbd
    rw [hkept.cfg]
    exact hfields n bd hbd

/-- Settles O11, clause by clause. -/
theorem faultsAreAccessesOutsideFieldMemory : Obligations.FaultsAreAccessesOutsideFieldMemory := by
  refine ⟨fun s i r hi => exec_ne_fault hi s r, fun s h r he => ?_, fun s h r he => ?_,
    fun s h f hb hf => ⟨fun hp hnarrow hout => ?_, fun b hbuf hp hnarrow hnarrow' hout => ?_,
      exec_mapOut_fault_of_not_inMemory hb hf⟩,
    fun s i r hfields => exec_ne_fault_of_fieldsInMemory hfields i r,
    fun s t i => fieldsInMemory_exec⟩
  · obtain ⟨f, hf, v, rfl | ⟨b, hbuf, hp, rfl⟩, _, hleaves⟩ := exec_mapIn_fault he
    · exact ⟨f, hf, .inl hleaves⟩
    · exact ⟨f, hf, .inr ⟨b, hbuf, hp, hleaves⟩⟩
  · obtain ⟨f, hf, _, hleaves⟩ := exec_mapOut_fault he
    exact ⟨f, hf, hleaves⟩
  · rw [exec_mapIn_of_no_partner hb hf hp]
    exact applyThenEnd_fault_of_not_inMemory (s := s.enterRun) (by simpa using hnarrow) List.mem_cons_self hout _ _
  · rw [exec_mapIn_of_pair hb hf hp hbuf]
    have hboth : ∀ v ∈ [b.view, viewOf f], Narrow s.binder.inBind v := by simpa using ⟨hnarrow, hnarrow'⟩
    by_cases hbuffered : InMemory s.cfg s.binder.inBind b.view
    · exact applyThenEnd_fault_of_not_inMemory (s := s.enterRun) (v := viewOf f) hboth (by simp)
        (fun harriving => hout ⟨hbuffered, harriving⟩) _ _
    · exact applyThenEnd_fault_of_not_inMemory (s := s.enterRun) (v := b.view) hboth (by simp) hbuffered _ _

end Sys2Proof.Machine
end

section
/-! The creation of a block (70_reset_and_hazards.md R220): a codec with empty tables on each bus of the parameters, no live
entry, and no input pending. -/

namespace Sys2Proof.Machine

open Sys2Proof

/-- The map that gives every key of a list one value. -/
theorem FMap.get?_map_pair {K V : Type} [DecidableEq K] (l : List K) (v : V) (k : K) :
    FMap.get? (l.map fun j => (j, v)) k = if k ∈ l then some v else none := by
  induction l with
  | nil => rfl
  | cons j l ih =>
    rw [List.map_cons, FMap.get?_cons, ih]
    by_cases h : j = k
    · simp [h]
    · simp [h, Ne.symm h]

/-- No key finds an entry in an empty codec. -/
@[simp] theorem Codec.frame?_empty (k : FrameKey) : Codec.empty.frame? k = none := by
  cases k <;> rfl

/-- The codecs of a new block stand on the buses of its parameters, each empty. -/
theorem State.codec?_resetWith (c : Config) (image : Memory) (b : Int) :
    (State.resetWith c image).codec? b = if b ∈ c.buses then some Codec.empty else none :=
  FMap.get?_map_pair c.buses Codec.empty b

/-- A new block has no live entry, and so no value register. -/
theorem State.frame?_resetWith (c : Config) (image : Memory) (h : Handle) :
    (State.resetWith c image).frame? h = none := by
  refine Option.eq_none_iff_forall_ne_some.2 fun f hf => ?_
  obtain ⟨k, hk, hkf⟩ := State.frame?_eq_some hf
  rw [State.codec?_resetWith] at hk
  split at hk
  · cases hk
    simp at hkf
  · cases hk

/-- Settles O8: the codecs and the live entries by their lemmas, the wait because no input is pending; the rest is as created. -/
theorem resetLeavesEverythingEmpty : Obligations.ResetLeavesEverythingEmpty := by
  intro c image
  exact ⟨State.codec?_resetWith c image, rfl, rfl, rfl, State.frame?_resetWith c image, rfl, step_of_pending_nil rfl⟩

end Sys2Proof.Machine
end
